-- ==== Sys2Proof/Word.lean ====
section
/-! DEFINITION. The word types of the block: register widths of 10_state.md, all unsigned (R9). -/

namespace Sys2Proof

/-- An 8-bit register or operand (UInt8 of the spec). -/
abbrev Byte := BitVec 8

/-- A 16-bit bus word (UInt16 of the spec). -/
abbrev Half := BitVec 16

/-- A 24-bit microsecond count (R48). -/
abbrev Stamp := BitVec 24

/-- A 32-bit record word or transaction key (R101, R103). -/
abbrev Word := BitVec 32

/-- One encoded instruction: a key, command word, record word or number, with its operands above it (log 14). -/
abbrev CodeWord := BitVec 48

/-- The two address spaces of the block (R70). -/
inductive Window where
  | cs
  | ev
deriving DecidableEq, Repr, Inhabited

end Sys2Proof
end

