-- ==== Sys2Proof/Config.lean ====
section
/-! DEFINITION. The parameters of 00_scope.md rule R8, the constants UCD fixes, and the uninterpreted
constants that stand for OPEN parameters and for draws (R13). -/

namespace Sys2Proof

/-- BYTE_ORDER (R8, R75). -/
inductive ByteOrder where
  | big
  | little
deriving DecidableEq, Repr

/-- CAPTURE_RULE (R8, R305). -/
inductive CaptureRule where
  | free
  | any
  | routed
deriving DecidableEq, Repr

/-- THRESH_RULE (R8, R307). -/
inductive ThreshRule where
  | crossing
  | atOrAbove
deriving DecidableEq, Repr

/-- CONFIRM_CHECK (R8, R152): the default comparison, or another one the spec does not give (log 18). -/
inductive ConfirmRule where
  | standard
  | other
deriving DecidableEq, Repr

/-- The parameters of R8. One value of it stands in the state and no step changes it (log 2). -/
structure Config where
  csBase            : Nat
  evBase            : Nat
  addrWidth         : Nat
  csSize            : Nat
  evSize            : Nat
  fifoDepth         : Nat
  selOffset         : Nat
  byteOrder         : ByteOrder
  statusClearOnRead : Bool
  emptyReadValue    : Word
  captureRule       : CaptureRule
  threshRule        : ThreshRule
  clearAlsoFlushes  : Bool
  ttHighBitsStored  : Bool
  confirmRule       : ConfirmRule
deriving DecidableEq, Repr

/-- What one bus transaction's oracle draws (R153, log 5): whether it succeeds and, when it fails, whether its
effect, the pop of a FIFO half read and the underflow flag of an empty half read nevertheless happened. -/
structure BusOutcome where
  ok      : Bool
  took    : Bool
  popped  : Bool
  flagged : Bool
deriving DecidableEq, Repr, Inhabited

namespace Config

/-- The bounds R8 puts on the OPEN parameters. -/
abbrev Valid (c : Config) : Prop :=
  16 ≤ c.addrWidth ∧ 0x8C ≤ c.csSize ∧ 0x1204 ≤ c.evSize ∧ 1 ≤ c.fifoDepth

/-- MODULE_ID (R2, R8). -/
def moduleId : Half := 0xBB15

/-- SENTINEL, the "no value" record word (R8, R103). -/
def sentinel : Word := 0xFFFFFFFF

/-- ID_HI and ID_LO of a genuine module (R44, log 19). -/
def genuineIdHi : Byte := 0xBB

def genuineIdLo : Byte := 0x15

/-- OPEN parameters of R8: uninterpreted, no value of them can be proved (log 2). -/
opaque openCsBase : Nat

opaque openEvBase : Nat

opaque openAddrBits : Nat

opaque openCsExtra : Nat

opaque openEvExtra : Nat

opaque openFifoExtra : Nat

/-- Power-on draws of R60 (log 3). -/
opaque powerOn : Nat → Nat

/-- Every other draw of R13, by its number (log 4). -/
opaque freeValue : Nat → Nat

/-- The bus oracle's draws of R153, by the transaction's number (log 5). -/
opaque busOutcome : Nat → BusOutcome

/-- The confirm comparison when it is not the default (R152, log 18): window, offset, value written, value read. -/
opaque otherConfirm : Window → Nat → Half → Half → Bool

/-- The configuration after reset: R8's defaults, and the OPEN parameters within R8's bounds. -/
def initial : Config where
  csBase            := openCsBase
  evBase            := openEvBase
  addrWidth         := openAddrBits + 16
  csSize            := openCsExtra + 0x8C
  evSize            := openEvExtra + 0x1204
  fifoDepth         := openFifoExtra + 1
  selOffset         := 1
  byteOrder         := .big
  statusClearOnRead := false
  emptyReadValue    := 0xFFFFFFFF
  captureRule       := .free
  threshRule        := .crossing
  clearAlsoFlushes  := false
  ttHighBitsStored  := true
  confirmRule       := .standard

/-- Bytes in a window (R74). -/
def windowSize (c : Config) : Window → Nat
  | .cs => c.csSize
  | .ev => c.evSize

/-- The base bus address of a window (R11). -/
def windowBase (c : Config) : Window → Nat
  | .cs => c.csBase
  | .ev => c.evBase

end Config

end Sys2Proof
end

