-- ==== Sys2Proof/Syntax.lean ====
section
/-! DEFINITION. The instructions: one constructor per row of spec/opcode_table.json, operands decoded. -/

namespace Sys2Proof

/-- The five formats of encoding (R100). -/
inductive Format where
  | txn
  | cmd
  | record
  | api
  | agent
deriving DecidableEq, Repr

/-- The rows of the opcode table: bus transactions (R102), command words (R104), record words (R103, R117),
host operations (R113) and hardware steps (R114). -/
inductive Instr where
  -- format TXN
  | rdCtrl
  | wrCtrl (v : Half)
  | rdStatus
  | wrStatus (v : Half)
  | rdMdatItype
  | wrMdatItype (v : Byte)
  | rdMdatBufsw
  | wrMdatBufsw (v : Byte)
  | rdW44
  | wrW44 (v : Half)
  | rdTsrstLo
  | wrTsrstLo (v : Half)
  | rdTsrstHi
  | wrTsrstHi (v : Half)
  | rdWrtrig
  | wrWrtrig (v : Byte)
  | rdClrtrig
  | wrClrtrig (v : Byte)
  | rdW4a
  | wrW4a (v : Half)
  | rdThresh
  | wrThresh (v : Half)
  | rdIdHi
  | rdIdLo
  | rdTt (c : Byte)
  | wrTt (c : Byte) (v : Half)
  | rdFifoHi
  | rdFifoLo
  | rdFifo32
  -- format CMD
  | noOp
  | enableTclk
  | disableTclk
  | enableMdat
  | disableMdat
  | mdatBuf0
  | mdatBuf1
  | enableMdatBufAuto
  | disableMdatBufAuto
  | swInterrupt
  | swReset
  -- format REC
  | recEmpty
  | recEvent (ts : Stamp) (code : Byte)
  -- format API
  | decodeRec (raw : Word)
  | encodeRec (code : Byte) (ts : Stamp)
  | validRec (raw : Word)
  | setTrigger (code bit : Byte) (enabled : Bool)
  | getTrigger (code bit : Byte)
  | clearTriggerTable
  | construct
  | probe
  | resetModule
  | configureTriggers
  | startCollecting
  | setResetTimestampTrigger (t : Byte)
  | setWriteTrigger (t : Byte)
  | setFifoThreshold (level : Byte)
  | readStatus
  | drainOneEvent
  | decodeStatus (w : Half)
  | lockTask
  | lockIsr
  | unlock
  -- format AGENT
  | evtTclk (code : Byte)
  | evtTick
  | evtInput (tclkPresent mdatPresent tclkParity mdatParity : Bool)
deriving DecidableEq, Repr

end Sys2Proof
end

