-- ==== Sys2Proof/WellFormed.lean ====
section
/-! DEFINITION. Which terms of `Instr` an encoding exists for. -/

namespace Sys2Proof

/-- The record word of an event row (R103): timestamp above event code. -/
def recordWord (ts : Stamp) (code : Byte) : Word := ts ++ code

/-- REC_EVENT stands for every word other than the sentinel (R103, R117); every other operand is bounded by its
type (R206: no event code is invalid; an out-of-range trigger bit or level is a legal call that returns an
error, R352). -/
def WellFormed : Instr → Bool
  | .recEvent ts code => recordWord ts code != Config.sentinel
  | _ => true

end Sys2Proof
end

