-- ==== Sys2Proof/Decode.lean ====
section
/-! DEFINITION. The decoder and the encoder, both written from 30_encoding.md rules R101 to R118. A code word is
48 bits: the key, command word, record word or number of the row in its low bits, the operands above it in the
layout of log 14. The five formats share bit patterns, so a word is decoded in a given format. -/

namespace Sys2Proof

/-- Why the decoder rejects a word (R115). -/
inductive Reject where
  /-- a transaction key that matches no row of R102 -/
  | unmappedKey
  /-- a command word that is not one of R104's (R105) -/
  | reservedCommand
  /-- an API or AGENT number that R113 and R114 do not list -/
  | noSuchOperation
  /-- a bit set where the row has no operand (log 14) -/
  | strayBits
deriving DecidableEq, Repr

/-- The field of `w` bits from bit `lo` of a code word. -/
abbrev bitsAt (x : CodeWord) (lo w : Nat) : BitVec w := x.extractLsb' lo w

/-- Accept `i` when the bits from `lo` upwards are zero. -/
def ifClear (x : CodeWord) (lo : Nat) (i : Instr) : Except Reject Instr :=
  if x >>> lo = 0 then .ok i else .error .strayBits

/-- The transaction key of R101 from its fields. -/
def txnKey (w : Window) (write : Bool) (size : BitVec 2) (off : Half) : Word :=
  BitVec.ofBool (w == .ev) ++ BitVec.ofBool write ++ size ++ (0 : BitVec 12) ++ off

/-- Format TXN (R102): the key is bits 31..0, the value written bits 47..32 (R116; log 14). -/
def decodeTxn (x : CodeWord) : Except Reject Instr :=
  let key := bitsAt x 0 32
  let v16 := bitsAt x 32 16
  let v8  := bitsAt x 32 8
  if key = 0x10000040 then ifClear x 32 .rdCtrl
  else if key = 0x50000040 then .ok (.wrCtrl v16)
  else if key = 0x10000042 then ifClear x 32 .rdStatus
  else if key = 0x50000042 then .ok (.wrStatus v16)
  else if key = 0x00000044 then ifClear x 32 .rdMdatItype
  else if key = 0x40000044 then ifClear x 40 (.wrMdatItype v8)
  else if key = 0x00000045 then ifClear x 32 .rdMdatBufsw
  else if key = 0x40000045 then ifClear x 40 (.wrMdatBufsw v8)
  else if key = 0x10000044 then ifClear x 32 .rdW44
  else if key = 0x50000044 then .ok (.wrW44 v16)
  else if key = 0x10000046 then ifClear x 32 .rdTsrstLo
  else if key = 0x50000046 then .ok (.wrTsrstLo v16)
  else if key = 0x10000048 then ifClear x 32 .rdTsrstHi
  else if key = 0x50000048 then .ok (.wrTsrstHi v16)
  else if key = 0x0000004A then ifClear x 32 .rdWrtrig
  else if key = 0x4000004A then ifClear x 40 (.wrWrtrig v8)
  else if key = 0x0000004B then ifClear x 32 .rdClrtrig
  else if key = 0x4000004B then ifClear x 40 (.wrClrtrig v8)
  else if key = 0x1000004A then ifClear x 32 .rdW4a
  else if key = 0x5000004A then .ok (.wrW4a v16)
  else if key = 0x1000004C then ifClear x 32 .rdThresh
  else if key = 0x5000004C then .ok (.wrThresh v16)
  else if key = 0x00000089 then ifClear x 32 .rdIdHi
  else if key = 0x0000008B then ifClear x 32 .rdIdLo
  else if key &&& 0xFFFFFE01 = 0x90000000 then ifClear x 32 (.rdTt (bitsAt x 1 8))
  else if key &&& 0xFFFFFE01 = 0xD0000000 then .ok (.wrTt (bitsAt x 1 8) v16)
  else if key = 0x90001200 then ifClear x 32 .rdFifoHi
  else if key = 0x90001202 then ifClear x 32 .rdFifoLo
  else if key = 0xA0001200 then ifClear x 32 .rdFifo32
  else .error .unmappedKey

/-- Format CMD (R104): a whole 16-bit word. -/
def decodeCmd (x : CodeWord) : Except Reject Instr :=
  let word := bitsAt x 0 16
  if word = 0x0000 then ifClear x 16 .noOp
  else if word = 0x0001 then ifClear x 16 .enableTclk
  else if word = 0x0002 then ifClear x 16 .disableTclk
  else if word = 0x0003 then ifClear x 16 .enableMdat
  else if word = 0x0004 then ifClear x 16 .disableMdat
  else if word = 0x0005 then ifClear x 16 .mdatBuf0
  else if word = 0x0006 then ifClear x 16 .mdatBuf1
  else if word = 0x0007 then ifClear x 16 .enableMdatBufAuto
  else if word = 0x0008 then ifClear x 16 .disableMdatBufAuto
  else if word = 0x0009 then ifClear x 16 .swInterrupt
  else if word = 0x00FF then ifClear x 16 .swReset
  else .error .reservedCommand

/-- Format REC (R117): the sentinel first, then every other word (R103). -/
def decodeRecordWord (x : CodeWord) : Except Reject Instr :=
  if bitsAt x 0 32 = Config.sentinel then ifClear x 32 .recEmpty
  else ifClear x 32 (.recEvent (bitsAt x 8 24) (bitsAt x 0 8))

/-- Format API (R113): the number is bits 7..0, the operands follow from bit 8 up (log 14). -/
def decodeApi (x : CodeWord) : Except Reject Instr :=
  let num := bitsAt x 0 8
  let a := bitsAt x 8 8
  let b := bitsAt x 16 8
  if num = 0x01 then ifClear x 40 (.decodeRec (bitsAt x 8 32))
  else if num = 0x02 then ifClear x 40 (.encodeRec a (bitsAt x 16 24))
  else if num = 0x03 then ifClear x 40 (.validRec (bitsAt x 8 32))
  else if num = 0x10 then ifClear x 25 (.setTrigger a b (x.getLsbD 24))
  else if num = 0x11 then ifClear x 24 (.getTrigger a b)
  else if num = 0x12 then ifClear x 8 .clearTriggerTable
  else if num = 0x20 then ifClear x 8 .construct
  else if num = 0x21 then ifClear x 8 .probe
  else if num = 0x22 then ifClear x 8 .resetModule
  else if num = 0x23 then ifClear x 8 .configureTriggers
  else if num = 0x24 then ifClear x 8 .startCollecting
  else if num = 0x30 then ifClear x 16 (.setResetTimestampTrigger a)
  else if num = 0x31 then ifClear x 16 (.setWriteTrigger a)
  else if num = 0x32 then ifClear x 16 (.setFifoThreshold a)
  else if num = 0x33 then ifClear x 8 .readStatus
  else if num = 0x34 then ifClear x 8 .drainOneEvent
  else if num = 0x35 then ifClear x 24 (.decodeStatus (bitsAt x 8 16))
  else if num = 0x40 then ifClear x 8 .lockTask
  else if num = 0x41 then ifClear x 8 .lockIsr
  else if num = 0x42 then ifClear x 8 .unlock
  else .error .noSuchOperation

/-- Format AGENT (R114): the number is bits 7..0, the step's arguments follow from bit 8 up (log 14). -/
def decodeAgent (x : CodeWord) : Except Reject Instr :=
  let num := bitsAt x 0 8
  if num = 0x50 then ifClear x 16 (.evtTclk (bitsAt x 8 8))
  else if num = 0x51 then ifClear x 8 .evtTick
  else if num = 0x52 then
    ifClear x 12 (.evtInput (x.getLsbD 8) (x.getLsbD 9) (x.getLsbD 10) (x.getLsbD 11))
  else .error .noSuchOperation

/-- The decoder: total on every word of every format. -/
def decode : Format → CodeWord → Except Reject Instr
  | .txn, x => decodeTxn x
  | .cmd, x => decodeCmd x
  | .record, x => decodeRecordWord x
  | .api, x => decodeApi x
  | .agent, x => decodeAgent x

/-- A transaction word: the value written above the key (R116; log 14). -/
def keyWord (key : Word) : CodeWord := (0 : BitVec 16) ++ key

def keyWord8 (key : Word) (v : Byte) : CodeWord := (0 : BitVec 8) ++ v ++ key

def keyWord16 (key : Word) (v : Half) : CodeWord := v ++ key

/-- The key of a trigger-table transaction: entry `c` at offset 2c (R201). -/
def ttKey (base : BitVec 23) (c : Byte) : Word := base ++ c ++ (0 : BitVec 1)

/-- A command word alone. -/
def cmdWord (word : Half) : CodeWord := (0 : BitVec 32) ++ word

/-- A host operation or hardware step: its number below one operand field. -/
def numWord (num : Byte) (operands : BitVec 40) : CodeWord := operands ++ num

/-- The format and word of an instruction. -/
def encode : Instr → Format × CodeWord
  | .rdCtrl => (.txn, keyWord 0x10000040)
  | .wrCtrl v => (.txn, keyWord16 0x50000040 v)
  | .rdStatus => (.txn, keyWord 0x10000042)
  | .wrStatus v => (.txn, keyWord16 0x50000042 v)
  | .rdMdatItype => (.txn, keyWord 0x00000044)
  | .wrMdatItype v => (.txn, keyWord8 0x40000044 v)
  | .rdMdatBufsw => (.txn, keyWord 0x00000045)
  | .wrMdatBufsw v => (.txn, keyWord8 0x40000045 v)
  | .rdW44 => (.txn, keyWord 0x10000044)
  | .wrW44 v => (.txn, keyWord16 0x50000044 v)
  | .rdTsrstLo => (.txn, keyWord 0x10000046)
  | .wrTsrstLo v => (.txn, keyWord16 0x50000046 v)
  | .rdTsrstHi => (.txn, keyWord 0x10000048)
  | .wrTsrstHi v => (.txn, keyWord16 0x50000048 v)
  | .rdWrtrig => (.txn, keyWord 0x0000004A)
  | .wrWrtrig v => (.txn, keyWord8 0x4000004A v)
  | .rdClrtrig => (.txn, keyWord 0x0000004B)
  | .wrClrtrig v => (.txn, keyWord8 0x4000004B v)
  | .rdW4a => (.txn, keyWord 0x1000004A)
  | .wrW4a v => (.txn, keyWord16 0x5000004A v)
  | .rdThresh => (.txn, keyWord 0x1000004C)
  | .wrThresh v => (.txn, keyWord16 0x5000004C v)
  | .rdIdHi => (.txn, keyWord 0x00000089)
  | .rdIdLo => (.txn, keyWord 0x0000008B)
  | .rdTt c => (.txn, keyWord (ttKey 0x480000 c))
  | .wrTt c v => (.txn, keyWord16 (ttKey 0x680000 c) v)
  | .rdFifoHi => (.txn, keyWord 0x90001200)
  | .rdFifoLo => (.txn, keyWord 0x90001202)
  | .rdFifo32 => (.txn, keyWord 0xA0001200)
  | .noOp => (.cmd, cmdWord 0x0000)
  | .enableTclk => (.cmd, cmdWord 0x0001)
  | .disableTclk => (.cmd, cmdWord 0x0002)
  | .enableMdat => (.cmd, cmdWord 0x0003)
  | .disableMdat => (.cmd, cmdWord 0x0004)
  | .mdatBuf0 => (.cmd, cmdWord 0x0005)
  | .mdatBuf1 => (.cmd, cmdWord 0x0006)
  | .enableMdatBufAuto => (.cmd, cmdWord 0x0007)
  | .disableMdatBufAuto => (.cmd, cmdWord 0x0008)
  | .swInterrupt => (.cmd, cmdWord 0x0009)
  | .swReset => (.cmd, cmdWord 0x00FF)
  | .recEmpty => (.record, keyWord 0xFFFFFFFF)
  | .recEvent ts code => (.record, keyWord (recordWord ts code))
  | .decodeRec raw => (.api, numWord 0x01 ((0 : BitVec 8) ++ raw))
  | .encodeRec code ts => (.api, numWord 0x02 ((0 : BitVec 8) ++ ts ++ code))
  | .validRec raw => (.api, numWord 0x03 ((0 : BitVec 8) ++ raw))
  | .setTrigger code bit enabled =>
      (.api, numWord 0x10 ((0 : BitVec 23) ++ BitVec.ofBool enabled ++ bit ++ code))
  | .getTrigger code bit => (.api, numWord 0x11 ((0 : BitVec 24) ++ bit ++ code))
  | .clearTriggerTable => (.api, numWord 0x12 0)
  | .construct => (.api, numWord 0x20 0)
  | .probe => (.api, numWord 0x21 0)
  | .resetModule => (.api, numWord 0x22 0)
  | .configureTriggers => (.api, numWord 0x23 0)
  | .startCollecting => (.api, numWord 0x24 0)
  | .setResetTimestampTrigger t => (.api, numWord 0x30 ((0 : BitVec 32) ++ t))
  | .setWriteTrigger t => (.api, numWord 0x31 ((0 : BitVec 32) ++ t))
  | .setFifoThreshold level => (.api, numWord 0x32 ((0 : BitVec 32) ++ level))
  | .readStatus => (.api, numWord 0x33 0)
  | .drainOneEvent => (.api, numWord 0x34 0)
  | .decodeStatus s => (.api, numWord 0x35 ((0 : BitVec 24) ++ s))
  | .lockTask => (.api, numWord 0x40 0)
  | .lockIsr => (.api, numWord 0x41 0)
  | .unlock => (.api, numWord 0x42 0)
  | .evtTclk code => (.agent, numWord 0x50 ((0 : BitVec 32) ++ code))
  | .evtTick => (.agent, numWord 0x51 0)
  | .evtInput tp mp tpe mpe =>
      (.agent, numWord 0x52 ((0 : BitVec 36) ++ BitVec.ofBool mpe ++ BitVec.ofBool tpe
        ++ BitVec.ofBool mp ++ BitVec.ofBool tp))

/-- The formats whose rows have the width `nbits` in the opcode table, in the order they are tried (log 14). -/
def tableFormats (nbits : Nat) : List Format :=
  if nbits ≤ 8 then [.api, .agent] else if nbits ≤ 16 then [.cmd] else [.txn, .record]

/-- The low `nbits` bits of `w` as a code word. -/
def tableWord (nbits w : Nat) : CodeWord := BitVec.ofNat 48 (w % 2 ^ nbits)

/-- Try a word in each format in turn. -/
def decodeFirst (x : CodeWord) : List Format → Option (Format × Instr)
  | [] => none
  | f :: fs =>
    match decode f x with
    | .ok i => some (f, i)
    | .error _ => decodeFirst x fs

/-- The instruction the decoder reads from a word numbered as spec/opcode_table.json numbers it. -/
def decodeTableWord (nbits w : Nat) : Option Instr :=
  (decodeFirst (tableWord nbits w) (tableFormats nbits)).map Prod.snd

/-- The format in which `decodeTableWord` reads the word: where none reads it, the first of its width. -/
def tableFormat (nbits w : Nat) : Format :=
  match decodeFirst (tableWord nbits w) (tableFormats nbits) with
  | some (f, _) => f
  | none => (tableFormats nbits).headD .txn

end Sys2Proof
end

