-- ==== Sys2Proof/Machine/State.lean ====
section
/-! DEFINITION. The state of the block and its host (10_state.md), as plain data, and its value after power-on. -/

namespace Sys2Proof.Machine

/-- No condition of the spec stops the whole machine: an error is a result (R356), a refused step marks the state
(R12, R151) and a stuck agent leaves the others stepping (R334). So there is no fault. -/
inductive Fault where
deriving DecidableEq, Repr

/-- Why a step has no meaning at all. -/
inductive Refusal where
  /-- raised by a dispatch arm whose instruction has no meaning yet; safe -/
  | notModelled (mnemonic : String)
  /-- raised by `step` for a scheduled word whose API or AGENT number names no row of R113 or R114, or that has a bit
  set where its row has no operand: those numbers
  are the spec's own labels and no behaviour is given for others (log 23); safe -/
  | undefinedOperation
deriving DecidableEq, Repr

/-- Which part of the FIFO word the next half read delivers (R47). -/
inductive FifoPhase where
  | idle
  | highRead
  | highReadEmpty
deriving DecidableEq, Repr

/-- The hardware state of the module (10_state.md sections 2 to 8). -/
structure Hw where
  ctrl          : Half
  tclkEnabled   : Bool
  mdatEnabled   : Bool
  mdatAutoBufEn : Bool
  mdatBuf0En    : Bool
  mdatBuf1En    : Bool
  mdatBufSel    : Bool
  mdatParityErr : Bool
  fifoUnderflow : Bool
  fifoOverflow  : Bool
  fifoThreshold : Bool
  tclkParityErr : Bool
  tclkPresent   : Bool
  mdatPresent   : Bool
  mdatIntType   : Byte
  mdatBufSwitch : Byte
  tsResetLo     : Half
  tsResetHi     : Half
  wrTrigSel     : Byte
  clrTrigSel    : Byte
  threshold     : Half
  tsCounter     : Stamp
  tt            : Vector Half 256
  fifo          : List Word
  fifoPhase     : FifoPhase
  idHi          : Byte
  idLo          : Byte
deriving DecidableEq, Repr

/-- A host context (R49): a task or the interrupt context. -/
inductive HostContext where
  | task (i : Nat)
  | isr
deriving DecidableEq, Repr

/-- The driver lock (R49). -/
inductive Lock where
  | free
  | held (k : HostContext)
deriving DecidableEq, Repr

/-- The driver states (R36). -/
inductive DriverState where
  | uninitialized
  | probing
  | resetting
  | configuringTriggers
  | collecting
  | failed
deriving DecidableEq, Repr

/-- The errors a host operation returns (R350). -/
inductive HostError where
  | deviceNotFound
  | invalidParameter
  | busAccessFailure
deriving DecidableEq, Repr

/-- Why a step is refused (R368); the last is the model's own (log 10). -/
inductive RefusalReason where
  | unmapped
  | outsideWindow
  | noLock
  | notLockHolder
  | fifoHalfOrder
  | reservedCommand
  | notUninitialized
  | wrongDriverState
  | interruptContext
deriving DecidableEq, Repr

/-- The fifteen named status flags (R260). -/
structure StatusFlags where
  mdatParityError       : Bool
  mdatBuffer0_1         : Bool
  fifoUnderflow         : Bool
  fifoOverflow          : Bool
  fifoFull              : Bool
  fifoThreshold         : Bool
  fifoEmpty             : Bool
  tclkParityError       : Bool
  mdatBuffer1Enabled    : Bool
  mdatBuffer0Enabled    : Bool
  mdatAutoBufferEnabled : Bool
  mdatEnabled           : Bool
  tclkEnabled           : Bool
  mdatPresent           : Bool
  tclkPresent           : Bool
deriving DecidableEq, Repr

/-- What a host step returns to its caller (R12, R350, R357). -/
inductive Result where
  | done
  | word (v : Word)
  | truth (b : Bool)
  | event (code : Byte) (ts : Stamp)
  | empty
  | flags (f : StatusFlags)
  | acquired
  | busy
  | error (e : HostError)
  | refused (r : RefusalReason)
deriving DecidableEq, Repr

/-- One logged bus transaction (R50): its key, the value written or read (none for a failed read, R153; log 20)
and whether the access succeeded. -/
structure Txn where
  key   : Word
  value : Option Half
  ok    : Bool
deriving DecidableEq, Repr

/-- An event of the model's history (R301, R303, R359). -/
inductive HistEvent where
  | trig (code mask : Byte)
  | irqSoftware
  | irqMdat
deriving DecidableEq, Repr

/-- The host's state (10_state.md section 9), the context whose step it is (log 10), the tasks that wait for the
lock with the operation they called (log 8), and the results returned so far (log 9). -/
structure HostSide where
  lock    : Lock
  drv     : DriverState
  log     : List Txn
  current : HostContext
  blocked : List (Nat × Instr)
  returns : List (HostContext × Result)
deriving DecidableEq, Repr

/-- A step of another agent between two transactions of one host operation (R84, R300, R341; log 6). -/
inductive GapStep where
  | tclk (code : Byte)
  | tick
  | input (tclkPresent mdatPresent tclkParity mdatParity : Bool)
  | lockIsr
  | lockTask (i : Nat)
deriving DecidableEq, Repr

/-- One turn of the schedule (R14; log 1): a host context issues an instruction, an agent takes a step (format
AGENT, where the context is not used), or a task that waits for the lock tries again (R331). -/
inductive Turn where
  | issue (k : HostContext) (f : Format) (x : CodeWord)
  | resume (i : Nat)
deriving DecidableEq, Repr

/-- The draws of R13 (log 4): values given beforehand, then the uninterpreted ones. -/
structure DrawStream where
  given : List Nat
  used  : Nat
deriving DecidableEq, Repr

/-- The bus oracle's draws (R153; log 5). -/
structure BusStream where
  given : List BusOutcome
  used  : Nat
deriving DecidableEq, Repr

/-- The model's inputs: who steps when, what steps between transactions, and every draw. -/
structure Environment where
  schedule : List Turn
  gaps     : List (List GapStep)
  bus      : BusStream
  draws    : DrawStream
deriving DecidableEq, Repr

/-- The whole model state (R30): configuration, hardware, host, the sticky mark, the history and the inputs. -/
structure State where
  cfg     : Config
  hw      : Hw
  host    : HostSide
  refused : Bool
  history : List HistEvent
  env     : Environment
deriving DecidableEq, Repr

/-- A Bool drawn from a number. -/
def drawnBool (n : Nat) : Bool := n % 2 == 1

/-- A 256-entry table drawn from the numbers `first` and up. -/
def drawnTable (d : Nat → Nat) (first : Nat) : Vector Half 256 :=
  ⟨((List.range 256).map fun c => BitVec.ofNat 16 (d (first + c))).toArray, by simp⟩

/-- FIFO contents drawn from the numbers: any list of at most `depth` records (R60). -/
def drawnFifo (depth : Nat) (d : Nat → Nat) (lengthAt first : Nat) : List Word :=
  (List.range (d lengthAt % (depth + 1))).map fun j => BitVec.ofNat 32 (d (first + j))

/-- Hardware state in which every field but the identification bytes and the FIFO phase is a draw (R60, R61). -/
def Hw.drawn (depth : Nat) (idHi idLo : Byte) (d : Nat → Nat) : Hw where
  ctrl          := BitVec.ofNat 16 (d 0)
  tclkEnabled   := drawnBool (d 1)
  mdatEnabled   := drawnBool (d 2)
  mdatAutoBufEn := drawnBool (d 3)
  mdatBuf0En    := drawnBool (d 4)
  mdatBuf1En    := drawnBool (d 5)
  mdatBufSel    := drawnBool (d 6)
  mdatParityErr := drawnBool (d 7)
  fifoUnderflow := drawnBool (d 8)
  fifoOverflow  := drawnBool (d 9)
  fifoThreshold := drawnBool (d 10)
  tclkParityErr := drawnBool (d 11)
  tclkPresent   := drawnBool (d 12)
  mdatPresent   := drawnBool (d 13)
  mdatIntType   := BitVec.ofNat 8 (d 14)
  mdatBufSwitch := BitVec.ofNat 8 (d 15)
  tsResetLo     := BitVec.ofNat 16 (d 16)
  tsResetHi     := BitVec.ofNat 16 (d 17)
  wrTrigSel     := BitVec.ofNat 8 (d 18)
  clrTrigSel    := BitVec.ofNat 8 (d 19)
  threshold     := BitVec.ofNat 16 (d 20)
  tsCounter     := BitVec.ofNat 24 (d 21)
  tt            := drawnTable d 23
  fifo          := drawnFifo depth d 22 279
  fifoPhase     := .idle
  idHi          := idHi
  idLo          := idLo

/-- How many draws `Hw.drawn` may read. -/
def Hw.drawnCount (depth : Nat) : Nat := 279 + depth

/-- The machine right after power-on (R60, R390): identification bytes of a genuine module, FIFO phase Idle, lock
free, driver Uninitialized, log empty, not refused; every other hardware field is the free value
`Config.powerOn` (log 3); the model's own fields are empty (logs 1, 4 to 6, 8 to 10). -/
def State.reset : State where
  cfg     := Config.initial
  hw      := Hw.drawn Config.initial.fifoDepth Config.genuineIdHi Config.genuineIdLo Config.powerOn
  host    := { lock := .free, drv := .uninitialized, log := [], current := .task 1, blocked := [], returns := [] }
  refused := false
  history := []
  env     := { schedule := [], gaps := [], bus := { given := [], used := 0 }, draws := { given := [], used := 0 } }

end Sys2Proof.Machine
end

