-- ==== Sys2Proof/Machine/Operands.lean ====
section
/-! DEFINITION. The value formats of 30_encoding.md and 40_record_codec.md: record words, selectors, byte pairs,
the module ID, the trigger-table entry, the bus address. Pure functions of their operands. -/

namespace Sys2Proof.Machine

/-- ENCODE (R132): the timestamp above the event code. -/
def encodeRecord (code : Byte) (ts : Stamp) : Word :=
  (ts.setWidth 32 <<< 8) ||| code.setWidth 32

/-- VALID (R131). -/
def validRecord (raw : Word) : Bool := raw != Config.sentinel

/-- DECODE (R130): none is Empty; otherwise the event code and the timestamp. -/
def decodeRecord (raw : Word) : Option (Byte × Stamp) :=
  if raw = Config.sentinel then none
  else some ((raw &&& 0xFF).setWidth 8, (raw >>> 8).setWidth 24)

/-- DECODE's result as a host operation returns it (R130). -/
def recordResult (raw : Word) : Result :=
  match decodeRecord raw with
  | none => .empty
  | some (code, ts) => .event code ts

/-- A record assembled from its two half reads (R110). -/
def joinHalves (hi lo : Half) : Word := (hi.setWidth 32 <<< 16) ||| lo.setWidth 32

/-- The half of a record read at EV+0x1200 (R181). -/
def highHalf (raw : Word) : Half := (raw >>> 16).setWidth 16

/-- The half of a record read at EV+0x1202 (R182). -/
def lowHalf (raw : Word) : Half := raw.setWidth 16

/-- The module ID from its two bytes (R109). -/
def moduleIdOf (hi lo : Byte) : Half := (hi.setWidth 16 <<< 8) ||| lo.setWidth 16

/-- The word a pair of byte registers forms (R75, R76; log 22 for the other order). -/
def joinBytes (o : ByteOrder) (even odd : Byte) : Half :=
  match o with
  | .big => even ++ odd
  | .little => odd ++ even

/-- The byte a word access writes to the even register (R75, R76; log 22). -/
def evenByte (o : ByteOrder) (v : Half) : Byte :=
  match o with
  | .big => (v >>> 8).setWidth 8
  | .little => v.setWidth 8

/-- The byte a word access writes to the odd register (R75, R76; log 22). -/
def oddByte (o : ByteOrder) (v : Half) : Byte :=
  match o with
  | .big => v.setWidth 8
  | .little => (v >>> 8).setWidth 8

/-- What a selector register selects (R108). -/
inductive Selection where
  | none
  | line (n : Nat)
  | unknown
deriving DecidableEq, Repr

/-- The line of a raw selector value (R108). -/
def selLine (selOffset : Nat) (r : Byte) : Selection :=
  if r = 0 then .none
  else if selOffset ≤ r.toNat ∧ r.toNat ≤ selOffset + 7 then .line (r.toNat - selOffset)
  else .unknown

/-- The raw selector value a host operation writes for line `t` (R108, R263, R264). -/
def selectorRaw (selOffset : Nat) (t : Byte) : Byte := BitVec.ofNat 8 (t.toNat + selOffset)

/-- Whether a selection hits an event of routing mask `m`; an unknown one as `free` says (R301, R302). -/
def hits (sel : Selection) (m : Byte) (free : Bool) : Bool :=
  match sel with
  | .none => false
  | .line n => m.getLsbD n
  | .unknown => free

/-- Entry `c` of the trigger table (R45). -/
def ttEntry (tt : Vector Half 256) (c : Byte) : Half := tt[c.toNat]'(c.isLt)

/-- The trigger table with entry `c` replaced (R45). -/
def ttReplace (tt : Vector Half 256) (c : Byte) (v : Half) : Vector Half 256 := tt.set c.toNat v c.isLt

/-- Bits 7..0 of an entry, its routing mask (R107, R200). -/
def routingMask (entry : Half) : Byte := entry.setWidth 8

/-- The entry a write stores (R180): bits 15..8 only when they are stored (R45; log 17). -/
def storedEntry (highBits : Bool) (old v : Half) : Half :=
  if highBits then v else (old &&& 0xFF00) ||| (v &&& 0x00FF)

/-- What a read of an entry delivers (R179): bits 15..8 as drawn when they are not stored. -/
def readEntry (highBits : Bool) (entry : Half) (drawn : Byte) : Half :=
  if highBits then entry else drawn ++ routingMask entry

/-- A routing mask with bit `b` set or cleared (R203). -/
def withTriggerBit (m : Half) (b : Byte) (enabled : Bool) : Half :=
  if enabled then m ||| ((1 : Half) <<< b.toNat) else m &&& ~~~((1 : Half) <<< b.toNat)

/-- Bit `b` of a routing mask (R204). -/
def triggerBit (m : Half) (b : Byte) : Bool := (m >>> b.toNat) &&& 1 == 1

/-- The EV offset of entry `c` (R201). -/
def ttOffset (c : Byte) : Nat := 2 * c.toNat

/-- Keys of the trigger-table transactions of entry `c` (R201). -/
def rdTtKey (c : Byte) : Word := 0x90000000 ||| (c.setWidth 32 <<< 1)

def wrTtKey (c : Byte) : Word := 0xD0000000 ||| (c.setWidth 32 <<< 1)

/-- The bus address of a window offset (R11). -/
def busAddress (cfg : Config) (w : Window) (off : Nat) : Nat := cfg.windowBase w + off

/-- The numeric code of an error (R350). -/
def errorCode : HostError → Nat
  | .deviceNotFound => 1
  | .invalidParameter => 2
  | .busAccessFailure => 3

/-- The numeric code an operation ends with (R350): 0 for success, with whatever result; a refusal is no error and has
none (R368). -/
def resultCode : Result → Option Nat
  | .error e => some (errorCode e)
  | .refused _ => none
  | .done => some 0
  | .word _ => some 0
  | .truth _ => some 0
  | .event _ _ => some 0
  | .empty => some 0
  | .flags _ => some 0
  | .acquired => some 0
  | .busy => some 0

end Sys2Proof.Machine
end

