-- ==== Sys2Proof/Machine/Flags.lean ====
section
/-! DEFINITION. Every flag computation: the status word (R41), its decoding (R260), the clearing of edge flags
(R155), the FIFO's occupancy state (R261) and the threshold flag (R307). -/

namespace Sys2Proof.Machine

/-- One flag at its bit of the status word. -/
def flagBit (b : Bool) (n : Nat) : Half := (BitVec.ofBool b).setWidth 16 <<< n

/-- EDGE_MASK and LEVEL_MASK (R42). -/
def edgeMask : Half := 0x4000 ||| 0x1000 ||| 0x0800 ||| 0x0200 ||| 0x0080

def levelMask : Half := 0x257F

/-- FIFOFull (R41). -/
def fifoIsFull (depth : Nat) (hw : Hw) : Bool := hw.fifo.length == depth

/-- FIFOEmpty (R41). -/
def fifoIsEmpty (hw : Hw) : Bool := hw.fifo.length == 0

/-- `statusWord(hw)` (R41); bit 15 as drawn. -/
def statusWord (depth : Nat) (hw : Hw) (bit15 : Bool) : Half :=
  flagBit bit15 15
  ||| flagBit hw.mdatParityErr 14
  ||| flagBit hw.mdatBufSel 13
  ||| flagBit hw.fifoUnderflow 12
  ||| flagBit hw.fifoOverflow 11
  ||| flagBit (fifoIsFull depth hw) 10
  ||| flagBit hw.fifoThreshold 9
  ||| flagBit (fifoIsEmpty hw) 8
  ||| flagBit hw.tclkParityErr 7
  ||| flagBit hw.mdatBuf1En 6
  ||| flagBit hw.mdatBuf0En 5
  ||| flagBit hw.mdatAutoBufEn 4
  ||| flagBit hw.mdatEnabled 3
  ||| flagBit hw.tclkEnabled 2
  ||| flagBit hw.mdatPresent 1
  ||| flagBit hw.tclkPresent 0

/-- DECODE_STATUS (R260). -/
def statusFlags (s : Half) : StatusFlags where
  mdatParityError       := s &&& 0x4000 != 0
  mdatBuffer0_1         := s &&& 0x2000 != 0
  fifoUnderflow         := s &&& 0x1000 != 0
  fifoOverflow          := s &&& 0x0800 != 0
  fifoFull              := s &&& 0x0400 != 0
  fifoThreshold         := s &&& 0x0200 != 0
  fifoEmpty             := s &&& 0x0100 != 0
  tclkParityError       := s &&& 0x0080 != 0
  mdatBuffer1Enabled    := s &&& 0x0040 != 0
  mdatBuffer0Enabled    := s &&& 0x0020 != 0
  mdatAutoBufferEnabled := s &&& 0x0010 != 0
  mdatEnabled           := s &&& 0x0008 != 0
  tclkEnabled           := s &&& 0x0004 != 0
  mdatPresent           := s &&& 0x0002 != 0
  tclkPresent           := s &&& 0x0001 != 0

/-- The FIFOEmpty test of DRAIN_ONE_EVENT (R267). -/
def statusSaysEmpty (s : Half) : Bool := s &&& 0x0100 != 0

/-- A status write clears each edge flag whose bit is 1 (R155). -/
def clearEdgeFlags (v : Half) (hw : Hw) : Hw :=
  { hw with
    mdatParityErr := hw.mdatParityErr && !v.getLsbD 14
    fifoUnderflow := hw.fifoUnderflow && !v.getLsbD 12
    fifoOverflow  := hw.fifoOverflow && !v.getLsbD 11
    fifoThreshold := hw.fifoThreshold && !v.getLsbD 9
    tclkParityErr := hw.tclkParityErr && !v.getLsbD 7 }

/-- The occupancy states of the FIFO (R261). -/
inductive Occupancy where
  | empty
  | partlyFilled
  | full
deriving DecidableEq, Repr

/-- The occupancy state of a FIFO of `depth` records holding `n` (R261). -/
def occupancy (depth n : Nat) : Occupancy :=
  if n = 0 then .empty else if n = depth then .full else .partlyFilled

/-- Whether an enqueue that takes the fill from `n0` to `n0 + 1` raises the threshold flag (R307); a threshold of 0
or above the depth raises it as drawn. -/
def thresholdRaised (rule : ThreshRule) (depth threshold n0 : Nat) (drawn : Bool) : Bool :=
  if threshold = 0 ∨ depth < threshold then drawn
  else
    match rule with
    | .crossing => decide (n0 < threshold ∧ threshold ≤ n0 + 1)
    | .atOrAbove => decide (threshold ≤ n0 + 1)

end Sys2Proof.Machine
end

