-- ==== Sys2Proof/Machine/Capture.lean ====
section
/-! DEFINITION. The autonomous hardware of 45_event_capture.md as functions of the hardware state: event capture,
counter reset, the timebase, input changes. Draws come in as arguments. -/

namespace Sys2Proof.Machine

/-- Enqueue a record (R305, R306, R307). -/
def enqueue (cfg : Config) (record : Word) (drawn : Bool) (hw : Hw) : Hw :=
  if hw.fifo.length = cfg.fifoDepth then { hw with fifoOverflow := true }
  else
    { hw with
      fifo := hw.fifo ++ [record]
      fifoThreshold := hw.fifoThreshold ||
        thresholdRaised cfg.threshRule cfg.fifoDepth hw.threshold.toNat hw.fifo.length drawn }

/-- The phase after the FIFO lost its records: a half read in progress now delivers the empty value (R311). -/
def phaseWhenEmptied (p : FifoPhase) : FifoPhase :=
  match p with
  | .highRead => .highReadEmpty
  | .idle => .idle
  | .highReadEmpty => .highReadEmpty

/-- Empty the FIFO (R311). -/
def flushFifo (hw : Hw) : Hw := { hw with fifo := [], fifoPhase := phaseWhenEmptied hw.fifoPhase }

/-- Reset the timestamp counter (R304), and the FIFO with it where the parameter says so (R301, R311). -/
def resetCounter (cfg : Config) (hw : Hw) : Hw :=
  if cfg.clearAlsoFlushes then flushFifo { hw with tsCounter := 0 } else { hw with tsCounter := 0 }

/-- Whether the event is captured (R305); `drawn` is the free capture or the hit of an unknown selector. -/
def captures (cfg : Config) (wrTrigSel : Byte) (m : Byte) (drawn : Bool) : Bool :=
  match cfg.captureRule with
  | .free => drawn
  | .any => true
  | .routed => hits (selLine cfg.selOffset wrTrigSel) m drawn

/-- The draws one TCLK event reads (R301): the hit of an unknown clear selector, the capture, the order of reset
and capture, the threshold flag. -/
structure EventDraws where
  clearHit   : Bool
  capture    : Bool
  resetFirst : Bool
  threshold  : Bool
deriving DecidableEq, Repr

/-- EVT_TCLK on the hardware state while TCLK is enabled (R301 to R309). -/
def captureEvent (cfg : Config) (code : Byte) (d : EventDraws) (hw : Hw) : Hw :=
  let m := routingMask (ttEntry hw.tt code)
  let rst := hits (selLine cfg.selOffset hw.clrTrigSel) m d.clearHit
  let cap := captures cfg hw.wrTrigSel m d.capture
  let hw1 := if rst && d.resetFirst then resetCounter cfg hw else hw
  let hw2 := if cap then enqueue cfg (encodeRecord code hw1.tsCounter) d.threshold hw1 else hw1
  if rst && !d.resetFirst then resetCounter cfg hw2 else hw2

/-- EVT_TICK (R308). -/
def tickCounter (hw : Hw) : Hw := { hw with tsCounter := hw.tsCounter + 1 }

/-- EVT_INPUT (R310); `drawn` is the buffer that automatic switching selects. -/
def changeInputs (tp mp tpe mpe drawn : Bool) (hw : Hw) : Hw :=
  { hw with
    tclkPresent := tp
    mdatPresent := mp
    tclkParityErr := hw.tclkParityErr || tpe
    mdatParityErr := hw.mdatParityErr || mpe
    mdatBufSel := if hw.mdatAutoBufEn then drawn else hw.mdatBufSel }

end Sys2Proof.Machine
end

