-- ==== Sys2Proof/Machine/Ops.lean ====
section
/-! DEFINITION. The named operations every meaning is written over: updates of the state, draws, the steps of the
autonomous agents, the lock, one bus transaction (R151, R153), the confirm-write (R152), and the one way in which a
step ends: with a result, with an error (the block's only "exception", R350 to R357) or refused (R12, R368). -/

namespace Sys2Proof.Machine

/-! ### Draws (R13; logs 4, 5) -/

/-- The `j`-th draw from here: a given value, or an uninterpreted one. -/
def DrawStream.at (d : DrawStream) (j : Nat) : Nat := d.given.getD j (Config.freeValue (d.used + j))

def DrawStream.bool (d : DrawStream) (j : Nat) : Bool := drawnBool (d.at j)

def DrawStream.skip (d : DrawStream) (n : Nat) : DrawStream := { given := d.given.drop n, used := d.used + n }

/-- The outcome of the `j`-th bus transaction from here (R153). -/
def BusStream.at (b : BusStream) (j : Nat) : BusOutcome := b.given.getD j (Config.busOutcome (b.used + j))

def BusStream.next (b : BusStream) : BusStream := { given := b.given.tail, used := b.used + 1 }

/-! ### Updates of the state -/

namespace State

def mapHw (f : Hw → Hw) (s : State) : State := { s with hw := f s.hw }

def skipDraws (n : Nat) (s : State) : State := { s with env := { s.env with draws := s.env.draws.skip n } }

def nextBus (s : State) : State := { s with env := { s.env with bus := s.env.bus.next } }

def setGaps (g : List (List GapStep)) (s : State) : State := { s with env := { s.env with gaps := g } }

def emit (e : HistEvent) (s : State) : State := { s with history := s.history ++ [e] }

/-- Append a transaction to the log (R50, R151). -/
def logTxn (t : Txn) (s : State) : State := { s with host := { s.host with log := s.host.log ++ [t] } }

def setLock (l : Lock) (s : State) : State := { s with host := { s.host with lock := l } }

def setDrv (d : DriverState) (s : State) : State := { s with host := { s.host with drv := d } }

def setCurrent (k : HostContext) (s : State) : State := { s with host := { s.host with current := k } }

/-- Return a result to context `k` (R356, R357; log 9). -/
def returnTo (k : HostContext) (r : Result) (s : State) : State :=
  { s with host := { s.host with returns := s.host.returns ++ [(k, r)] } }

/-- Return a result to the calling context. -/
def giveReturn (r : Result) (s : State) : State := s.returnTo s.host.current r

/-- A refused step: the sticky mark is set, nothing else of the spec's state changes (R12, R151; log 7). -/
def refuseTo (k : HostContext) (r : RefusalReason) (s : State) : State :=
  { s.returnTo k (.refused r) with refused := true }

def markRefused (r : RefusalReason) (s : State) : State := s.refuseTo s.host.current r

/-- Whether task `i` waits for the lock (R331; log 8). -/
def waits (i : Nat) (s : State) : Bool := s.host.blocked.any (·.1 == i)

/-- Task `i` waits for the lock with the operation it called (R331; log 8). -/
def block (i : Nat) (self : Instr) (s : State) : State :=
  { s with host := { s.host with blocked := s.host.blocked.filter (·.1 != i) ++ [(i, self)] } }

/-- Task `i` no longer waits. -/
def unblock (i : Nat) (s : State) : State :=
  { s with host := { s.host with blocked := s.host.blocked.filter (·.1 != i) } }

end State

/-! ### The agents' steps (45_event_capture.md) -/

/-- The draws a TCLK event reads. -/
def eventDraws (d : DrawStream) : EventDraws where
  clearHit   := d.bool 0
  capture    := d.bool 1
  resetFirst := d.bool 2
  threshold  := d.bool 3

/-- EVT_TCLK (R301, R303, R313). -/
def tclkStep (code : Byte) (s : State) : State :=
  if s.hw.tclkEnabled then
    ((s.mapHw (captureEvent s.cfg code (eventDraws s.env.draws))).skipDraws 4).emit
      (.trig code (routingMask (ttEntry s.hw.tt code)))
  else s

/-- EVT_TICK (R308). -/
def tickStep (s : State) : State := s.mapHw tickCounter

/-- EVT_INPUT (R310, R359). -/
def inputStep (tp mp tpe mpe : Bool) (s : State) : State :=
  let t := (s.mapHw (changeInputs tp mp tpe mpe (s.env.draws.bool 0))).skipDraws 2
  if s.env.draws.bool 1 then t.emit .irqMdat else t

/-! ### The lock (46_synchronization.md) -/

/-- LOCK_TASK from task `i` (R331, R334); refused once the driver has failed (R239; log 11). -/
def lockTaskStep (i : Nat) (s : State) : State :=
  if s.host.drv = .failed then s.refuseTo (.task i) .wrongDriverState
  else
    match s.host.lock with
    | .free => (s.setLock (.held (.task i))).returnTo (.task i) .done
    | .held _ => s.block i .lockTask

/-- LOCK_ISR (R332); refused once the driver has failed (R239; log 11). -/
def lockIsrStep (s : State) : State :=
  if s.host.drv = .failed then s.refuseTo .isr .wrongDriverState
  else
    match s.host.lock with
    | .free => (s.setLock (.held .isr)).returnTo .isr .acquired
    | .held _ => s.returnTo .isr .busy

/-- UNLOCK from context `k` (R333). -/
def unlockStep (k : HostContext) (s : State) : State :=
  if s.host.lock = .held k then (s.setLock .free).returnTo k .done else s.refuseTo k .notLockHolder

/-! ### Between two transactions of one operation (R84, R337, R341; log 6) -/

/-- One step of another agent. A task that waits, or the one whose operation it is, has no step of its own; nor has
the interrupt context while an operation of its own runs, for it does not nest (R357). -/
def runGapStep (g : GapStep) (s : State) : State :=
  match g with
  | .tclk code => tclkStep code s
  | .tick => tickStep s
  | .input tp mp tpe mpe => inputStep tp mp tpe mpe s
  | .lockIsr => if s.host.current = .isr then s else lockIsrStep s
  | .lockTask i => if s.host.current = .task i ∨ s.waits i then s else lockTaskStep i s

def runGapSteps : List GapStep → State → State
  | [], s => s
  | g :: gs, s => runGapSteps gs (runGapStep g s)

/-- The next gap: the steps `env.gaps` gives for it, none when it gives none. -/
def runGap (s : State) : State :=
  match s.env.gaps with
  | [] => s
  | gs :: rest => runGapSteps gs (s.setGaps rest)

/-! ### Operations that can stop -/

/-- Why an operation in progress stops: with an error it returns (R350), or refused (R368). -/
inductive Stop where
  | error (e : HostError)
  | refused (r : RefusalReason)
deriving DecidableEq, Repr

/-- A piece of a host operation: it runs on the state and gives a value or stops. -/
abbrev Op (α : Type) := State → Except Stop α × State

def opPure {α : Type} (a : α) : Op α := fun s => (.ok a, s)

def opThen {α β : Type} (m : Op α) (k : α → Op β) : Op β := fun s =>
  match m s with
  | (.ok a, s1) => k a s1
  | (.error e, s1) => (.error e, s1)

def opError {α : Type} (e : HostError) : Op α := fun s => (.error (.error e), s)

/-- A transaction inside an operation: other agents may step before it (log 6). -/
def opGap {α : Type} (m : Op α) : Op α := fun s => m (runGap s)

/-! ### Bus transactions (R151, R153) -/

/-- Admission of a transaction at a mapped offset (R151): inside its window, by the lock's holder. The window is looked
at first: which reason a transaction refused on both counts carries is the model's choice (log 25). -/
def admission (w : Window) (off : Nat) (s : State) : Option RefusalReason :=
  if s.cfg.windowSize w ≤ off then some .outsideWindow
  else if s.host.lock = .held s.host.current then none
  else some .noLock

/-- A transaction with no further condition. -/
def noCondition (_ : State) : Option RefusalReason := none

/-- Every check that can refuse a transaction (R151, R368): window, lock, then the transaction's own condition (a
reserved command word, the order of the half reads). R368 does not rank its reasons; this order is the model's
choice (log 25). -/
def refusal (w : Window) (off : Nat) (cond : State → Option RefusalReason) (s : State) : Option RefusalReason :=
  match admission w off s with
  | some r => some r
  | none => cond s

/-- A read whose failure leaves the hardware alone. -/
def noTrace (_ : BusOutcome) (s : State) : State := s

/-- One bus read transaction (R10, R151, R153): refused without effect; or it succeeds with the effect `eff` and is
logged with its value; or it fails, `trace` says what its effect left, and it is logged without a value. -/
def busRead (key : Word) (w : Window) (off : Nat) (cond : State → Option RefusalReason)
    (eff : State → Half × State) (trace : BusOutcome → State → State) : Op Half := fun s =>
  match refusal w off cond s with
  | some r => (.error (.refused r), s)
  | none =>
    let b := s.env.bus.at 0
    if b.ok then
      let r := eff s.nextBus
      (.ok r.1, r.2.logTxn { key := key, value := some r.1, ok := true })
    else
      (.error (.error .busAccessFailure), (trace b s.nextBus).logTxn { key := key, value := none, ok := false })

/-- One bus write transaction (R10, R151, R153); a failed write took effect or not, as the oracle says. -/
def busWrite (key : Word) (w : Window) (off : Nat) (cond : State → Option RefusalReason) (v : Half)
    (eff : State → State) : Op Unit := fun s =>
  match refusal w off cond s with
  | some r => (.error (.refused r), s)
  | none =>
    let b := s.env.bus.at 0
    if b.ok then (.ok (), (eff s.nextBus).logTxn { key := key, value := some v, ok := true })
    else
      (.error (.error .busAccessFailure),
        (if b.took then eff s.nextBus else s.nextBus).logTxn { key := key, value := some v, ok := false })

/-- A read of a register without side effect (R81). -/
def readReg (key : Word) (w : Window) (off : Nat) (get : Hw → Half) : Op Half :=
  busRead key w off noCondition (fun s => (get s.hw, s)) noTrace

/-- CONFIRM_CHECK (R152; log 18). -/
def confirmCheck (cfg : Config) (w : Window) (off : Nat) (v rb : Half) : Bool :=
  match cfg.confirmRule with
  | .standard => (w == .cs && off == 0x42) || rb == v
  | .other => Config.otherConfirm w off v rb

/-- Confirm-write (R152): the write, the confirm read of the same location, the comparison. -/
def confirmWrite (w : Window) (off : Nat) (v : Half) (wr : Op Unit) (rd : Op Half) : Op Unit :=
  opThen (opGap wr) fun _ =>
  opThen (opGap rd) fun rb => fun s =>
    if confirmCheck s.cfg w off v rb then (.ok (), s) else (.error (.error .busAccessFailure), s)

/-! ### How a step ends (R350 to R357, R368) -/

/-- The end of a transaction the lock's holder issued by itself. -/
def endTxn (r : Except Stop Result × State) : State :=
  match r with
  | (.ok v, s) => s.giveReturn v
  | (.error (.error e), s) => s.giveReturn (.error e)
  | (.error (.refused c), s) => s.markRefused c

/-- A bus transaction as an instruction of its own. -/
def runTxn (op : Op Result) (s : State) : Host.Outcome State Fault Refusal := .next (endTxn (op s))

/-- The end of a host operation that took the lock: it is released on every path, then the result or the error is
returned to the caller (R333, R354, R356; log 13 for a refused transaction within it). -/
def endCall (r : Except Stop Result × State) : State :=
  match r with
  | (.ok v, s) => (s.setLock .free).giveReturn v
  | (.error (.error e), s) => (s.setLock .free).giveReturn (.error e)
  | (.error (.refused c), s) => (s.setLock .free).markRefused c

/-- A public host operation (R336, R355): driver-state admission, then the parameter check, then one acquisition in
task mode (R331) around the body. `self` is the operation, kept while its task waits for the lock. -/
def hostCall (self : Instr) (allowed : State → Option RefusalReason) (paramOk : Bool) (body : Op Result) (s : State) :
    Host.Outcome State Fault Refusal :=
  match s.host.current with
  | .isr => .next (s.markRefused .interruptContext)
  | .task i =>
    match allowed s with
    | some r => .next (s.markRefused r)
    | none =>
      if paramOk then
        match s.host.lock with
        | .free => .next (endCall (body (s.setLock (.held (.task i)))))
        | .held _ => .next (s.block i self)
      else .next (s.giveReturn (.error .invalidParameter))

/-- The operations admitted only in Collecting (R241). -/
def onlyCollecting (s : State) : Option RefusalReason :=
  if s.host.drv = .collecting then none else some .wrongDriverState

/-- CONSTRUCT is admitted only in Uninitialized (R231, R241). -/
def onlyUninitialized (s : State) : Option RefusalReason :=
  if s.host.drv = .uninitialized then none else some .notUninitialized

/-- The end of a construction sub-step: the transition of R230, or Failed with the lock released (R231, R240). -/
def endSubStep (next : DriverState) (r : Except Stop Unit × State) : State :=
  match r with
  | (.ok _, s) => (s.setDrv next).giveReturn .done
  | (.error (.error e), s) => ((s.setDrv .failed).setLock .free).giveReturn (.error e)
  | (.error (.refused c), s) => ((s.setDrv .failed).setLock .free).markRefused c

/-- A construction sub-step as an instruction of its own (R230, R241): inside CONSTRUCT only, that is in the driver
state `at_` and with the lock held by the calling task (log 12). -/
def subStep (at_ next : DriverState) (body : Op Unit) (s : State) : Host.Outcome State Fault Refusal :=
  match s.host.current with
  | .isr => .next (s.markRefused .interruptContext)
  | .task _ =>
    if s.host.drv = at_ then
      if s.host.lock = .held s.host.current then .next (endSubStep next (body s)) else .next (s.markRefused .noLock)
    else .next (s.markRefused .wrongDriverState)

/-- A pure operation (R241, R336): no lock, no transaction, admitted in every driver state. -/
def pureCall (r : Result) (s : State) : Host.Outcome State Fault Refusal := .next (s.giveReturn r)

end Sys2Proof.Machine
end

