-- ==== Sys2Proof/Machine/Codec.lean ====
section
/-! DEFINITION. The record codec family (40_record_codec.md, R117): pure, no state of the block read or written;
the result goes to the caller. -/

namespace Sys2Proof.Machine

/-- DECODE (R130). -/
def execDecodeRec (raw : Word) (s : State) : Host.Outcome State Fault Refusal := pureCall (recordResult raw) s

/-- ENCODE (R132). -/
def execEncodeRec (code : Byte) (ts : Stamp) (s : State) : Host.Outcome State Fault Refusal :=
  pureCall (.word (encodeRecord code ts)) s

/-- VALID (R131). -/
def execValidRec (raw : Word) (s : State) : Host.Outcome State Fault Refusal := pureCall (.truth (validRecord raw)) s

/-- REC_EMPTY: the codec classifies the sentinel (R117, R130). -/
def execRecEmpty (s : State) : Host.Outcome State Fault Refusal := pureCall (recordResult Config.sentinel) s

/-- REC_EVENT: the codec classifies a record word (R103, R117, R130). -/
def execRecEvent (ts : Stamp) (code : Byte) (s : State) : Host.Outcome State Fault Refusal :=
  pureCall (recordResult (recordWord ts code)) s

/-- DECODE_STATUS (R260). -/
def execDecodeStatus (w : Half) (s : State) : Host.Outcome State Fault Refusal := pureCall (.flags (statusFlags w)) s

end Sys2Proof.Machine
end

