-- ==== Sys2Proof/Machine/Registers.lean ====
section
/-! DEFINITION. The control/status window's register transactions (41_register_facade.md R154 to R178), except the
control register's write (Commands.lean). Each is one bus transaction; the `exec` definitions issue it alone. -/

namespace Sys2Proof.Machine

/-- The value of a byte register as a bus word. -/
def byteValue (b : Byte) : Half := b.setWidth 16

/-- A read value or a completed write, as the step's result. -/
def asWord (op : Op Half) : Op Result := opThen op fun v => opPure (.word (v.setWidth 32))

def asDone (op : Op Unit) : Op Result := opThen op fun _ => opPure .done

/-! ### Effects -/

/-- R163: the MDAT state fields become draws. -/
def redrawMdat (s : State) : State :=
  (s.mapHw fun hw =>
    { hw with
      mdatBufSel    := s.env.draws.bool 0
      mdatBuf0En    := s.env.draws.bool 1
      mdatBuf1En    := s.env.draws.bool 2
      mdatAutoBufEn := s.env.draws.bool 3
      mdatEnabled   := s.env.draws.bool 4 }).skipDraws 5

/-- R164: the timestamp counter becomes a draw. -/
def redrawCounter (s : State) : State :=
  (s.mapHw fun hw => { hw with tsCounter := BitVec.ofNat 24 (s.env.draws.at 0) }).skipDraws 1

/-- R156: the status word, and the clearing by the read where the parameter says so. -/
def statusRead (s : State) : Half × State :=
  let w := statusWord s.cfg.fifoDepth s.hw (s.env.draws.bool 0)
  let t := s.skipDraws 1
  (w, if s.cfg.statusClearOnRead then t.mapHw (clearEdgeFlags w) else t)

/-- A failed status read may have cleared the flags (R153, R156). -/
def statusTrace (b : BusOutcome) (s : State) : State := if b.took then (statusRead s).2 else s

/-- R176: the threshold, and the threshold flag as drawn. -/
def writeThreshold (v : Half) (s : State) : State :=
  (s.mapHw fun hw =>
    { hw with threshold := v, fifoThreshold := hw.fifoThreshold || s.env.draws.bool 0 }).skipDraws 1

/-! ### Transactions -/

def txnRdCtrl : Op Half := readReg 0x10000040 .cs 0x40 (·.ctrl)

def txnRdStatus : Op Half := busRead 0x10000042 .cs 0x42 noCondition statusRead statusTrace

def txnWrStatus (v : Half) : Op Unit :=
  busWrite 0x50000042 .cs 0x42 noCondition v (State.mapHw (clearEdgeFlags v))

def txnRdMdatItype : Op Half := readReg 0x00000044 .cs 0x44 fun hw => byteValue hw.mdatIntType

def txnWrMdatItype (v : Byte) : Op Unit :=
  busWrite 0x40000044 .cs 0x44 noCondition (byteValue v) fun s =>
    redrawMdat (s.mapHw fun hw => { hw with mdatIntType := v })

def txnRdMdatBufsw : Op Half := readReg 0x00000045 .cs 0x45 fun hw => byteValue hw.mdatBufSwitch

def txnWrMdatBufsw (v : Byte) : Op Unit :=
  busWrite 0x40000045 .cs 0x45 noCondition (byteValue v) fun s =>
    redrawMdat (s.mapHw fun hw => { hw with mdatBufSwitch := v })

def txnRdW44 : Op Half :=
  busRead 0x10000044 .cs 0x44 noCondition
    (fun s => (joinBytes s.cfg.byteOrder s.hw.mdatIntType s.hw.mdatBufSwitch, s)) noTrace

def txnWrW44 (v : Half) : Op Unit :=
  busWrite 0x50000044 .cs 0x44 noCondition v fun s =>
    redrawMdat (s.mapHw fun hw =>
      { hw with mdatIntType := evenByte s.cfg.byteOrder v, mdatBufSwitch := oddByte s.cfg.byteOrder v })

def txnRdTsrstLo : Op Half := readReg 0x10000046 .cs 0x46 (·.tsResetLo)

def txnWrTsrstLo (v : Half) : Op Unit :=
  busWrite 0x50000046 .cs 0x46 noCondition v fun s => redrawCounter (s.mapHw fun hw => { hw with tsResetLo := v })

def txnRdTsrstHi : Op Half := readReg 0x10000048 .cs 0x48 (·.tsResetHi)

def txnWrTsrstHi (v : Half) : Op Unit :=
  busWrite 0x50000048 .cs 0x48 noCondition v fun s => redrawCounter (s.mapHw fun hw => { hw with tsResetHi := v })

def txnRdWrtrig : Op Half := readReg 0x0000004A .cs 0x4A fun hw => byteValue hw.wrTrigSel

def txnWrWrtrig (v : Byte) : Op Unit :=
  busWrite 0x4000004A .cs 0x4A noCondition (byteValue v) (State.mapHw fun hw => { hw with wrTrigSel := v })

def txnRdClrtrig : Op Half := readReg 0x0000004B .cs 0x4B fun hw => byteValue hw.clrTrigSel

def txnWrClrtrig (v : Byte) : Op Unit :=
  busWrite 0x4000004B .cs 0x4B noCondition (byteValue v) (State.mapHw fun hw => { hw with clrTrigSel := v })

def txnRdW4a : Op Half :=
  busRead 0x1000004A .cs 0x4A noCondition
    (fun s => (joinBytes s.cfg.byteOrder s.hw.wrTrigSel s.hw.clrTrigSel, s)) noTrace

def txnWrW4a (v : Half) : Op Unit :=
  busWrite 0x5000004A .cs 0x4A noCondition v fun s =>
    s.mapHw fun hw => { hw with wrTrigSel := evenByte s.cfg.byteOrder v, clrTrigSel := oddByte s.cfg.byteOrder v }

def txnRdThresh : Op Half := readReg 0x1000004C .cs 0x4C (·.threshold)

def txnWrThresh (v : Half) : Op Unit := busWrite 0x5000004C .cs 0x4C noCondition v (writeThreshold v)

def txnRdIdHi : Op Half := readReg 0x00000089 .cs 0x89 fun hw => byteValue hw.idHi

def txnRdIdLo : Op Half := readReg 0x0000008B .cs 0x8B fun hw => byteValue hw.idLo

/-! ### Instructions -/

/-- RD_CTRL (R154). -/
def execRdCtrl (s : State) : Host.Outcome State Fault Refusal := runTxn (asWord txnRdCtrl) s

/-- RD_STATUS (R156). -/
def execRdStatus (s : State) : Host.Outcome State Fault Refusal := runTxn (asWord txnRdStatus) s

/-- WR_STATUS (R155). -/
def execWrStatus (v : Half) (s : State) : Host.Outcome State Fault Refusal := runTxn (asDone (txnWrStatus v)) s

/-- RD_MDAT_ITYPE (R157). -/
def execRdMdatItype (s : State) : Host.Outcome State Fault Refusal := runTxn (asWord txnRdMdatItype) s

/-- WR_MDAT_ITYPE (R158, R163). -/
def execWrMdatItype (v : Byte) (s : State) : Host.Outcome State Fault Refusal := runTxn (asDone (txnWrMdatItype v)) s

/-- RD_MDAT_BUFSW (R159). -/
def execRdMdatBufsw (s : State) : Host.Outcome State Fault Refusal := runTxn (asWord txnRdMdatBufsw) s

/-- WR_MDAT_BUFSW (R160, R163). -/
def execWrMdatBufsw (v : Byte) (s : State) : Host.Outcome State Fault Refusal := runTxn (asDone (txnWrMdatBufsw v)) s

/-- RD_W44 (R161). -/
def execRdW44 (s : State) : Host.Outcome State Fault Refusal := runTxn (asWord txnRdW44) s

/-- WR_W44 (R162, R163). -/
def execWrW44 (v : Half) (s : State) : Host.Outcome State Fault Refusal := runTxn (asDone (txnWrW44 v)) s

/-- RD_TSRST_LO (R165). -/
def execRdTsrstLo (s : State) : Host.Outcome State Fault Refusal := runTxn (asWord txnRdTsrstLo) s

/-- WR_TSRST_LO (R166, R164). -/
def execWrTsrstLo (v : Half) (s : State) : Host.Outcome State Fault Refusal := runTxn (asDone (txnWrTsrstLo v)) s

/-- RD_TSRST_HI (R167). -/
def execRdTsrstHi (s : State) : Host.Outcome State Fault Refusal := runTxn (asWord txnRdTsrstHi) s

/-- WR_TSRST_HI (R168, R164). -/
def execWrTsrstHi (v : Half) (s : State) : Host.Outcome State Fault Refusal := runTxn (asDone (txnWrTsrstHi v)) s

/-- RD_WRTRIG (R169). -/
def execRdWrtrig (s : State) : Host.Outcome State Fault Refusal := runTxn (asWord txnRdWrtrig) s

/-- WR_WRTRIG (R170). -/
def execWrWrtrig (v : Byte) (s : State) : Host.Outcome State Fault Refusal := runTxn (asDone (txnWrWrtrig v)) s

/-- RD_CLRTRIG (R171). -/
def execRdClrtrig (s : State) : Host.Outcome State Fault Refusal := runTxn (asWord txnRdClrtrig) s

/-- WR_CLRTRIG (R172). -/
def execWrClrtrig (v : Byte) (s : State) : Host.Outcome State Fault Refusal := runTxn (asDone (txnWrClrtrig v)) s

/-- RD_W4A (R173). -/
def execRdW4a (s : State) : Host.Outcome State Fault Refusal := runTxn (asWord txnRdW4a) s

/-- WR_W4A (R174). -/
def execWrW4a (v : Half) (s : State) : Host.Outcome State Fault Refusal := runTxn (asDone (txnWrW4a v)) s

/-- RD_THRESH (R175). -/
def execRdThresh (s : State) : Host.Outcome State Fault Refusal := runTxn (asWord txnRdThresh) s

/-- WR_THRESH (R176). -/
def execWrThresh (v : Half) (s : State) : Host.Outcome State Fault Refusal := runTxn (asDone (txnWrThresh v)) s

/-- RD_ID_HI (R177). -/
def execRdIdHi (s : State) : Host.Outcome State Fault Refusal := runTxn (asWord txnRdIdHi) s

/-- RD_ID_LO (R178). -/
def execRdIdLo (s : State) : Host.Outcome State Fault Refusal := runTxn (asWord txnRdIdLo) s

end Sys2Proof.Machine
end

