-- ==== Sys2Proof/Machine/Commands.lean ====
section
/-! DEFINITION. The control register's write and the eleven control commands (41_register_facade.md R185 to R196). -/

namespace Sys2Proof.Machine

/-- The control commands (R104). -/
inductive Command where
  | noOp
  | enableTclk
  | disableTclk
  | enableMdat
  | disableMdat
  | mdatBuf0
  | mdatBuf1
  | enableMdatBufAuto
  | disableMdatBufAuto
  | swInterrupt
  | swReset
deriving DecidableEq, Repr

/-- The command of a word (R104); none for a reserved word (R105). -/
def commandOf (v : Half) : Option Command :=
  if v = 0x0000 then some .noOp
  else if v = 0x0001 then some .enableTclk
  else if v = 0x0002 then some .disableTclk
  else if v = 0x0003 then some .enableMdat
  else if v = 0x0004 then some .disableMdat
  else if v = 0x0005 then some .mdatBuf0
  else if v = 0x0006 then some .mdatBuf1
  else if v = 0x0007 then some .enableMdatBufAuto
  else if v = 0x0008 then some .disableMdatBufAuto
  else if v = 0x0009 then some .swInterrupt
  else if v = 0x00FF then some .swReset
  else none

/-- R191 and R192: the MDAT buffer fields become draws. -/
def redrawBuffers (s : State) : State :=
  (s.mapHw fun hw =>
    { hw with
      mdatBufSel := s.env.draws.bool 0
      mdatBuf0En := s.env.draws.bool 1
      mdatBuf1En := s.env.draws.bool 2 }).skipDraws 3

/-- R61, R196: every hardware field but the identification bytes, the control register and the FIFO phase becomes a
fresh draw; the host is not changed. -/
def softwareReset (s : State) : State :=
  (s.mapHw fun hw =>
    { Hw.drawn s.cfg.fifoDepth hw.idHi hw.idLo s.env.draws.at with ctrl := 0x00FF }).skipDraws
      (Hw.drawnCount s.cfg.fifoDepth)

/-- What a command does beyond being stored in the control register (R186 to R196). -/
def performCommand : Command → State → State
  | .noOp, s => s
  | .enableTclk, s => s.mapHw fun hw => { hw with tclkEnabled := true }
  | .disableTclk, s => s.mapHw fun hw => { hw with tclkEnabled := false }
  | .enableMdat, s => s.mapHw fun hw => { hw with mdatEnabled := true }
  | .disableMdat, s => s.mapHw fun hw => { hw with mdatEnabled := false }
  | .mdatBuf0, s => redrawBuffers s
  | .mdatBuf1, s => redrawBuffers s
  | .enableMdatBufAuto, s => s.mapHw fun hw => { hw with mdatAutoBufEn := true }
  | .disableMdatBufAuto, s => s.mapHw fun hw => { hw with mdatAutoBufEn := false }
  | .swInterrupt, s => s.emit .irqSoftware
  | .swReset, s => softwareReset s

/-- The effect of a control write (R37, R185): the word is stored and its command performed. -/
def controlEffect (v : Half) (s : State) : State :=
  match commandOf v with
  | some c => performCommand c (s.mapHw fun hw => { hw with ctrl := v })
  | none => s

/-- R105, R185: a reserved command word is refused; without the lock the reason is the lock (log 25). -/
def commandCondition (v : Half) (_ : State) : Option RefusalReason :=
  match commandOf v with
  | some _ => none
  | none => some .reservedCommand

/-- The control register's write transaction (R185). -/
def txnWrCtrl (v : Half) : Op Unit := busWrite 0x50000040 .cs 0x40 (commandCondition v) v (controlEffect v)

/-- WR_CTRL (R185). -/
def execWrCtrl (v : Half) (s : State) : Host.Outcome State Fault Refusal := runTxn (asDone (txnWrCtrl v)) s

/-- NoOp (R186): the write of its word (log 15), as for every command below. -/
def execNoOp (s : State) : Host.Outcome State Fault Refusal := runTxn (asDone (txnWrCtrl 0x0000)) s

/-- EnableTCLK (R187). -/
def execEnableTclk (s : State) : Host.Outcome State Fault Refusal := runTxn (asDone (txnWrCtrl 0x0001)) s

/-- DisableTCLK (R188). -/
def execDisableTclk (s : State) : Host.Outcome State Fault Refusal := runTxn (asDone (txnWrCtrl 0x0002)) s

/-- EnableMDAT (R189). -/
def execEnableMdat (s : State) : Host.Outcome State Fault Refusal := runTxn (asDone (txnWrCtrl 0x0003)) s

/-- DisableMDAT (R190). -/
def execDisableMdat (s : State) : Host.Outcome State Fault Refusal := runTxn (asDone (txnWrCtrl 0x0004)) s

/-- MDAT_Buf0 (R191). -/
def execMdatBuf0 (s : State) : Host.Outcome State Fault Refusal := runTxn (asDone (txnWrCtrl 0x0005)) s

/-- MDAT_Buf1 (R192). -/
def execMdatBuf1 (s : State) : Host.Outcome State Fault Refusal := runTxn (asDone (txnWrCtrl 0x0006)) s

/-- EnableMDAT_BufAuto (R193). -/
def execEnableMdatBufAuto (s : State) : Host.Outcome State Fault Refusal := runTxn (asDone (txnWrCtrl 0x0007)) s

/-- DisableMDAT_BufAuto (R194). -/
def execDisableMdatBufAuto (s : State) : Host.Outcome State Fault Refusal := runTxn (asDone (txnWrCtrl 0x0008)) s

/-- SW_Interrupt (R195). -/
def execSwInterrupt (s : State) : Host.Outcome State Fault Refusal := runTxn (asDone (txnWrCtrl 0x0009)) s

/-- SW_Reset (R196). -/
def execSwReset (s : State) : Host.Outcome State Fault Refusal := runTxn (asDone (txnWrCtrl 0x00FF)) s

end Sys2Proof.Machine
end

