-- ==== Sys2Proof/Machine/EventWindow.lean ====
section
/-! DEFINITION. The event window's transactions: the trigger table (41_register_facade.md R179, R180) and the FIFO
data register's half reads and paired read (R181 to R184). -/

namespace Sys2Proof.Machine

/-! ### Trigger table -/

def txnRdTt (c : Byte) : Op Half :=
  busRead (rdTtKey c) .ev (ttOffset c) noCondition
    (fun s =>
      if s.cfg.ttHighBitsStored then (ttEntry s.hw.tt c, s)
      else (readEntry false (ttEntry s.hw.tt c) (BitVec.ofNat 8 (s.env.draws.at 0)), s.skipDraws 1))
    noTrace

def txnWrTt (c : Byte) (v : Half) : Op Unit :=
  busWrite (wrTtKey c) .ev (ttOffset c) noCondition v fun s =>
    s.mapHw fun hw =>
      { hw with tt := ttReplace hw.tt c (storedEntry s.cfg.ttHighBitsStored (ttEntry hw.tt c) v) }

/-- RD_TT (R179). -/
def execRdTt (c : Byte) (s : State) : Host.Outcome State Fault Refusal := runTxn (asWord (txnRdTt c)) s

/-- WR_TT (R180). -/
def execWrTt (c : Byte) (v : Half) (s : State) : Host.Outcome State Fault Refusal := runTxn (asDone (txnWrTt c v)) s

/-! ### FIFO data register -/

/-- R181: a high half read needs the phase Idle. -/
def highCondition (s : State) : Option RefusalReason :=
  if s.hw.fifoPhase = .idle then none else some .fifoHalfOrder

/-- R182: a low half read needs the high half to have been read. -/
def lowCondition (s : State) : Option RefusalReason :=
  if s.hw.fifoPhase = .idle then some .fifoHalfOrder else none

/-- The high half read (R181); of the empty FIFO (R184). -/
def readHigh (s : State) : Half × State :=
  match s.hw.fifo with
  | [] => (highHalf s.cfg.emptyReadValue, s.mapHw fun hw => { hw with fifoUnderflow := true, fifoPhase := .highReadEmpty })
  | r :: _ => (highHalf r, s.mapHw fun hw => { hw with fifoPhase := .highRead })

/-- The low half read (R182, R184). A low half due from a FIFO that holds no record, which a failed half read that lost
the record leaves, reads as a draw (log 16). -/
def readLow (s : State) : Half × State :=
  match s.hw.fifoPhase, s.hw.fifo with
  | .highRead, r :: rest => (lowHalf r, s.mapHw fun hw => { hw with fifo := rest, fifoPhase := .idle })
  | .highRead, [] =>
    (BitVec.ofNat 16 (s.env.draws.at 0), (s.mapHw fun hw => { hw with fifoPhase := .idle }).skipDraws 1)
  | _, _ => (lowHalf s.cfg.emptyReadValue, s.mapHw fun hw => { hw with fifoPhase := .idle })

/-- The records a failed half read leaves: the head may be lost (R153, R395). -/
def lossyFifo (b : BusOutcome) (fifo : List Word) : List Word := if b.popped then fifo.tail else fifo

/-- What a failed high half read left (R153, R184, R395, R396; log 5): the head lost or kept, the phase advanced or not,
and of the empty FIFO the underflow flag raised or not, each a draw of its own. -/
def highTrace (b : BusOutcome) (s : State) : State :=
  s.mapHw fun hw =>
    { hw with
      fifo          := lossyFifo b hw.fifo
      fifoPhase     := if b.took then (if hw.fifo = [] then .highReadEmpty else .highRead) else hw.fifoPhase
      fifoUnderflow := hw.fifoUnderflow || (b.flagged && fifoIsEmpty hw) }

/-- What a failed low half read left (R153, R395, R396; log 5): the head lost or kept, the phase Idle or as it was. -/
def lowTrace (b : BusOutcome) (s : State) : State :=
  s.mapHw fun hw =>
    { hw with
      fifo      := lossyFifo b hw.fifo
      fifoPhase := if b.took then .idle else hw.fifoPhase }

def txnRdFifoHi : Op Half := busRead 0x90001200 .ev 0x1200 highCondition readHigh highTrace

def txnRdFifoLo : Op Half := busRead 0x90001202 .ev 0x1202 lowCondition readLow lowTrace

/-- The paired read (R183, R118): high half, low half, joined. -/
def pairedRead : Op Word :=
  opThen txnRdFifoHi fun hi => opThen (opGap txnRdFifoLo) fun lo => opPure (joinHalves hi lo)

/-- RD_FIFO_HI (R181). -/
def execRdFifoHi (s : State) : Host.Outcome State Fault Refusal := runTxn (asWord txnRdFifoHi) s

/-- RD_FIFO_LO (R182). -/
def execRdFifoLo (s : State) : Host.Outcome State Fault Refusal := runTxn (asWord txnRdFifoLo) s

/-- RD_FIFO32 (R183). -/
def execRdFifo32 (s : State) : Host.Outcome State Fault Refusal :=
  runTxn (opThen pairedRead fun raw => opPure (.word raw)) s

end Sys2Proof.Machine
end

