-- ==== Sys2Proof/Machine/TriggerTable.lean ====
section
/-! DEFINITION. The host operations on the trigger table (42_trigger_table.md). -/

namespace Sys2Proof.Machine

/-- R202: a routing operation's trigger bit is 0..7. -/
def routingBitOk (b : Byte) : Bool := decide (b.toNat ≤ 7)

/-- The confirmed write of entry `c` (R203, R205). -/
def confirmTt (c : Byte) (v : Half) : Op Unit := confirmWrite .ev (ttOffset c) v (txnWrTt c v) (txnRdTt c)

/-- R203: read, change one bit, write back with confirm. -/
def setTriggerBody (code b : Byte) (enabled : Bool) : Op Result :=
  opThen (opGap (txnRdTt code)) fun m =>
  opThen (confirmTt code (withTriggerBit m b enabled)) fun _ => opPure .done

/-- R204. -/
def getTriggerBody (code b : Byte) : Op Result :=
  opThen (opGap (txnRdTt code)) fun m => opPure (.truth (triggerBit m b))

/-- The 256 event codes, ascending (R205). -/
def allCodes : List Byte := (List.range 256).map (BitVec.ofNat 8)

/-- R205: each entry cleared by its own confirmed write, stopping at the first failure. -/
def clearEntries : List Byte → Op Unit
  | [] => opPure ()
  | c :: cs => opThen (confirmTt c 0x0000) fun _ => clearEntries cs

/-- CLEAR_TRIGGER_TABLE's transactions (R205). -/
def clearTable : Op Unit := clearEntries allCodes

/-- SET_TRIGGER (R202, R203). -/
def execSetTrigger (code b : Byte) (enabled : Bool) (s : State) : Host.Outcome State Fault Refusal :=
  hostCall (.setTrigger code b enabled) onlyCollecting (routingBitOk b) (setTriggerBody code b enabled) s

/-- GET_TRIGGER (R202, R204). -/
def execGetTrigger (code b : Byte) (s : State) : Host.Outcome State Fault Refusal :=
  hostCall (.getTrigger code b) onlyCollecting (routingBitOk b) (getTriggerBody code b) s

/-- CLEAR_TRIGGER_TABLE (R205), inside CONSTRUCT only (R241). -/
def execClearTriggerTable (s : State) : Host.Outcome State Fault Refusal :=
  subStep .configuringTriggers .configuringTriggers clearTable s

end Sys2Proof.Machine
end

