-- ==== Sys2Proof/Machine/Sequencer.lean ====
section
/-! DEFINITION. The construction sequence (43_sequencer.md): CONSTRUCT and its four sub-steps. -/

namespace Sys2Proof.Machine

/-- R232, R233: both identification bytes, high first, then the comparison. -/
def probeBody : Op Unit :=
  opThen (opGap txnRdIdHi) fun hi =>
  opThen (opGap txnRdIdLo) fun lo =>
  if moduleIdOf (hi.setWidth 8) (lo.setWidth 8) = Config.moduleId then opPure () else opError .deviceNotFound

/-- A confirmed write of the control register (R152, R185). -/
def confirmCtrl (v : Half) : Op Unit := confirmWrite .cs 0x40 v (txnWrCtrl v) txnRdCtrl

/-- R235. -/
def resetBody : Op Unit := confirmCtrl 0x00FF

/-- A confirmed write of the write-trigger selector (R236, R264). -/
def confirmWrtrig (v : Byte) : Op Unit := confirmWrite .cs 0x4A (byteValue v) (txnWrWrtrig v) txnRdWrtrig

/-- A confirmed write of the clear-trigger selector (R236, R263). -/
def confirmClrtrig (v : Byte) : Op Unit := confirmWrite .cs 0x4B (byteValue v) (txnWrClrtrig v) txnRdClrtrig

/-- R236: both selectors neutral, then the table. -/
def configureBody : Op Unit :=
  opThen (confirmWrtrig 0x00) fun _ => opThen (confirmClrtrig 0x00) fun _ => clearTable

/-- R240: `tclkEnabled` becomes a draw. -/
def redrawTclk (s : State) : State :=
  (s.mapHw fun hw => { hw with tclkEnabled := s.env.draws.bool 0 }).skipDraws 1

/-- R238: EnableTCLK. Where its write or its confirm fails, `tclkEnabled` is a draw (R240). -/
def startBody : Op Unit := fun s =>
  match confirmCtrl 0x0001 s with
  | (.ok a, t) => (.ok a, t)
  | (.error (.error e), t) => (.error (.error e), redrawTclk t)
  | (.error (.refused r), t) => (.error (.refused r), t)

/-- Enter a driver state (R230, R231). -/
def enterState (d : DriverState) : Op Unit := fun s => (.ok (), s.setDrv d)

/-- R231: the steps in order. -/
def constructSteps : Op Result :=
  opThen (enterState .probing) fun _ =>
  opThen probeBody fun _ =>
  opThen (enterState .resetting) fun _ =>
  opThen resetBody fun _ =>
  opThen (enterState .configuringTriggers) fun _ =>
  opThen configureBody fun _ =>
  opThen startBody fun _ =>
  opThen (enterState .collecting) fun _ => opPure .done

/-- R231, R240: any stop leaves the driver Failed. -/
def constructBody : Op Result := fun s =>
  match constructSteps s with
  | (.ok v, t) => (.ok v, t)
  | (.error e, t) => (.error e, t.setDrv .failed)

/-- CONSTRUCT (R231). -/
def execConstruct (s : State) : Host.Outcome State Fault Refusal :=
  hostCall .construct onlyUninitialized true constructBody s

/-- PROBE (R232 to R234). -/
def execProbe (s : State) : Host.Outcome State Fault Refusal := subStep .probing .resetting probeBody s

/-- RESET (R235). -/
def execResetModule (s : State) : Host.Outcome State Fault Refusal :=
  subStep .resetting .configuringTriggers resetBody s

/-- CONFIGURE_TRIGGERS (R236). -/
def execConfigureTriggers (s : State) : Host.Outcome State Fault Refusal :=
  subStep .configuringTriggers .configuringTriggers configureBody s

/-- START_COLLECTING (R238). -/
def execStartCollecting (s : State) : Host.Outcome State Fault Refusal :=
  subStep .configuringTriggers .collecting startBody s

end Sys2Proof.Machine
end

