-- ==== Sys2Proof/Machine/FifoStatus.lean ====
section
/-! DEFINITION. The host operations of 44_fifo_status.md that use the bus: selectors, threshold, status, drain. -/

namespace Sys2Proof.Machine

/-- R263, R264: a selector operation's trigger line is 1..7. -/
def selectorLineOk (t : Byte) : Bool := decide (1 ≤ t.toNat ∧ t.toNat ≤ 7)

/-- R265: the only invalid level is 0. -/
def levelOk (level : Byte) : Bool := level != 0

/-- R263. -/
def setResetTimestampBody (t : Byte) : Op Result := fun s =>
  asDone (confirmClrtrig (selectorRaw s.cfg.selOffset t)) s

/-- R264. -/
def setWriteTriggerBody (t : Byte) : Op Result := fun s =>
  asDone (confirmWrtrig (selectorRaw s.cfg.selOffset t)) s

/-- R265. -/
def setFifoThresholdBody (level : Byte) : Op Result :=
  asDone (confirmWrite .cs 0x4C (byteValue level) (txnWrThresh (byteValue level)) txnRdThresh)

/-- R266: the snapshot, the write-back that clears its edge flags, the confirm read that is not compared. -/
def readStatusBody : Op Result :=
  opThen (opGap txnRdStatus) fun w =>
  opThen (confirmWrite .cs 0x42 w (txnWrStatus w) txnRdStatus) fun _ => opPure (.flags (statusFlags w))

/-- R267: the empty check, then the paired read and its decoding. -/
def drainBody : Op Result :=
  opThen (opGap txnRdStatus) fun w =>
  if statusSaysEmpty w then opPure .empty
  else opThen (opGap pairedRead) fun raw => opPure (recordResult raw)

/-- SET_RESET_TIMESTAMP_TRIGGER (R263). -/
def execSetResetTimestampTrigger (t : Byte) (s : State) : Host.Outcome State Fault Refusal :=
  hostCall (.setResetTimestampTrigger t) onlyCollecting (selectorLineOk t) (setResetTimestampBody t) s

/-- SET_WRITE_TRIGGER (R264). -/
def execSetWriteTrigger (t : Byte) (s : State) : Host.Outcome State Fault Refusal :=
  hostCall (.setWriteTrigger t) onlyCollecting (selectorLineOk t) (setWriteTriggerBody t) s

/-- SET_FIFO_THRESHOLD (R265). -/
def execSetFifoThreshold (level : Byte) (s : State) : Host.Outcome State Fault Refusal :=
  hostCall (.setFifoThreshold level) onlyCollecting (levelOk level) (setFifoThresholdBody level) s

/-- READ_STATUS (R266). -/
def execReadStatus (s : State) : Host.Outcome State Fault Refusal :=
  hostCall .readStatus onlyCollecting true readStatusBody s

/-- DRAIN_ONE_EVENT (R267). -/
def execDrainOneEvent (s : State) : Host.Outcome State Fault Refusal :=
  hostCall .drainOneEvent onlyCollecting true drainBody s

end Sys2Proof.Machine
end

