-- ==== Sys2Proof/Machine/LockAgents.lean ====
section
/-! DEFINITION. The lock operations (46_synchronization.md) and the autonomous hardware steps
(45_event_capture.md) as instructions. -/

namespace Sys2Proof.Machine

/-- LOCK_TASK (R331, R334); the interrupt context has no task mode (R14, R332; log 10). -/
def execLockTask (s : State) : Host.Outcome State Fault Refusal :=
  match s.host.current with
  | .isr => .next (s.markRefused .interruptContext)
  | .task i => .next (lockTaskStep i s)

/-- LOCK_ISR, always from the interrupt context (R332; log 10). -/
def execLockIsr (s : State) : Host.Outcome State Fault Refusal := .next (lockIsrStep s)

/-- UNLOCK (R333). -/
def execUnlock (s : State) : Host.Outcome State Fault Refusal := .next (unlockStep s.host.current s)

/-- EVT_TCLK (R301). -/
def execEvtTclk (code : Byte) (s : State) : Host.Outcome State Fault Refusal := .next (tclkStep code s)

/-- EVT_TICK (R308). -/
def execEvtTick (s : State) : Host.Outcome State Fault Refusal := .next (tickStep s)

/-- EVT_INPUT (R310). -/
def execEvtInput (tp mp tpe mpe : Bool) (s : State) : Host.Outcome State Fault Refusal :=
  .next (inputStep tp mp tpe mpe s)

end Sys2Proof.Machine
end

