-- ==== Sys2Proof/Machine/Dispatch.lean ====
section
/-! DEFINITION. The dispatch: one arm per instruction, each one call of its meaning. -/

namespace Sys2Proof.Machine

def exec (i : Instr) (s : State) : Host.Outcome State Fault Refusal :=
  match i with
  | .rdCtrl => Sys2Proof.Machine.execRdCtrl s
  | .wrCtrl v => Sys2Proof.Machine.execWrCtrl v s
  | .rdStatus => Sys2Proof.Machine.execRdStatus s
  | .wrStatus v => Sys2Proof.Machine.execWrStatus v s
  | .rdMdatItype => Sys2Proof.Machine.execRdMdatItype s
  | .wrMdatItype v => Sys2Proof.Machine.execWrMdatItype v s
  | .rdMdatBufsw => Sys2Proof.Machine.execRdMdatBufsw s
  | .wrMdatBufsw v => Sys2Proof.Machine.execWrMdatBufsw v s
  | .rdW44 => Sys2Proof.Machine.execRdW44 s
  | .wrW44 v => Sys2Proof.Machine.execWrW44 v s
  | .rdTsrstLo => Sys2Proof.Machine.execRdTsrstLo s
  | .wrTsrstLo v => Sys2Proof.Machine.execWrTsrstLo v s
  | .rdTsrstHi => Sys2Proof.Machine.execRdTsrstHi s
  | .wrTsrstHi v => Sys2Proof.Machine.execWrTsrstHi v s
  | .rdWrtrig => Sys2Proof.Machine.execRdWrtrig s
  | .wrWrtrig v => Sys2Proof.Machine.execWrWrtrig v s
  | .rdClrtrig => Sys2Proof.Machine.execRdClrtrig s
  | .wrClrtrig v => Sys2Proof.Machine.execWrClrtrig v s
  | .rdW4a => Sys2Proof.Machine.execRdW4a s
  | .wrW4a v => Sys2Proof.Machine.execWrW4a v s
  | .rdThresh => Sys2Proof.Machine.execRdThresh s
  | .wrThresh v => Sys2Proof.Machine.execWrThresh v s
  | .rdIdHi => Sys2Proof.Machine.execRdIdHi s
  | .rdIdLo => Sys2Proof.Machine.execRdIdLo s
  | .rdTt c => Sys2Proof.Machine.execRdTt c s
  | .wrTt c v => Sys2Proof.Machine.execWrTt c v s
  | .rdFifoHi => Sys2Proof.Machine.execRdFifoHi s
  | .rdFifoLo => Sys2Proof.Machine.execRdFifoLo s
  | .rdFifo32 => Sys2Proof.Machine.execRdFifo32 s
  | .noOp => Sys2Proof.Machine.execNoOp s
  | .enableTclk => Sys2Proof.Machine.execEnableTclk s
  | .disableTclk => Sys2Proof.Machine.execDisableTclk s
  | .enableMdat => Sys2Proof.Machine.execEnableMdat s
  | .disableMdat => Sys2Proof.Machine.execDisableMdat s
  | .mdatBuf0 => Sys2Proof.Machine.execMdatBuf0 s
  | .mdatBuf1 => Sys2Proof.Machine.execMdatBuf1 s
  | .enableMdatBufAuto => Sys2Proof.Machine.execEnableMdatBufAuto s
  | .disableMdatBufAuto => Sys2Proof.Machine.execDisableMdatBufAuto s
  | .swInterrupt => Sys2Proof.Machine.execSwInterrupt s
  | .swReset => Sys2Proof.Machine.execSwReset s
  | .recEmpty => Sys2Proof.Machine.execRecEmpty s
  | .recEvent ts code => Sys2Proof.Machine.execRecEvent ts code s
  | .decodeRec raw => Sys2Proof.Machine.execDecodeRec raw s
  | .encodeRec code ts => Sys2Proof.Machine.execEncodeRec code ts s
  | .validRec raw => Sys2Proof.Machine.execValidRec raw s
  | .setTrigger code bit enabled => Sys2Proof.Machine.execSetTrigger code bit enabled s
  | .getTrigger code bit => Sys2Proof.Machine.execGetTrigger code bit s
  | .clearTriggerTable => Sys2Proof.Machine.execClearTriggerTable s
  | .construct => Sys2Proof.Machine.execConstruct s
  | .probe => Sys2Proof.Machine.execProbe s
  | .resetModule => Sys2Proof.Machine.execResetModule s
  | .configureTriggers => Sys2Proof.Machine.execConfigureTriggers s
  | .startCollecting => Sys2Proof.Machine.execStartCollecting s
  | .setResetTimestampTrigger t => Sys2Proof.Machine.execSetResetTimestampTrigger t s
  | .setWriteTrigger t => Sys2Proof.Machine.execSetWriteTrigger t s
  | .setFifoThreshold level => Sys2Proof.Machine.execSetFifoThreshold level s
  | .readStatus => Sys2Proof.Machine.execReadStatus s
  | .drainOneEvent => Sys2Proof.Machine.execDrainOneEvent s
  | .decodeStatus w => Sys2Proof.Machine.execDecodeStatus w s
  | .lockTask => Sys2Proof.Machine.execLockTask s
  | .lockIsr => Sys2Proof.Machine.execLockIsr s
  | .unlock => Sys2Proof.Machine.execUnlock s
  | .evtTclk code => Sys2Proof.Machine.execEvtTclk code s
  | .evtTick => Sys2Proof.Machine.execEvtTick s
  | .evtInput tclkPresent mdatPresent tclkParity mdatParity => Sys2Proof.Machine.execEvtInput tclkPresent mdatPresent tclkParity mdatParity s

end Sys2Proof.Machine
end

