-- ==== Sys2Proof/Machine/Schedule.lean ====
section
/-! DEFINITION. What the block has in place of instruction fetch (R3, R14; log 1): the turn at the head of the
schedule is taken, its word decoded in its format, and the instruction run in its context. -/

namespace Sys2Proof.Machine

/-- Whether a turn of format `f` belongs to the host (R14). -/
def isHostFormat : Format → Bool
  | .txn => true
  | .cmd => true
  | .record => true
  | .api => true
  | .agent => false

/-- A context with no step of its own: a task that waits for the lock (R331, R334). -/
def hasNoStep (k : HostContext) (s : State) : Bool :=
  match k with
  | .task i => s.waits i
  | .isr => false

/-- The state in which context `k` takes a turn of format `f`; an agent's turn has no context. -/
def inContext (k : HostContext) (f : Format) (s : State) : State := if isHostFormat f then s.setCurrent k else s

/-- A word the decoder rejects: a transaction or a command is refused with the mark (R105, R115, R151; log 7), a
number that names no operation has no meaning (log 23). It is refused as such before any other check: an unmapped key
is `Unmapped` whatever the window and the lock, and a reserved word in format CMD is `ReservedCommand` also without the
lock. R105, R151 and R368 do not rank the reasons; that is the model's choice (log 25). -/
def runRejected (r : Reject) (s : State) : Host.Outcome State Fault Refusal :=
  match r with
  | .unmappedKey => .next (s.markRefused .unmapped)
  | .reservedCommand => .next (s.markRefused .reservedCommand)
  | .strayBits => .refused .undefinedOperation
  | .noSuchOperation => .refused .undefinedOperation

/-- Decode a word and run it. -/
def runWord (f : Format) (x : CodeWord) (s : State) : Host.Outcome State Fault Refusal :=
  match decode f x with
  | .ok i => exec i s
  | .error r => runRejected r s

/-- The operation task `i` waits with. -/
def waitingOp (i : Nat) (s : State) : Option Instr := (s.host.blocked.find? (·.1 == i)).map Prod.snd

/-- Take one turn. A context with no step lets its turn pass; a waiting task that tries again calls its operation
afresh (R331, R340; log 8). -/
def runTurn (t : Turn) (s : State) : Host.Outcome State Fault Refusal :=
  match t with
  | .issue k f x =>
    if isHostFormat f && hasNoStep k s then .next s else runWord f x (inContext k f s)
  | .resume i =>
    match waitingOp i s with
    | none => .next s
    | some op => exec op ((s.unblock i).setCurrent (.task i))

/-- The schedule without its head. -/
def withSchedule (ts : List Turn) (s : State) : State := { s with env := { s.env with schedule := ts } }

/-- One step: the turn at the head of the schedule; with none, no agent moves (log 1). -/
def stepTurn (s : State) : Host.Outcome State Fault Refusal :=
  match s.env.schedule with
  | [] => .next s
  | t :: ts => runTurn t (withSchedule ts s)

end Sys2Proof.Machine
end

