-- ==== Sys2Proof/Machine/Step.lean ====
section
/-! DEFINITION. The step function of the machine, and how one instruction is placed before it. -/

namespace Sys2Proof.Machine

/-- One step of the machine (R14; log 1). -/
def step (s : State) : Host.Outcome State Fault Refusal := stepTurn s

/-- `s` with one instruction scheduled first, issued by the current context, which waits for nothing. The word is
numbered as spec/opcode_table.json numbers it and read in the format of its width (log 14). -/
def State.withFetchWord (s : State) (nbits w : Nat) : State :=
  let f := tableFormat nbits w
  let s' := match s.host.current with
    | .task i => s.unblock i
    | .isr => s
  withSchedule (.issue s.host.current f (tableWord nbits w) :: s.env.schedule) s'

end Sys2Proof.Machine
end

