-- ==== Sys2Proof/Safety.lean ====
section
/-! DEFINITION. What claims are stated in terms of: final states, stuck tasks, the invariant, the occupancy of the
FIFO, legal moves of the driver, and the hypotheses under which a transaction is admitted and succeeds. -/

namespace Sys2Proof.Machine

/-- R12: a state that carries the mark is never final. -/
abbrev Final (s : State) : Prop := s.refused = false

/-- R334: a task that waits for a lock it holds itself. -/
abbrev Stuck (i : Nat) (s : State) : Prop := s.waits i = true ∧ s.host.lock = .held (.task i)

/-- The occupancy state of the hardware's FIFO (R261). -/
def fifoOccupancy (s : State) : Occupancy := occupancy s.cfg.fifoDepth s.hw.fifo.length

/-- A half read of the FIFO that failed, as the log shows it. -/
def failedHalf (e : Txn) : Bool := !e.ok && (e.key == 0x90001200 || e.key == 0x90001202)

/-- What every step keeps: the configuration is within R8's bounds; the FIFO holds at most its depth (R46); a record
half read is there to be read, unless a half read has failed (R47, R182; a failed one may have lost the record: R153,
R395); a failed driver holds no lock (R231, R239); no task waits twice. -/
structure Inv (s : State) : Prop where
  cfgValid    : s.cfg.Valid
  fifoBounded : s.hw.fifo.length ≤ s.cfg.fifoDepth
  halfRead    : s.host.log.any failedHalf = false → s.hw.fifoPhase = .highRead → s.hw.fifo ≠ []
  failedFree  : s.host.drv = .failed → s.host.lock = .free
  waitOnce    : (s.host.blocked.map Prod.fst).Nodup

/-- A move of the driver state within one step: staying, a transition of R230, or the whole of CONSTRUCT, which
runs several of them (R231; log 6). -/
inductive DriverMove : DriverState → DriverState → Prop where
  | stay (d : DriverState) : DriverMove d d
  | constructed : DriverMove .uninitialized .collecting
  | constructFailed : DriverMove .uninitialized .failed
  | probed : DriverMove .probing .resetting
  | reset : DriverMove .resetting .configuringTriggers
  | started : DriverMove .configuringTriggers .collecting
  | probeFailed : DriverMove .probing .failed
  | resetFailed : DriverMove .resetting .failed
  | configureFailed : DriverMove .configuringTriggers .failed

/-- A transaction at a mapped offset is admitted (R151): inside its window and issued by the lock's holder. -/
abbrev Admitted (w : Window) (off : Nat) (s : State) : Prop :=
  off < s.cfg.windowSize w ∧ s.host.lock = .held s.host.current

/-- The next `n` bus transactions succeed (R153). -/
abbrev BusOk (n : Nat) (s : State) : Prop := ∀ j, j < n → (s.env.bus.at j).ok = true

/-- Task `i` is the current context, the driver is in Collecting and the lock is free: a public operation runs
(R241, R331, R336). -/
abbrev ReadyToCall (i : Nat) (s : State) : Prop :=
  s.host.current = .task i ∧ s.host.drv = .collecting ∧ s.host.lock = .free

/-- Inside CONSTRUCT (R241; log 12): the driver state, and the lock held by the calling task. -/
abbrev InsideConstruct (i : Nat) (d : DriverState) (s : State) : Prop :=
  s.host.current = .task i ∧ s.host.drv = d ∧ s.host.lock = .held (.task i)

/-- The part of a bus transaction's log entry that says it succeeded with value `v`. -/
def okTxn (key : Word) (v : Half) : Txn := { key := key, value := some v, ok := true }

/-- The registers that only a host transaction can change (R300, R310): no step of an agent writes one. -/
structure Registers where
  ctrl          : Half
  tclkEnabled   : Bool
  mdatEnabled   : Bool
  mdatAutoBufEn : Bool
  mdatBuf0En    : Bool
  mdatBuf1En    : Bool
  mdatIntType   : Byte
  mdatBufSwitch : Byte
  tsResetLo     : Half
  tsResetHi     : Half
  wrTrigSel     : Byte
  clrTrigSel    : Byte
  threshold     : Half
  tt            : Vector Half 256
  idHi          : Byte
  idLo          : Byte
deriving DecidableEq, Repr

def Hw.registers (hw : Hw) : Registers where
  ctrl          := hw.ctrl
  tclkEnabled   := hw.tclkEnabled
  mdatEnabled   := hw.mdatEnabled
  mdatAutoBufEn := hw.mdatAutoBufEn
  mdatBuf0En    := hw.mdatBuf0En
  mdatBuf1En    := hw.mdatBuf1En
  mdatIntType   := hw.mdatIntType
  mdatBufSwitch := hw.mdatBufSwitch
  tsResetLo     := hw.tsResetLo
  tsResetHi     := hw.tsResetHi
  wrTrigSel     := hw.wrTrigSel
  clrTrigSel    := hw.clrTrigSel
  threshold     := hw.threshold
  tt            := hw.tt
  idHi          := hw.idHi
  idLo          := hw.idLo

/-- The last result returned is `r`, to context `k`. -/
abbrev Returned (k : HostContext) (r : Result) (t : State) : Prop := t.host.returns.getLast? = some (k, r)

/-- The location a transaction or command row accesses (R102, R104); none for the other formats. The paired read
stands at its first half. -/
def txnPlace : Instr → Option (Window × Nat)
  | .rdCtrl | .wrCtrl _ => some (.cs, 0x40)
  | .rdStatus | .wrStatus _ => some (.cs, 0x42)
  | .rdMdatItype | .wrMdatItype _ | .rdW44 | .wrW44 _ => some (.cs, 0x44)
  | .rdMdatBufsw | .wrMdatBufsw _ => some (.cs, 0x45)
  | .rdTsrstLo | .wrTsrstLo _ => some (.cs, 0x46)
  | .rdTsrstHi | .wrTsrstHi _ => some (.cs, 0x48)
  | .rdWrtrig | .wrWrtrig _ | .rdW4a | .wrW4a _ => some (.cs, 0x4A)
  | .rdClrtrig | .wrClrtrig _ => some (.cs, 0x4B)
  | .rdThresh | .wrThresh _ => some (.cs, 0x4C)
  | .rdIdHi => some (.cs, 0x89)
  | .rdIdLo => some (.cs, 0x8B)
  | .rdTt c | .wrTt c _ => some (.ev, 2 * c.toNat)
  | .rdFifoHi | .rdFifo32 => some (.ev, 0x1200)
  | .rdFifoLo => some (.ev, 0x1202)
  | .noOp | .enableTclk | .disableTclk | .enableMdat | .disableMdat | .mdatBuf0 | .mdatBuf1 | .enableMdatBufAuto
  | .disableMdatBufAuto | .swInterrupt | .swReset => some (.cs, 0x40)
  | _ => none

/-- The key under which a transaction or command row logs its access (R102, R185; the commands: log 15); the paired
read's is that of its first half. -/
def txnKey : Instr → Word
  | .rdCtrl => 0x10000040
  | .wrCtrl _ => 0x50000040
  | .rdStatus => 0x10000042
  | .wrStatus _ => 0x50000042
  | .rdMdatItype => 0x00000044
  | .wrMdatItype _ => 0x40000044
  | .rdMdatBufsw => 0x00000045
  | .wrMdatBufsw _ => 0x40000045
  | .rdW44 => 0x10000044
  | .wrW44 _ => 0x50000044
  | .rdTsrstLo => 0x10000046
  | .wrTsrstLo _ => 0x50000046
  | .rdTsrstHi => 0x10000048
  | .wrTsrstHi _ => 0x50000048
  | .rdWrtrig => 0x0000004A
  | .wrWrtrig _ => 0x4000004A
  | .rdClrtrig => 0x0000004B
  | .wrClrtrig _ => 0x4000004B
  | .rdW4a => 0x1000004A
  | .wrW4a _ => 0x5000004A
  | .rdThresh => 0x1000004C
  | .wrThresh _ => 0x5000004C
  | .rdIdHi => 0x00000089
  | .rdIdLo => 0x0000008B
  | .rdTt c => 0x90000000 + BitVec.ofNat 32 (2 * c.toNat)
  | .wrTt c _ => 0xD0000000 + BitVec.ofNat 32 (2 * c.toNat)
  | .rdFifoHi | .rdFifo32 => 0x90001200
  | .rdFifoLo => 0x90001202
  | .noOp | .enableTclk | .disableTclk | .enableMdat | .disableMdat | .mdatBuf0 | .mdatBuf1 | .enableMdatBufAuto
  | .disableMdatBufAuto | .swInterrupt | .swReset => 0x50000040
  | _ => 0

/-- The value a transaction or command row writes (R102, R104); none for a read. -/
def txnWrites : Instr → Option Half
  | .wrCtrl v | .wrStatus v | .wrW44 v | .wrTsrstLo v | .wrTsrstHi v | .wrW4a v | .wrThresh v | .wrTt _ v => some v
  | .wrMdatItype v | .wrMdatBufsw v | .wrWrtrig v | .wrClrtrig v => some (v.setWidth 16)
  | .noOp => some 0x0000
  | .enableTclk => some 0x0001
  | .disableTclk => some 0x0002
  | .enableMdat => some 0x0003
  | .disableMdat => some 0x0004
  | .mdatBuf0 => some 0x0005
  | .mdatBuf1 => some 0x0006
  | .enableMdatBufAuto => some 0x0007
  | .disableMdatBufAuto => some 0x0008
  | .swInterrupt => some 0x0009
  | .swReset => some 0x00FF
  | _ => none

/-- The five edge flags of the hardware (R42). -/
def edgeFlags : List (Hw → Bool) :=
  [Hw.mdatParityErr, Hw.fifoUnderflow, Hw.fifoOverflow, Hw.fifoThreshold, Hw.tclkParityErr]

/-- The state in which READ_STATUS of task `n` takes its snapshot (R266; log 6). -/
def snapshotState (n : Nat) (s : State) : State := runGap (s.setLock (.held (.task n)))

/-- The state in which it issues the write-back: the agents may have stepped since (R400; log 6). -/
def writeBackState (n : Nat) (s : State) : State := runGap (txnRdStatus (snapshotState n s)).2

/-- The raw selector value `raw` names line `line` (R108). -/
abbrev Selects (cfg : Config) (raw : Byte) (line : Nat) : Prop :=
  raw ≠ 0 ∧ line ≤ 7 ∧ raw.toNat = cfg.selOffset + line

/-- An event of table entry `m` is on the line that `raw` names (R302). -/
def OnLine (cfg : Config) (raw : Byte) (m : Half) : Prop := ∃ line, Selects cfg raw line ∧ m.getLsbD line = true

/-- `raw` is neutral, or names a line that an event of table entry `m` is not on (R302). -/
def OffLine (cfg : Config) (raw : Byte) (m : Half) : Prop :=
  raw = 0 ∨ ∃ line, Selects cfg raw line ∧ m.getLsbD line = false

/-- The rules under which an event of code `code` is surely captured (R305). -/
def SurelyCaptured (code : Byte) (s : State) : Prop :=
  s.cfg.captureRule = .any ∨
  (s.cfg.captureRule = .routed ∧ OnLine s.cfg s.hw.wrTrigSel (ttEntry s.hw.tt code))

/-- The rule under which an event of code `code` is surely not captured (R302, R305). -/
def SurelyPassed (code : Byte) (s : State) : Prop :=
  s.cfg.captureRule = .routed ∧ OffLine s.cfg s.hw.wrTrigSel (ttEntry s.hw.tt code)

/-- The public operations admitted only in Collecting (R241). -/
def isCollectingCall : Instr → Bool
  | .setTrigger _ _ _ | .getTrigger _ _ | .setResetTimestampTrigger _ | .setWriteTrigger _ | .setFifoThreshold _
  | .readStatus | .drainOneEvent => true
  | _ => false

/-- Whether the operands of a public operation are in range (R202, R263 to R265, R352). -/
def paramsOk : Instr → Bool
  | .setTrigger _ b _ | .getTrigger _ b => decide (b.toNat ≤ 7)
  | .setResetTimestampTrigger t | .setWriteTrigger t => decide (1 ≤ t.toNat ∧ t.toNat ≤ 7)
  | .setFifoThreshold level => decide (1 ≤ level.toNat)
  | _ => true

/-- The construction sub-steps with the driver state each is admitted in (R241; log 12). -/
def subStepState : Instr → Option DriverState
  | .probe => some .probing
  | .resetModule => some .resetting
  | .clearTriggerTable | .configureTriggers | .startCollecting => some .configuringTriggers
  | _ => none

/-- A step of the hardware on its own (R114). -/
def isAgentStep : Instr → Bool
  | .evtTclk _ | .evtTick | .evtInput _ _ _ _ => true
  | _ => false

/-- Task `i` waits with operation `op` for the lock it holds itself, and calling `op` again would make it wait
again (R334). -/
structure StuckOn (i : Nat) (op : Instr) (s : State) : Prop where
  waiting : waitingOp i s = some op
  holder  : s.host.lock = .held (.task i)
  again   : (op = .lockTask ∧ s.host.drv ≠ .failed) ∨ (op = .construct ∧ s.host.drv = .uninitialized) ∨
    (isCollectingCall op = true ∧ paramsOk op = true ∧ s.host.drv = .collecting)

/-- The log of a table cleared entry by entry, ascending, each write followed by its confirm read (R205). -/
def tableLog : List Txn :=
  (List.range 256).flatMap fun c =>
    [okTxn (0xD0000000 + BitVec.ofNat 32 (2 * c)) 0x0000, okTxn (0x90000000 + BitVec.ofNat 32 (2 * c)) 0x0000]

/-- The log of both selectors made neutral (R236). -/
def selectorLog : List Txn :=
  [okTxn 0x4000004A 0x0000, okTxn 0x0000004A 0x0000, okTxn 0x4000004B 0x0000, okTxn 0x0000004B 0x0000]

/-- The log of a successful construction (R237, R393; 95 program P1): probe, software reset, both selectors, the 256
entries in ascending order, EnableTCLK; every write followed by its confirm read. -/
def constructionLog (idHi idLo : Byte) : List Txn :=
  [okTxn 0x00000089 (idHi.setWidth 16), okTxn 0x0000008B (idLo.setWidth 16),
   okTxn 0x50000040 0x00FF, okTxn 0x10000040 0x00FF]
  ++ selectorLog ++ tableLog ++ [okTxn 0x50000040 0x0001, okTxn 0x10000040 0x0001]

/-- What a control write of `v` may change (R185 to R196): nothing, or the control register and the fields of its own
command. -/
def CtrlFrame (v : Half) (h h' : Hw) : Prop :=
  h' = h ∨
  if v = 0x0000 ∨ v = 0x0009 then h' = { h with ctrl := v }
  else if v = 0x0001 ∨ v = 0x0002 then ∃ b, h' = { h with ctrl := v, tclkEnabled := b }
  else if v = 0x0003 ∨ v = 0x0004 then ∃ b, h' = { h with ctrl := v, mdatEnabled := b }
  else if v = 0x0005 ∨ v = 0x0006 then ∃ a b c, h' = { h with ctrl := v, mdatBufSel := a, mdatBuf0En := b, mdatBuf1En := c }
  else if v = 0x0007 ∨ v = 0x0008 then ∃ b, h' = { h with ctrl := v, mdatAutoBufEn := b }
  else v = 0x00FF ∧ h'.ctrl = v ∧ h'.fifoPhase = .idle ∧ h'.idHi = h.idHi ∧ h'.idLo = h.idLo

/-- What an instruction may change of the hardware, field by field: everything its rule does not name is unchanged,
whether its transactions succeed, fail or are refused (R81, R153 to R196, R203 to R205, R231 to R238, R263 to R267,
R301, R308, R310). Between the transactions of one operation the agents step (log 6), so its frame is about the
registers that no agent writes. -/
def HwFrame (i : Instr) (h h' : Hw) : Prop :=
  match i with
  | .rdStatus | .wrStatus _ => ∃ a b c d e,
      h' = { h with mdatParityErr := a, fifoUnderflow := b, fifoOverflow := c, fifoThreshold := d, tclkParityErr := e }
  | .wrMdatItype _ | .wrMdatBufsw _ | .wrW44 _ => ∃ x y a b c d e,
      h' = { h with mdatIntType := x, mdatBufSwitch := y, mdatBufSel := a, mdatBuf0En := b, mdatBuf1En := c,
                    mdatAutoBufEn := d, mdatEnabled := e }
      ∧ (∀ v, i = .wrMdatItype v → y = h.mdatBufSwitch) ∧ (∀ v, i = .wrMdatBufsw v → x = h.mdatIntType)
  | .wrTsrstLo _ => ∃ x n, h' = { h with tsResetLo := x, tsCounter := n }
  | .wrTsrstHi _ => ∃ x n, h' = { h with tsResetHi := x, tsCounter := n }
  | .wrWrtrig _ => ∃ x, h' = { h with wrTrigSel := x }
  | .wrClrtrig _ => ∃ x, h' = { h with clrTrigSel := x }
  | .wrW4a _ => ∃ x y, h' = { h with wrTrigSel := x, clrTrigSel := y }
  | .wrThresh _ => ∃ x b, h' = { h with threshold := x, fifoThreshold := b }
  | .wrTt c _ => ∃ tt, h' = { h with tt := tt } ∧ ∀ c', c' ≠ c → ttEntry tt c' = ttEntry h.tt c'
  | .rdFifoHi => ∃ b p q, h' = { h with fifoUnderflow := b, fifoPhase := p, fifo := q }
      ∧ (q = h.fifo ∨ q = h.fifo.tail)
  | .rdFifoLo => ∃ p q, h' = { h with fifoPhase := p, fifo := q } ∧ (q = h.fifo ∨ q = h.fifo.tail)
  | .wrCtrl v => CtrlFrame v h h'
  | .noOp => CtrlFrame 0x0000 h h'
  | .enableTclk => CtrlFrame 0x0001 h h'
  | .disableTclk => CtrlFrame 0x0002 h h'
  | .enableMdat => CtrlFrame 0x0003 h h'
  | .disableMdat => CtrlFrame 0x0004 h h'
  | .mdatBuf0 => CtrlFrame 0x0005 h h'
  | .mdatBuf1 => CtrlFrame 0x0006 h h'
  | .enableMdatBufAuto => CtrlFrame 0x0007 h h'
  | .disableMdatBufAuto => CtrlFrame 0x0008 h h'
  | .swInterrupt => CtrlFrame 0x0009 h h'
  | .swReset => CtrlFrame 0x00FF h h'
  | .evtTclk _ => ∃ n q p a b, h' = { h with tsCounter := n, fifo := q, fifoPhase := p, fifoOverflow := a,
                                             fifoThreshold := b }
  | .evtTick => h' = { h with tsCounter := h.tsCounter + 1 }
  | .evtInput _ _ _ _ => ∃ a b c d e, h' = { h with tclkPresent := a, mdatPresent := b, tclkParityErr := c,
                                                    mdatParityErr := d, mdatBufSel := e }
  | .rdFifo32 | .getTrigger _ _ | .probe | .readStatus | .drainOneEvent => h'.registers = h.registers
  | .setTrigger code _ _ => h'.registers = { h.registers with tt := h'.tt }
      ∧ ∀ c, c ≠ code → ttEntry h'.tt c = ttEntry h.tt c
  | .clearTriggerTable => h'.registers = { h.registers with tt := h'.tt }
  | .configureTriggers => ∃ x y, h'.registers = { h.registers with wrTrigSel := x, clrTrigSel := y, tt := h'.tt }
  | .startCollecting => ∃ x b, h'.registers = { h.registers with ctrl := x, tclkEnabled := b }
  | .setResetTimestampTrigger _ => ∃ x, h'.registers = { h.registers with clrTrigSel := x }
  | .setWriteTrigger _ => ∃ x, h'.registers = { h.registers with wrTrigSel := x }
  | .setFifoThreshold _ => ∃ x, h'.registers = { h.registers with threshold := x }
  | .construct | .resetModule => h'.idHi = h.idHi ∧ h'.idLo = h.idLo
  | _ => h' = h

end Sys2Proof.Machine
end

