-- ==== Sys2Proof/Certificates/Slice0/Obligations.lean ====
section
/-! DEFINITION. The statements for the provers, from the numbered rules of spec/. Each docstring names the rules it
rests on, and where a clause rests on a choice of the model, the log entry. -/

open Sys2Proof Sys2Proof.Machine

/-! ### Encodings and the step -/

/-- R101 to R104, R113, R114, log 14: no bit of an encoding is dropped. -/
def Obligations.DecodeInvertsEncode : Prop :=
  ∀ i : Instr, WellFormed i = true → decode (encode i).1 (encode i).2 = .ok i

/-- R102, R105, R115, log 14: a word the decoder accepts is the encoding of a well-formed instruction, so no other
word reads as one and no two words read as the same instruction. -/
def Obligations.EncodeInvertsDecode : Prop :=
  ∀ (f : Format) (x : CodeWord) (i : Instr), decode f x = .ok i → WellFormed i = true ∧ encode i = (f, x)

/-- R101, R104, R105, R115: of the command words the eleven of R104 are accepted and no other; a transaction key with
bits 27..16 nonzero, with size 11, or with the size of the paired read at another place than EV+0x1200 names no
access. -/
def Obligations.ReservedWordsAreRejected : Prop :=
  (∀ v : Half,
    (decode .cmd (cmdWord v) = .error .reservedCommand ↔ ¬ (v ≤ 0x0009 ∨ v = 0x00FF)) ∧
    (v ≤ 0x0009 ∨ v = 0x00FF → ∃ i, decode .cmd (cmdWord v) = .ok i)) ∧
  (∀ x : CodeWord,
    (x.extractLsb' 16 12 ≠ 0 → decode .txn x = .error .unmappedKey) ∧
    (x.extractLsb' 28 2 = 3 → decode .txn x = .error .unmappedKey) ∧
    (x.extractLsb' 28 2 = 2 → x.extractLsb' 0 32 ≠ (0xA0001200 : Word) → decode .txn x = .error .unmappedKey))

/-- Words written out from R101, R102, R104, R113, R114 (95 vectors E1 to E9). Log 14 places the written value of words
2 and 3 above the key, and the operands of the API and AGENT words, the last among them; the tables give the rest. -/
def Obligations.SpecWordsDecode : Prop :=
  decode .txn 0x000000000089 = .ok .rdIdHi ∧
  decode .txn 0x00FF50000040 = .ok (.wrCtrl 0x00FF) ∧
  decode .txn 0x0008D0000020 = .ok (.wrTt 0x10 0x0008) ∧
  decode .txn 0x0000900001FE = .ok (.rdTt 0xFF) ∧
  decode .txn 0x000090000200 = .error .unmappedKey ∧
  decode .txn 0x000040000089 = .error .unmappedKey ∧
  decode .txn 0x0000A0001200 = .ok .rdFifo32 ∧
  decode .cmd 0x0000000000FF = .ok .swReset ∧
  decode .record 0x0000123456AB = .ok (.recEvent 0x123456 0xAB) ∧
  decode .record 0x0000FFFFFFFF = .ok .recEmpty ∧
  decode .api 0x000000000034 = .ok .drainOneEvent ∧
  decode .agent 0x000000001050 = .ok (.evtTclk 0x10)

/-- R14, log 1: the turn at the head of the schedule is decoded and run in its context; an agent's turn has none. -/
def Obligations.StepRunsDecodedInstruction : Prop :=
  ∀ (s : State) (k : HostContext) (f : Format) (x : CodeWord) (ts : List Turn) (i : Instr),
    s.env.schedule = .issue k f x :: ts → decode f x = .ok i →
    (f = .agent → step s = exec i (withSchedule ts s)) ∧
    (f ≠ .agent → (∀ n, k = .task n → s.waits n = false) →
      step s = exec i ((withSchedule ts s).setCurrent k))

/-- R331, R334, R340, logs 1 and 8: a waiting task's turn passes; told to try again it calls its operation afresh;
with nothing scheduled no agent moves. -/
def Obligations.WaitingTaskHasNoStepOfItsOwn : Prop :=
  ∀ (s : State) (n : Nat) (ts : List Turn),
    (∀ f x, f ≠ .agent → s.env.schedule = .issue (.task n) f x :: ts → s.waits n = true →
      step s = .next (withSchedule ts s)) ∧
    (∀ op, s.env.schedule = .resume n :: ts → waitingOp n s = some op →
      step s = exec op (((withSchedule ts s).unblock n).setCurrent (.task n))) ∧
    (s.env.schedule = [] → step s = .next s)

/-- R12, R73, R105, R151, log 7: a scheduled transaction key of no row, and a scheduled reserved command word, set the
sticky mark with their reason and do nothing else; that this reason goes before any other is log 25. -/
def Obligations.UnmappedKeyMarksTheState : Prop :=
  ∀ (s : State) (k : HostContext) (f : Format) (x : CodeWord) (ts : List Turn) (r : Reject),
    s.env.schedule = .issue k f x :: ts → (∀ n, k = .task n → s.waits n = false) →
    decode f x = .error r → (f = .txn ∧ r = .unmappedKey ∨ f = .cmd ∧ r = .reservedCommand) →
    step s = .next (((withSchedule ts s).setCurrent k).markRefused
      (if f = .txn then .unmapped else .reservedCommand))

/-! ### Reset and whole-machine rules -/

/-- R60 (the values it gives; the genuine identification bytes are R44's, log 19). -/
def Obligations.ResetLeavesSpecValues : Prop :=
  State.reset.hw.fifoPhase = .idle ∧ State.reset.hw.idHi = 0xBB ∧ State.reset.hw.idLo = 0x15 ∧
  State.reset.hw.fifo.length ≤ State.reset.cfg.fifoDepth ∧
  State.reset.host.lock = .free ∧ State.reset.host.drv = .uninitialized ∧ State.reset.host.log = [] ∧
  State.reset.refused = false

/-- The invariant holds at power-on (R8, R46, R60). -/
def Obligations.ResetMeetsInvariant : Prop := Inv State.reset

/-- R8, R46, R47, R153, R182, R231, R239: every step keeps the invariant, from every state that meets it. -/
def Obligations.StepKeepsInvariant : Prop :=
  ∀ s t : State, Inv s → step s = .next t → Inv t

/-- R30, R44: no step changes the configuration or an identification byte. -/
def Obligations.ConfigurationAndIdentificationAreConstant : Prop :=
  ∀ s t : State, step s = .next t → t.cfg = s.cfg ∧ t.hw.idHi = s.hw.idHi ∧ t.hw.idLo = s.hw.idLo

/-- R12, R50, R151: the mark is sticky; log, history and results only grow. -/
def Obligations.MarkIsStickyAndRecordsOnlyGrow : Prop :=
  ∀ s t : State, step s = .next t →
    (s.refused = true → t.refused = true) ∧ s.host.log <+: t.host.log ∧ s.history <+: t.history ∧
    s.host.returns <+: t.host.returns

/-- R230, R239: the driver state moves only along the listed transitions; Collecting and Failed are never left. -/
def Obligations.DriverMovesAreTheListedOnes : Prop :=
  ∀ s t : State, step s = .next t →
    DriverMove s.host.drv t.host.drv ∧
    (s.host.drv = .collecting → t.host.drv = .collecting) ∧ (s.host.drv = .failed → t.host.drv = .failed)

/-- R334: a task that requests the lock it holds waits for ever, whatever any agent does. -/
def Obligations.StuckTaskStaysStuck : Prop :=
  (∀ (i : Nat) (s : State), s.host.current = .task i → s.host.lock = .held (.task i) → s.host.drv ≠ .failed →
    ∃ t, exec .lockTask s = .next t ∧ StuckOn i .lockTask t) ∧
  (∀ (i : Nat) (op : Instr) (s t : State), StuckOn i op s → step s = .next t → StuckOn i op t)

/-- R335, R337: while a context holds the lock, no instruction of another host context changes the hardware, the log,
the lock or the driver state. -/
def Obligations.OnlyTheHolderActs : Prop :=
  ∀ (i : Instr) (s t : State) (k : HostContext),
    isAgentStep i = false → s.host.lock = .held k → s.host.current ≠ k → exec i s = .next t →
    t.hw = s.hw ∧ t.host.log = s.host.log ∧ t.host.lock = s.host.lock ∧ t.host.drv = s.host.drv

/-- R300: the autonomous agents change no host state and no register that the host writes, and never refuse. -/
def Obligations.AgentsLeaveTheHostAlone : Prop :=
  ∀ (i : Instr) (s t : State), isAgentStep i = true → exec i s = .next t →
    t.host = s.host ∧ t.hw.registers = s.hw.registers ∧ t.cfg = s.cfg ∧ t.refused = s.refused ∧
    t.env.schedule = s.env.schedule ∧ t.env.gaps = s.env.gaps ∧ t.env.bus = s.env.bus

/-- R239: a failed driver is terminal: no host instruction touches the hardware or the log any more. That the lock is
free then is the invariant's (R231); the refusal of the lock operations is log 11. -/
def Obligations.FailedDriverIsTerminal : Prop :=
  ∀ (i : Instr) (s t : State), isAgentStep i = false → s.host.drv = .failed → s.host.lock = .free →
    exec i s = .next t →
    t.hw = s.hw ∧ t.host.log = s.host.log ∧ t.host.drv = .failed ∧ t.host.lock = .free

/-! ### Record codec and status decoder -/

/-- R130, R131, R132: the codec's operations on every word, code and timestamp; nothing but the result is recorded. -/
def Obligations.CodecOperationsReturnTheirValue : Prop :=
  ∀ (s : State) (raw : Word) (code : Byte) (ts : Stamp),
    exec (.decodeRec raw) s = .next (s.giveReturn
      (if raw = 0xFFFFFFFF then .empty else .event (BitVec.ofNat 8 (raw.toNat % 256)) (BitVec.ofNat 24 (raw.toNat / 256)))) ∧
    exec (.validRec raw) s = .next (s.giveReturn (.truth (decide (raw ≠ 0xFFFFFFFF)))) ∧
    exec (.encodeRec code ts) s = .next (s.giveReturn (.word (BitVec.ofNat 32 (ts.toNat * 256 + code.toNat))))

/-- R103, R117, log 15: the two record rows are the codec's classification of their word; the decoder tries the
sentinel first and reads every other word as an event. -/
def Obligations.RecordRowsAreClassified : Prop :=
  (∀ s : State, exec .recEmpty s = .next (s.giveReturn .empty)) ∧
  (∀ (s : State) (code : Byte) (ts : Stamp), ¬ (code = 0xFF ∧ ts = 0xFFFFFF) →
    exec (.recEvent ts code) s = .next (s.giveReturn (.event code ts))) ∧
  (∀ (s : State) (raw : Word) (i : Instr), decode .record (keyWord raw) = .ok i →
    exec i s = exec (.decodeRec raw) s)

/-- R133: both round trips of the codec, and what DECODE extracts. -/
def Obligations.RecordCodecRoundTrips : Prop :=
  (∀ raw : Word, raw ≠ 0xFFFFFFFF →
    ∃ c t, decodeRecord raw = some (c, t) ∧ encodeRecord c t = raw ∧
      c.toNat = raw.toNat % 256 ∧ t.toNat = raw.toNat / 256) ∧
  (∀ raw : Word, decodeRecord raw = none ↔ raw = 0xFFFFFFFF) ∧
  (∀ (c : Byte) (t : Stamp), ¬ (c = 0xFF ∧ t = 0xFFFFFF) → decodeRecord (encodeRecord c t) = some (c, t))

/-- R42: the edge mask, the level mask, and bit 15 in neither. -/
def Obligations.EdgeAndLevelMasks : Prop :=
  edgeMask = 0x5A80 ∧ levelMask = 0x257F ∧ edgeMask ||| levelMask = 0x7FFF ∧ edgeMask &&& levelMask = 0

/-- R41, R260: decoding a composed status word gives back every flag of the hardware, whatever bit 15 reads as. -/
def Obligations.StatusWordDecodesToItsFlags : Prop :=
  ∀ (depth : Nat) (hw : Hw) (bit15 : Bool),
    statusFlags (statusWord depth hw bit15) =
      { mdatParityError := hw.mdatParityErr, mdatBuffer0_1 := hw.mdatBufSel, fifoUnderflow := hw.fifoUnderflow,
        fifoOverflow := hw.fifoOverflow, fifoFull := decide (hw.fifo.length = depth),
        fifoThreshold := hw.fifoThreshold, fifoEmpty := decide (hw.fifo = []),
        tclkParityError := hw.tclkParityErr, mdatBuffer1Enabled := hw.mdatBuf1En,
        mdatBuffer0Enabled := hw.mdatBuf0En, mdatAutoBufferEnabled := hw.mdatAutoBufEn,
        mdatEnabled := hw.mdatEnabled, tclkEnabled := hw.tclkEnabled, mdatPresent := hw.mdatPresent,
        tclkPresent := hw.tclkPresent } ∧
    (statusWord depth hw bit15).getLsbD 15 = bit15

/-- R260: DECODE_STATUS returns the fifteen named bits of any word. -/
def Obligations.DecodeStatusReadsEachBit : Prop :=
  ∀ (s : State) (w : Half),
    exec (.decodeStatus w) s = .next (s.giveReturn (.flags
      { mdatParityError := w.getLsbD 14, mdatBuffer0_1 := w.getLsbD 13, fifoUnderflow := w.getLsbD 12,
        fifoOverflow := w.getLsbD 11, fifoFull := w.getLsbD 10, fifoThreshold := w.getLsbD 9,
        fifoEmpty := w.getLsbD 8, tclkParityError := w.getLsbD 7, mdatBuffer1Enabled := w.getLsbD 6,
        mdatBuffer0Enabled := w.getLsbD 5, mdatAutoBufferEnabled := w.getLsbD 4, mdatEnabled := w.getLsbD 3,
        tclkEnabled := w.getLsbD 2, mdatPresent := w.getLsbD 1, tclkPresent := w.getLsbD 0 }))

/-- R262: no composed status word, and none that RD_STATUS returns, shows the FIFO both empty and full. -/
def Obligations.StatusNeverEmptyAndFull : Prop :=
  (∀ (depth : Nat) (hw : Hw) (bit15 : Bool), 1 ≤ depth →
    ¬ ((statusFlags (statusWord depth hw bit15)).fifoEmpty = true ∧
       (statusFlags (statusWord depth hw bit15)).fifoFull = true)) ∧
  (∀ s : State, s.cfg.Valid → Admitted .cs 0x42 s → (s.env.bus.at 0).ok = true →
    ∃ t w, exec .rdStatus s = .next t ∧ Returned s.host.current (.word w) t ∧
      ¬ ((statusFlags (w.setWidth 16)).fifoEmpty = true ∧ (statusFlags (w.setWidth 16)).fifoFull = true))

/-! ### Register transactions -/

/-- The shape of an admitted, successful read without side effect: its value is returned and logged, nothing else
changes (R81, R151). -/
def PlainRead (i : Instr) (off : Nat) (key : Word) (value : State → Half) : Prop :=
  ∀ s : State, Admitted .cs off s → (s.env.bus.at 0).ok = true →
    exec i s = .next ((s.nextBus.logTxn (okTxn key (value s))).giveReturn (.word ((value s).setWidth 32)))

/-- R154, R157, R159, R161, R165, R167, R169, R171, R173, R175, R177, R178. -/
def Obligations.PlainReadsReturnTheirRegister : Prop :=
  PlainRead .rdCtrl 0x40 0x10000040 (fun s => s.hw.ctrl) ∧
  PlainRead .rdMdatItype 0x44 0x00000044 (fun s => s.hw.mdatIntType.setWidth 16) ∧
  PlainRead .rdMdatBufsw 0x45 0x00000045 (fun s => s.hw.mdatBufSwitch.setWidth 16) ∧
  PlainRead .rdW44 0x44 0x10000044 (fun s => match s.cfg.byteOrder with
    | .big => s.hw.mdatIntType ++ s.hw.mdatBufSwitch
    | .little => s.hw.mdatBufSwitch ++ s.hw.mdatIntType) ∧
  PlainRead .rdTsrstLo 0x46 0x10000046 (fun s => s.hw.tsResetLo) ∧
  PlainRead .rdTsrstHi 0x48 0x10000048 (fun s => s.hw.tsResetHi) ∧
  PlainRead .rdWrtrig 0x4A 0x0000004A (fun s => s.hw.wrTrigSel.setWidth 16) ∧
  PlainRead .rdClrtrig 0x4B 0x0000004B (fun s => s.hw.clrTrigSel.setWidth 16) ∧
  PlainRead .rdW4a 0x4A 0x1000004A (fun s => match s.cfg.byteOrder with
    | .big => s.hw.wrTrigSel ++ s.hw.clrTrigSel
    | .little => s.hw.clrTrigSel ++ s.hw.wrTrigSel) ∧
  PlainRead .rdThresh 0x4C 0x1000004C (fun s => s.hw.threshold) ∧
  PlainRead .rdIdHi 0x89 0x00000089 (fun s => s.hw.idHi.setWidth 16) ∧
  PlainRead .rdIdLo 0x8B 0x0000008B (fun s => s.hw.idLo.setWidth 16)

/-- The shape of an admitted, successful write: the log entry, the result, and nothing but the hardware changed. -/
def WriteDone (i : Instr) (w : Window) (off : Nat) (key : Word) (v : Half) (s : State) (hw' : Hw) : Prop :=
  ∃ t, exec i s = .next t ∧ t.hw = hw' ∧ t.host = { s.host with
      log := s.host.log ++ [okTxn key v], returns := s.host.returns ++ [(s.host.current, .done)] } ∧
    t.cfg = s.cfg ∧ t.refused = s.refused ∧ t.history = s.history ∧ t.env.schedule = s.env.schedule ∧
    off < s.cfg.windowSize w

/-- R155: a status write clears the edge flags whose bit is 1 and changes nothing else. -/
def Obligations.StatusWriteClearsWrittenEdgeFlags : Prop :=
  ∀ (s : State) (v : Half), Admitted .cs 0x42 s → (s.env.bus.at 0).ok = true →
    WriteDone (.wrStatus v) .cs 0x42 0x50000042 v s
      { s.hw with
        mdatParityErr := if v.getLsbD 14 then false else s.hw.mdatParityErr
        fifoUnderflow := if v.getLsbD 12 then false else s.hw.fifoUnderflow
        fifoOverflow  := if v.getLsbD 11 then false else s.hw.fifoOverflow
        fifoThreshold := if v.getLsbD 9 then false else s.hw.fifoThreshold
        tclkParityErr := if v.getLsbD 7 then false else s.hw.tclkParityErr }

/-- R156, R41: a status read returns the composed word, with any bit 15; the edge flags it shows are cleared exactly
when the parameter says so. -/
def Obligations.StatusReadReturnsTheWord : Prop :=
  ∀ s : State, Admitted .cs 0x42 s → (s.env.bus.at 0).ok = true →
    ∃ t bit15, exec .rdStatus s = .next t ∧
      Returned s.host.current (.word ((statusWord s.cfg.fifoDepth s.hw bit15).setWidth 32)) t ∧
      t.host.log = s.host.log ++ [okTxn 0x10000042 (statusWord s.cfg.fifoDepth s.hw bit15)] ∧
      t.hw = (if s.cfg.statusClearOnRead then
        { s.hw with mdatParityErr := false, fifoUnderflow := false, fifoOverflow := false, fifoThreshold := false,
                    tclkParityErr := false } else s.hw)

/-- R158, R160, R162, R163: an MDAT register write stores the value and leaves the five MDAT state bits free. -/
def Obligations.MdatWritesStoreTheirValue : Prop :=
  (∀ (s : State) (v : Byte), Admitted .cs 0x44 s → (s.env.bus.at 0).ok = true →
    ∃ a b c d e, WriteDone (.wrMdatItype v) .cs 0x44 0x40000044 (v.setWidth 16) s
      { s.hw with mdatIntType := v, mdatBufSel := a, mdatBuf0En := b, mdatBuf1En := c, mdatAutoBufEn := d,
                  mdatEnabled := e }) ∧
  (∀ (s : State) (v : Byte), Admitted .cs 0x45 s → (s.env.bus.at 0).ok = true →
    ∃ a b c d e, WriteDone (.wrMdatBufsw v) .cs 0x45 0x40000045 (v.setWidth 16) s
      { s.hw with mdatBufSwitch := v, mdatBufSel := a, mdatBuf0En := b, mdatBuf1En := c, mdatAutoBufEn := d,
                  mdatEnabled := e }) ∧
  (∀ (s : State) (hi lo : Byte), Admitted .cs 0x44 s → (s.env.bus.at 0).ok = true →
    ∃ a b c d e, WriteDone (.wrW44 (hi ++ lo)) .cs 0x44 0x50000044 (hi ++ lo) s
      { s.hw with mdatIntType := (match s.cfg.byteOrder with | .big => hi | .little => lo),
                  mdatBufSwitch := (match s.cfg.byteOrder with | .big => lo | .little => hi),
                  mdatBufSel := a, mdatBuf0En := b, mdatBuf1En := c, mdatAutoBufEn := d, mdatEnabled := e })

/-- R164, R166, R168, R176: a timestamp-reset write stores the value and leaves the counter free; the threshold stores
every value and its flag may only become set. -/
def Obligations.TimestampAndThresholdWrites : Prop :=
  ∀ (s : State) (v : Half), (s.env.bus.at 0).ok = true →
    (Admitted .cs 0x46 s → ∃ n, WriteDone (.wrTsrstLo v) .cs 0x46 0x50000046 v s
      { s.hw with tsResetLo := v, tsCounter := n }) ∧
    (Admitted .cs 0x48 s → ∃ n, WriteDone (.wrTsrstHi v) .cs 0x48 0x50000048 v s
      { s.hw with tsResetHi := v, tsCounter := n }) ∧
    (Admitted .cs 0x4C s → ∃ b, WriteDone (.wrThresh v) .cs 0x4C 0x5000004C v s
      { s.hw with threshold := v, fifoThreshold := s.hw.fifoThreshold || b })

/-- R170, R172, R174: the selectors store every value; a word write goes to both by the byte order. -/
def Obligations.SelectorWritesStoreTheirValue : Prop :=
  ∀ (s : State) (hi lo : Byte), (s.env.bus.at 0).ok = true →
    (Admitted .cs 0x4A s → WriteDone (.wrWrtrig hi) .cs 0x4A 0x4000004A (hi.setWidth 16) s
      { s.hw with wrTrigSel := hi }) ∧
    (Admitted .cs 0x4B s → WriteDone (.wrClrtrig lo) .cs 0x4B 0x4000004B (lo.setWidth 16) s
      { s.hw with clrTrigSel := lo }) ∧
    (Admitted .cs 0x4A s → WriteDone (.wrW4a (hi ++ lo)) .cs 0x4A 0x5000004A (hi ++ lo) s
      { s.hw with wrTrigSel := (match s.cfg.byteOrder with | .big => hi | .little => lo),
                  clrTrigSel := (match s.cfg.byteOrder with | .big => lo | .little => hi) })

/-- R179, R180, R201: a table write stores its entry and no other; a read returns it; with bits 15..8 not stored a
read delivers them as a free value. -/
def Obligations.TriggerTableTransactions : Prop :=
  ∀ (s : State) (c : Byte) (v : Half), Admitted .ev (2 * c.toNat) s → (s.env.bus.at 0).ok = true →
    (∃ hw', WriteDone (.wrTt c v) .ev (2 * c.toNat) (0xD0000000 + BitVec.ofNat 32 (2 * c.toNat)) v s hw' ∧
      hw' = { s.hw with tt := hw'.tt } ∧ (∀ c', c' ≠ c → ttEntry hw'.tt c' = ttEntry s.hw.tt c') ∧
      (s.cfg.ttHighBitsStored = true → ttEntry hw'.tt c = v) ∧
      (∀ n, n < 8 → (ttEntry hw'.tt c).getLsbD n = v.getLsbD n)) ∧
    (∃ t w, exec (.rdTt c) s = .next t ∧ t.hw = s.hw ∧ Returned s.host.current (.word (w.setWidth 32)) t ∧
      t.host.log = s.host.log ++ [okTxn (0x90000000 + BitVec.ofNat 32 (2 * c.toNat)) w] ∧
      (s.cfg.ttHighBitsStored = true → w = ttEntry s.hw.tt c) ∧
      (∀ n, n < 8 → w.getLsbD n = (ttEntry s.hw.tt c).getLsbD n))

/-! ### Control commands -/

/-- R185, R186 to R190, R193, R194: the six commands with one stated effect and NoOp, as the value of WR_CTRL; and as
instructions of their own, which are that write by log 15. -/
def Obligations.CommandsSetTheirEnable : Prop :=
  ∀ s : State, Admitted .cs 0x40 s → (s.env.bus.at 0).ok = true →
    (∀ i ∈ [Instr.noOp, .wrCtrl 0x0000], WriteDone i .cs 0x40 0x50000040 0x0000 s { s.hw with ctrl := 0x0000 }) ∧
    (∀ i ∈ [Instr.enableTclk, .wrCtrl 0x0001],
      WriteDone i .cs 0x40 0x50000040 0x0001 s { s.hw with ctrl := 0x0001, tclkEnabled := true }) ∧
    (∀ i ∈ [Instr.disableTclk, .wrCtrl 0x0002],
      WriteDone i .cs 0x40 0x50000040 0x0002 s { s.hw with ctrl := 0x0002, tclkEnabled := false }) ∧
    (∀ i ∈ [Instr.enableMdat, .wrCtrl 0x0003],
      WriteDone i .cs 0x40 0x50000040 0x0003 s { s.hw with ctrl := 0x0003, mdatEnabled := true }) ∧
    (∀ i ∈ [Instr.disableMdat, .wrCtrl 0x0004],
      WriteDone i .cs 0x40 0x50000040 0x0004 s { s.hw with ctrl := 0x0004, mdatEnabled := false }) ∧
    (∀ i ∈ [Instr.enableMdatBufAuto, .wrCtrl 0x0007],
      WriteDone i .cs 0x40 0x50000040 0x0007 s { s.hw with ctrl := 0x0007, mdatAutoBufEn := true }) ∧
    (∀ i ∈ [Instr.disableMdatBufAuto, .wrCtrl 0x0008],
      WriteDone i .cs 0x40 0x50000040 0x0008 s { s.hw with ctrl := 0x0008, mdatAutoBufEn := false })

/-- R191, R192, R195, R359: the buffer commands leave the three MDAT buffer bits free, SW_Interrupt appends one
irq(Software) event; nothing else but the control register changes. As instructions of their own the command rows are
that control write by log 15. -/
def Obligations.BufferAndInterruptCommands : Prop :=
  ∀ s : State, Admitted .cs 0x40 s → (s.env.bus.at 0).ok = true →
    (∀ i ∈ [Instr.mdatBuf0, .wrCtrl 0x0005], ∃ a b c, WriteDone i .cs 0x40 0x50000040 0x0005 s
      { s.hw with ctrl := 0x0005, mdatBufSel := a, mdatBuf0En := b, mdatBuf1En := c }) ∧
    (∀ i ∈ [Instr.mdatBuf1, .wrCtrl 0x0006], ∃ a b c, WriteDone i .cs 0x40 0x50000040 0x0006 s
      { s.hw with ctrl := 0x0006, mdatBufSel := a, mdatBuf0En := b, mdatBuf1En := c }) ∧
    (∀ i ∈ [Instr.swInterrupt, .wrCtrl 0x0009], ∃ t, exec i s = .next t ∧
      t.hw = { s.hw with ctrl := 0x0009 } ∧ t.history = s.history ++ [.irqSoftware] ∧
      t.host = { s.host with log := s.host.log ++ [okTxn 0x50000040 0x0009],
                             returns := s.host.returns ++ [(s.host.current, .done)] } ∧
      t.cfg = s.cfg ∧ t.refused = s.refused)

/-- R61, R196, R391: SW_Reset leaves 0x00FF in the control register, the FIFO phase Idle, the identification bytes as
they were, a FIFO within its depth, and the host as it was; the command row by itself is that write by log 15. -/
def Obligations.SoftwareResetLeavesSpecValues : Prop :=
  ∀ s : State, Admitted .cs 0x40 s → (s.env.bus.at 0).ok = true →
    ∀ i ∈ [Instr.swReset, .wrCtrl 0x00FF], ∃ t, exec i s = .next t ∧
      t.hw.ctrl = 0x00FF ∧ t.hw.fifoPhase = .idle ∧ t.hw.idHi = s.hw.idHi ∧ t.hw.idLo = s.hw.idLo ∧
      t.hw.fifo.length ≤ s.cfg.fifoDepth ∧ t.history = s.history ∧ t.cfg = s.cfg ∧
      t.host = { s.host with log := s.host.log ++ [okTxn 0x50000040 0x00FF],
                             returns := s.host.returns ++ [(s.host.current, .done)] }

/-! ### Refused and failed transactions -/

/-- R12, R105, R151, R335, R368: a transaction without the lock, one outside its window, and a reserved command word
set the mark with their reason and change nothing else. Which reason goes first is log 25; the command rows are the
control write by log 15. -/
def Obligations.UnadmittedTransactionsAreRefused : Prop :=
  (∀ (i : Instr) (w : Window) (off : Nat) (s : State), txnPlace i = some (w, off) → off < s.cfg.windowSize w →
    s.host.lock ≠ .held s.host.current → exec i s = .next (s.markRefused .noLock)) ∧
  (∀ (i : Instr) (w : Window) (off : Nat) (s : State), txnPlace i = some (w, off) → s.cfg.windowSize w ≤ off →
    exec i s = .next (s.markRefused .outsideWindow)) ∧
  (∀ (v : Half) (s : State), Admitted .cs 0x40 s → ¬ (v ≤ 0x0009 ∨ v = 0x00FF) →
    exec (.wrCtrl v) s = .next (s.markRefused .reservedCommand))

/-- R153, R353, log 5: a failed transaction is logged as failed under its key, with the value it wrote or none for a
read (log 20), and returns BusAccessFailure; where the oracle says nothing happened, the hardware is unchanged. The
command rows are the control write by log 15. -/
def Obligations.FailedTransactionReturnsBusAccessFailure : Prop :=
  ∀ (i : Instr) (w : Window) (off : Nat) (s : State), txnPlace i = some (w, off) → Admitted w off s →
    (s.env.bus.at 0).ok = false → (∀ v, i = .wrCtrl v → v ≤ 0x0009 ∨ v = 0x00FF) →
    (i = .rdFifoHi ∨ i = .rdFifo32 → s.hw.fifoPhase = .idle) → (i = .rdFifoLo → s.hw.fifoPhase ≠ .idle) →
    ∃ t, exec i s = .next t ∧
      t.host.log = s.host.log ++ [{ key := txnKey i, value := txnWrites i, ok := false }] ∧
      Returned s.host.current (.error .busAccessFailure) t ∧ t.refused = s.refused ∧
      t.host.lock = s.host.lock ∧ t.host.drv = s.host.drv ∧
      ((s.env.bus.at 0).took = false → (s.env.bus.at 0).popped = false → (s.env.bus.at 0).flagged = false →
        t.hw = s.hw ∧ t.history = s.history)

/-- R81, R153 to R196, R203 to R205, R231 to R238, R263 to R267, R301, R308, R310: what each instruction leaves
unchanged of the hardware, on every path, successful, failed or refused. A control write changes its own command's
fields alone (R185), as that command's row does (log 15). -/
def Obligations.InstructionsChangeOnlyWhatTheirRuleNames : Prop :=
  ∀ (i : Instr) (s t : State), exec i s = .next t → HwFrame i s.hw t.hw

/-! ### The FIFO data register -/

/-- R181, R182, R184: the high half of the head record, then its low half, which pops it; of an empty FIFO the halves
of the empty-read value, with the underflow flag. Where a failed half read lost the record that a low half is due from,
the low half is a free value (log 16) and the phase is Idle again. -/
def Obligations.HalfReadsDeliverTheHeadRecord : Prop :=
  (∀ s : State, Admitted .ev 0x1200 s → (s.env.bus.at 0).ok = true → s.hw.fifoPhase = .idle →
    (∀ r rest, s.hw.fifo = r :: rest → ∃ t, exec .rdFifoHi s = .next t ∧
      t.hw = { s.hw with fifoPhase := .highRead } ∧ Returned s.host.current (.word (r >>> 16)) t ∧
      t.host.log = s.host.log ++ [okTxn 0x90001200 ((r >>> 16).setWidth 16)]) ∧
    (s.hw.fifo = [] → ∃ t, exec .rdFifoHi s = .next t ∧
      t.hw = { s.hw with fifoUnderflow := true, fifoPhase := .highReadEmpty } ∧
      Returned s.host.current (.word (s.cfg.emptyReadValue >>> 16)) t)) ∧
  (∀ s : State, Admitted .ev 0x1202 s → (s.env.bus.at 0).ok = true →
    (∀ r rest, s.hw.fifoPhase = .highRead → s.hw.fifo = r :: rest → ∃ t, exec .rdFifoLo s = .next t ∧
      t.hw = { s.hw with fifo := rest, fifoPhase := .idle } ∧
      Returned s.host.current (.word (r &&& 0xFFFF)) t ∧
      t.host.log = s.host.log ++ [okTxn 0x90001202 (r.setWidth 16)]) ∧
    (s.hw.fifoPhase = .highRead → s.hw.fifo = [] → ∃ t w, exec .rdFifoLo s = .next t ∧
      t.hw = { s.hw with fifoPhase := .idle } ∧ Returned s.host.current (.word (BitVec.setWidth 32 w)) t ∧
      t.host.log = s.host.log ++ [okTxn 0x90001202 w]) ∧
    (s.hw.fifoPhase = .highReadEmpty → ∃ t, exec .rdFifoLo s = .next t ∧
      t.hw = { s.hw with fifoPhase := .idle } ∧
      Returned s.host.current (.word (s.cfg.emptyReadValue &&& 0xFFFF)) t))

/-- R181, R182, R338, R396: half reads out of order are refused. -/
def Obligations.HalfReadsOutOfOrderAreRefused : Prop :=
  ∀ s : State,
    (Admitted .ev 0x1200 s → s.hw.fifoPhase ≠ .idle →
      exec .rdFifoHi s = .next (s.markRefused .fifoHalfOrder) ∧
      exec .rdFifo32 s = .next (s.markRefused .fifoHalfOrder)) ∧
    (Admitted .ev 0x1202 s → s.hw.fifoPhase = .idle → exec .rdFifoLo s = .next (s.markRefused .fifoHalfOrder))

/-- R183, R110, R46, R269: the paired read returns and removes the head record, whatever the agents do between its
halves while the clear line does not flush (they only append), and with a flushing clear line where they do not step.
Where it may flush between the halves (R311), the low half is the record's or the empty-read value's (R182). On the
empty FIFO the read returns the empty-read value. -/
def Obligations.PairedReadReturnsTheHeadRecord : Prop :=
  ∀ s : State, s.cfg.Valid → s.host.lock = .held s.host.current → BusOk 2 s → s.hw.fifoPhase = .idle →
    (∀ r rest, s.hw.fifo = r :: rest → s.cfg.clearAlsoFlushes = false ∨ s.env.gaps = [] →
      ∃ t newer, exec .rdFifo32 s = .next t ∧ t.hw.fifo = rest ++ newer ∧ t.hw.fifoPhase = .idle ∧
        Returned s.host.current (.word r) t ∧ t.hw.registers = s.hw.registers ∧
        t.host.log = s.host.log ++ [okTxn 0x90001200 ((r >>> 16).setWidth 16), okTxn 0x90001202 (r.setWidth 16)] ∧
        t.host.lock = s.host.lock ∧ t.host.drv = s.host.drv) ∧
    (∀ r rest, s.hw.fifo = r :: rest → s.cfg.clearAlsoFlushes = true →
      ∃ t lo, exec .rdFifo32 s = .next t ∧ (lo = r.setWidth 16 ∨ lo = s.cfg.emptyReadValue.setWidth 16) ∧
        t.hw.fifoPhase = .idle ∧ Returned s.host.current (.word ((r.extractLsb' 16 16) ++ lo)) t ∧
        t.hw.registers = s.hw.registers ∧
        t.host.log = s.host.log ++ [okTxn 0x90001200 ((r >>> 16).setWidth 16), okTxn 0x90001202 lo] ∧
        t.host.lock = s.host.lock ∧ t.host.drv = s.host.drv) ∧
    (s.hw.fifo = [] →
      ∃ t, exec .rdFifo32 s = .next t ∧ t.hw.fifoPhase = .idle ∧
        Returned s.host.current (.word s.cfg.emptyReadValue) t ∧ t.hw.registers = s.hw.registers ∧
        t.hw.fifoUnderflow = true ∧ t.host.lock = s.host.lock)

/-! ### Host operations -/

/-- R202, R263, R264, R265, R352: operands out of range return InvalidParameter and do nothing else. -/
def Obligations.InvalidParametersTouchNothing : Prop :=
  ∀ (i : Instr) (n : Nat) (s : State), isCollectingCall i = true → paramsOk i = false →
    s.host.current = .task n → s.host.drv = .collecting →
    exec i s = .next (s.giveReturn (.error .invalidParameter))

/-- R231, R239, R241, R360: calls outside their driver state are refused; from the interrupt context by log 10; a
sub-step in its own driver state without the lock by log 12. -/
def Obligations.CallsOutsideTheirDriverStateAreRefused : Prop :=
  (∀ (i : Instr) (n : Nat) (s : State), isCollectingCall i = true → s.host.current = .task n →
    s.host.drv ≠ .collecting → exec i s = .next (s.markRefused .wrongDriverState)) ∧
  (∀ (n : Nat) (s : State), s.host.current = .task n → s.host.drv ≠ .uninitialized →
    exec .construct s = .next (s.markRefused .notUninitialized)) ∧
  (∀ (i : Instr) (d : DriverState) (n : Nat) (s : State), subStepState i = some d → s.host.current = .task n →
    s.host.drv ≠ d → exec i s = .next (s.markRefused .wrongDriverState)) ∧
  (∀ (i : Instr) (d : DriverState) (n : Nat) (s : State), subStepState i = some d → s.host.current = .task n →
    s.host.drv = d → s.host.lock ≠ .held (.task n) → exec i s = .next (s.markRefused .noLock)) ∧
  (∀ (i : Instr) (s : State), isCollectingCall i = true ∨ i = .construct ∨ (subStepState i).isSome = true →
    s.host.current = .isr → exec i s = .next (s.markRefused .interruptContext))

/-- R331, R336, log 8: a call that finds the lock held makes its task wait and does nothing else. -/
def Obligations.CallsWaitForTheLock : Prop :=
  ∀ (i : Instr) (n : Nat) (k : HostContext) (s : State), s.host.current = .task n → s.host.lock = .held k →
    ((isCollectingCall i = true ∧ paramsOk i = true ∧ s.host.drv = .collecting) ∨
      (i = .construct ∧ s.host.drv = .uninitialized)) →
    exec i s = .next (s.block n i)

/-- R230, R333, R353, R354: every public operation releases the lock on every path, leaves the driver in Collecting and
returns to its caller last; it stops at its first failing transaction, issues none after it and returns
BusAccessFailure, the only error it returns once its operands are in range. -/
def Obligations.CallsReleaseTheLock : Prop :=
  ∀ (i : Instr) (n : Nat) (s : State), isCollectingCall i = true → paramsOk i = true → ReadyToCall n s →
    ∃ t r issued, exec i s = .next t ∧ t.host.lock = .free ∧ t.host.drv = .collecting ∧ Returned (.task n) r t ∧
      t.host.log = s.host.log ++ issued ∧ (∀ e ∈ issued.dropLast, e.ok = true) ∧
      ((∃ e ∈ issued, e.ok = false) → r = .error .busAccessFailure) ∧
      (∀ e, r = .error e → e = .busAccessFailure)

/-- R203, R208: SET_TRIGGER changes one bit of one entry, in three transactions, whatever the agents do between. R152:
where the confirm read does not pass the comparison (bits 15..8 not stored, or another rule; log 18), it returns
BusAccessFailure. R353: a failing read ends it with the table as it was; a failing confirm read leaves the write. -/
def Obligations.SetTriggerChangesOneBit : Prop :=
  ∀ (n : Nat) (code b : Byte) (enabled : Bool) (s : State), ReadyToCall n s → b.toNat ≤ 7 → s.cfg.Valid →
    (s.cfg.ttHighBitsStored = true → s.cfg.confirmRule = .standard → BusOk 3 s →
      ∃ t m', exec (.setTrigger code b enabled) s = .next t ∧ Returned (.task n) .done t ∧
        t.hw.registers = { s.hw.registers with tt := t.hw.tt } ∧
        ttEntry t.hw.tt code = m' ∧ (∀ c, c ≠ code → ttEntry t.hw.tt c = ttEntry s.hw.tt c) ∧
        (∀ j, j < 16 → m'.getLsbD j = if j = b.toNat then enabled else (ttEntry s.hw.tt code).getLsbD j) ∧
        t.host.log = s.host.log ++
          [okTxn (0x90000000 + BitVec.ofNat 32 (2 * code.toNat)) (ttEntry s.hw.tt code),
           okTxn (0xD0000000 + BitVec.ofNat 32 (2 * code.toNat)) m',
           okTxn (0x90000000 + BitVec.ofNat 32 (2 * code.toNat)) m'] ∧
        t.host.lock = .free ∧ t.host.drv = .collecting) ∧
    (BusOk 3 s →
      ∃ t w v rb, exec (.setTrigger code b enabled) s = .next t ∧
        t.host.log = s.host.log ++
          [okTxn (0x90000000 + BitVec.ofNat 32 (2 * code.toNat)) w,
           okTxn (0xD0000000 + BitVec.ofNat 32 (2 * code.toNat)) v,
           okTxn (0x90000000 + BitVec.ofNat 32 (2 * code.toNat)) rb] ∧
        (s.cfg.confirmRule = .standard → Returned (.task n) (if rb = v then .done else .error .busAccessFailure) t) ∧
        (s.cfg.confirmRule = .other → Returned (.task n)
          (if Config.otherConfirm .ev (2 * code.toNat) v rb = true then .done else .error .busAccessFailure) t) ∧
        (∀ j, j < 8 → w.getLsbD j = (ttEntry s.hw.tt code).getLsbD j) ∧
        (∀ j, j < 16 → v.getLsbD j = if j = b.toNat then enabled else w.getLsbD j) ∧
        (∀ j, j < 8 → rb.getLsbD j = v.getLsbD j ∧ (ttEntry t.hw.tt code).getLsbD j = v.getLsbD j) ∧
        (∀ c, c ≠ code → ttEntry t.hw.tt c = ttEntry s.hw.tt c) ∧ t.host.lock = .free ∧ t.host.drv = .collecting) ∧
    ((s.env.bus.at 0).ok = false →
      ∃ t, exec (.setTrigger code b enabled) s = .next t ∧ Returned (.task n) (.error .busAccessFailure) t ∧
        t.host.log = s.host.log ++
          [{ key := 0x90000000 + BitVec.ofNat 32 (2 * code.toNat), value := none, ok := false }] ∧
        t.hw.registers = s.hw.registers ∧ t.host.lock = .free ∧ t.host.drv = .collecting) ∧
    (BusOk 2 s → (s.env.bus.at 2).ok = false →
      ∃ t w v, exec (.setTrigger code b enabled) s = .next t ∧ Returned (.task n) (.error .busAccessFailure) t ∧
        t.host.log = s.host.log ++
          [okTxn (0x90000000 + BitVec.ofNat 32 (2 * code.toNat)) w,
           okTxn (0xD0000000 + BitVec.ofNat 32 (2 * code.toNat)) v,
           { key := 0x90000000 + BitVec.ofNat 32 (2 * code.toNat), value := none, ok := false }] ∧
        (∀ j, j < 8 → (ttEntry t.hw.tt code).getLsbD j =
          if j = b.toNat then enabled else (ttEntry s.hw.tt code).getLsbD j) ∧
        (∀ c, c ≠ code → ttEntry t.hw.tt c = ttEntry s.hw.tt c) ∧ t.host.lock = .free ∧ t.host.drv = .collecting)

/-- R204: GET_TRIGGER returns the bit, in one transaction that reads bits 7..0 of the entry, and writes no register. -/
def Obligations.GetTriggerReturnsTheBit : Prop :=
  ∀ (n : Nat) (code b : Byte) (s : State), ReadyToCall n s → b.toNat ≤ 7 → s.cfg.Valid → BusOk 1 s →
    ∃ t w, exec (.getTrigger code b) s = .next t ∧
      Returned (.task n) (.truth ((ttEntry s.hw.tt code).getLsbD b.toNat)) t ∧
      t.hw.registers = s.hw.registers ∧
      t.host.log = s.host.log ++ [okTxn (0x90000000 + BitVec.ofNat 32 (2 * code.toNat)) w] ∧
      (∀ j, j < 8 → w.getLsbD j = (ttEntry s.hw.tt code).getLsbD j) ∧
      t.host.lock = .free ∧ t.host.drv = .collecting

/-- R208: a bit that was set or cleared is read back so, for every code, bit and agent step between. -/
def Obligations.SetThenGetRoundTrips : Prop :=
  ∀ (n : Nat) (code b : Byte) (enabled : Bool) (s : State), ReadyToCall n s → b.toNat ≤ 7 → s.cfg.Valid →
    s.cfg.ttHighBitsStored = true → s.cfg.confirmRule = .standard → BusOk 4 s →
    ∃ t u, exec (.setTrigger code b enabled) s = .next t ∧ exec (.getTrigger code b) t = .next u ∧
      Returned (.task n) .done t ∧ Returned (.task n) (.truth enabled) u

/-- R111, R263, R264, R265: the selector operations write the line plus the offset, SET_FIFO_THRESHOLD the literal
level, each confirmed, and none clears an edge flag it finds set; with the default offset the selector then selects that
line. -/
def Obligations.SelectorAndThresholdOperations : Prop :=
  ∀ (n : Nat) (v : Byte) (s : State), ReadyToCall n s → 1 ≤ v.toNat → s.cfg.Valid → s.cfg.confirmRule = .standard →
    BusOk 2 s →
    (v.toNat ≤ 7 → ∃ t, exec (.setResetTimestampTrigger v) s = .next t ∧ Returned (.task n) .done t ∧
      t.hw.registers = { s.hw.registers with clrTrigSel := BitVec.ofNat 8 (v.toNat + s.cfg.selOffset) } ∧
      (∀ f ∈ edgeFlags, f s.hw = true → f t.hw = true) ∧
      t.host.lock = .free ∧ t.host.drv = .collecting ∧ t.host.log = s.host.log ++
        [okTxn 0x4000004B (BitVec.ofNat 16 ((v.toNat + s.cfg.selOffset) % 256)),
         okTxn 0x0000004B (BitVec.ofNat 16 ((v.toNat + s.cfg.selOffset) % 256))]) ∧
    (v.toNat ≤ 7 → ∃ t, exec (.setWriteTrigger v) s = .next t ∧ Returned (.task n) .done t ∧
      t.hw.registers = { s.hw.registers with wrTrigSel := BitVec.ofNat 8 (v.toNat + s.cfg.selOffset) } ∧
      (∀ f ∈ edgeFlags, f s.hw = true → f t.hw = true) ∧
      t.host.lock = .free ∧ t.host.drv = .collecting ∧ t.host.log = s.host.log ++
        [okTxn 0x4000004A (BitVec.ofNat 16 ((v.toNat + s.cfg.selOffset) % 256)),
         okTxn 0x0000004A (BitVec.ofNat 16 ((v.toNat + s.cfg.selOffset) % 256))]) ∧
    (v.toNat ≤ 7 → s.cfg.selOffset = 1 →
      selLine s.cfg.selOffset (BitVec.ofNat 8 (v.toNat + s.cfg.selOffset)) = .line v.toNat) ∧
    (∃ t, exec (.setFifoThreshold v) s = .next t ∧ Returned (.task n) .done t ∧
      t.hw.registers = { s.hw.registers with threshold := v.setWidth 16 } ∧
      (∀ f ∈ edgeFlags, f s.hw = true → f t.hw = true) ∧ t.host.lock = .free ∧ t.host.drv = .collecting ∧
      t.host.log = s.host.log ++ [okTxn 0x5000004C (v.setWidth 16), okTxn 0x1000004C (v.setWidth 16)])

/-- R266, R268: READ_STATUS returns the snapshot and clears the edge flags it shows; with no agent step in between all
five are clear afterwards and nothing else of the hardware changed. R400: whatever the agents do between (log 6), an
edge flag clear in the snapshot and set when the write-back is issued survives it (where a status read clears nothing:
the confirm read is one); so does a parity error that arrives in that gap. -/
def Obligations.ReadStatusReturnsAndClears : Prop :=
  ∀ (n : Nat) (s : State), ReadyToCall n s → s.cfg.Valid → s.cfg.confirmRule = .standard → BusOk 3 s →
    (s.env.gaps = [] →
      ∃ t bit15 w2, exec .readStatus s = .next t ∧
        Returned (.task n) (.flags (statusFlags (statusWord s.cfg.fifoDepth s.hw bit15))) t ∧
        t.hw = { s.hw with mdatParityErr := false, fifoUnderflow := false, fifoOverflow := false,
                           fifoThreshold := false, tclkParityErr := false } ∧
        t.host.lock = .free ∧
        t.host.log = s.host.log ++
          [okTxn 0x10000042 (statusWord s.cfg.fifoDepth s.hw bit15),
           okTxn 0x50000042 (statusWord s.cfg.fifoDepth s.hw bit15), okTxn 0x10000042 w2]) ∧
    (∃ t w w2 bit15, exec .readStatus s = .next t ∧ Returned (.task n) (.flags (statusFlags w)) t ∧
      w = statusWord s.cfg.fifoDepth (snapshotState n s).hw bit15 ∧
      t.host.log = s.host.log ++ [okTxn 0x10000042 w, okTxn 0x50000042 w, okTxn 0x10000042 w2] ∧
      t.hw.registers = s.hw.registers ∧ t.host.lock = .free ∧ t.host.drv = .collecting ∧
      (s.cfg.statusClearOnRead = false → ∀ f ∈ edgeFlags,
        f (snapshotState n s).hw = false → f (writeBackState n s).hw = true → f t.hw = true) ∧
      (∀ tp mp mpe rest, s.env.gaps = [] :: [.input tp mp true mpe] :: rest → s.cfg.statusClearOnRead = false →
        s.hw.tclkParityErr = false → t.hw.tclkParityErr = true))

/-- R267, R269, R395, R397: DRAIN_ONE_EVENT returns the decoded head record and removes it, whatever the agents do
between its transactions while the clear line does not flush (they only append), and with a flushing clear line where
they do not step; on an empty FIFO (no agent stepping before the status read) it reads the status register alone and
returns Empty. In every case it returns Empty after the status read alone, or what the two halves it read decode to. -/
def Obligations.DrainReturnsTheOldestRecord : Prop :=
  ∀ (n : Nat) (s : State), ReadyToCall n s → s.cfg.Valid →
    (∀ (r : Word) (rest : List Word), s.cfg.clearAlsoFlushes = false ∨ s.env.gaps = [] → BusOk 3 s →
      s.hw.fifoPhase = .idle → s.hw.fifo = r :: rest →
      ∃ t newer w, exec .drainOneEvent s = .next t ∧ t.hw.fifo = rest ++ newer ∧ t.hw.fifoPhase = .idle ∧
        Returned (.task n) (if r = 0xFFFFFFFF then .empty
          else .event (BitVec.ofNat 8 (r.toNat % 256)) (BitVec.ofNat 24 (r.toNat / 256))) t ∧
        t.hw.registers = s.hw.registers ∧ t.host.lock = .free ∧ t.host.drv = .collecting ∧
        t.host.log = s.host.log ++ [okTxn 0x10000042 w, okTxn 0x90001200 ((r >>> 16).setWidth 16),
          okTxn 0x90001202 (r.setWidth 16)]) ∧
    (BusOk 3 s → s.hw.fifoPhase = .idle →
      ∃ t w, exec .drainOneEvent s = .next t ∧ t.hw.fifoPhase = .idle ∧ t.hw.registers = s.hw.registers ∧
        t.host.lock = .free ∧ t.host.drv = .collecting ∧
        ((Returned (.task n) .empty t ∧ w.getLsbD 8 = true ∧ t.host.log = s.host.log ++ [okTxn 0x10000042 w]) ∨
         (∃ hi lo, Returned (.task n) (recordResult (hi ++ lo)) t ∧ w.getLsbD 8 = false ∧
           t.host.log = s.host.log ++ [okTxn 0x10000042 w, okTxn 0x90001200 hi, okTxn 0x90001202 lo]))) ∧
    (BusOk 1 s → s.env.gaps = [] → s.hw.fifo = [] →
      ∃ t w, exec .drainOneEvent s = .next t ∧ Returned (.task n) .empty t ∧
        t.host.log = s.host.log ++ [okTxn 0x10000042 w] ∧ t.host.lock = .free ∧ t.host.drv = .collecting ∧
        (s.cfg.statusClearOnRead = false → t.hw = s.hw) ∧ t.hw.fifo = [] ∧ t.hw.fifoPhase = s.hw.fifoPhase)

/-! ### Construction -/

/-- R232 to R235, R238, R230, log 12: the sub-steps inside CONSTRUCT; a probe of another module issues its two reads
and nothing else. -/
def Obligations.ConstructionSubStepsComplete : Prop :=
  ∀ (n : Nat) (s : State), s.cfg.Valid → s.cfg.confirmRule = .standard → BusOk 2 s →
    (InsideConstruct n .probing s → s.hw.idHi = 0xBB → s.hw.idLo = 0x15 →
      ∃ t, exec .probe s = .next t ∧ t.host.drv = .resetting ∧ Returned (.task n) .done t ∧
        t.hw.registers = s.hw.registers ∧ t.host.lock = .held (.task n) ∧
        t.host.log = s.host.log ++ [okTxn 0x00000089 0x00BB, okTxn 0x0000008B 0x0015]) ∧
    (InsideConstruct n .probing s → ¬ (s.hw.idHi = 0xBB ∧ s.hw.idLo = 0x15) →
      ∃ t, exec .probe s = .next t ∧ t.host.drv = .failed ∧
        Returned (.task n) (.error .deviceNotFound) t ∧ t.hw.registers = s.hw.registers ∧ t.host.lock = .free ∧
        t.host.log = s.host.log ++
          [okTxn 0x00000089 (s.hw.idHi.setWidth 16), okTxn 0x0000008B (s.hw.idLo.setWidth 16)]) ∧
    (InsideConstruct n .resetting s →
      ∃ t, exec .resetModule s = .next t ∧ t.host.drv = .configuringTriggers ∧ Returned (.task n) .done t ∧
        t.hw.ctrl = 0x00FF ∧ t.hw.fifoPhase = .idle ∧ t.host.lock = .held (.task n) ∧
        t.host.log = s.host.log ++ [okTxn 0x50000040 0x00FF, okTxn 0x10000040 0x00FF]) ∧
    (InsideConstruct n .configuringTriggers s →
      ∃ t, exec .startCollecting s = .next t ∧ t.host.drv = .collecting ∧ Returned (.task n) .done t ∧
        t.hw.registers = { s.hw.registers with ctrl := 0x0001, tclkEnabled := true } ∧
        t.host.lock = .held (.task n) ∧
        t.host.log = s.host.log ++ [okTxn 0x50000040 0x0001, okTxn 0x10000040 0x0001])

/-- R205, R236, as sub-steps of their own by log 12: clearing the table and configuring the triggers write every entry
to 0, in ascending order, each write followed by its confirm read, whatever the agents do between the 512 or 516
transactions. -/
def Obligations.TableIsClearedEntryByEntry : Prop :=
  ∀ (n : Nat) (s : State), s.cfg.Valid → s.cfg.confirmRule = .standard → s.cfg.ttHighBitsStored = true →
    InsideConstruct n .configuringTriggers s →
    (BusOk 512 s → ∃ t, exec .clearTriggerTable s = .next t ∧ Returned (.task n) .done t ∧
      (∀ c, ttEntry t.hw.tt c = 0x0000) ∧ t.hw.registers = { s.hw.registers with tt := t.hw.tt } ∧
      t.host.log = s.host.log ++ tableLog ∧
      t.host.drv = .configuringTriggers ∧ t.host.lock = .held (.task n)) ∧
    (BusOk 516 s → ∃ t, exec .configureTriggers s = .next t ∧ Returned (.task n) .done t ∧
      (∀ c, ttEntry t.hw.tt c = 0x0000) ∧
      t.hw.registers = { s.hw.registers with wrTrigSel := 0x00, clrTrigSel := 0x00, tt := t.hw.tt } ∧
      t.host.log = s.host.log ++ selectorLog ++ tableLog ∧
      t.host.drv = .configuringTriggers ∧ t.host.lock = .held (.task n))

/-- R231, R236 to R238, R393 (95 program P1): a construction on a genuine module whose transactions all succeed
writes exactly the listed sequence and ends in Collecting, whatever the agents do between its 522 transactions. -/
def Obligations.ConstructionSucceeds : Prop :=
  ∀ (n : Nat) (s : State), s.host.current = .task n → s.host.drv = .uninitialized → s.host.lock = .free →
    s.cfg.Valid → s.cfg.confirmRule = .standard → s.cfg.ttHighBitsStored = true → s.hw.idHi = 0xBB → s.hw.idLo = 0x15 →
    BusOk 522 s →
    ∃ t, exec .construct s = .next t ∧ Returned (.task n) .done t ∧ t.host.drv = .collecting ∧
      t.host.lock = .free ∧ t.host.log = s.host.log ++ constructionLog 0xBB 0x15 ∧
      t.hw.ctrl = 0x0001 ∧ t.hw.tclkEnabled = true ∧ t.hw.wrTrigSel = 0x00 ∧ t.hw.clrTrigSel = 0x00 ∧
      (∀ c, ttEntry t.hw.tt c = 0x0000) ∧ t.hw.idHi = 0xBB ∧ t.hw.idLo = 0x15

/-- R234, R351: a construction on a module with another ID reads both bytes, writes nothing and fails. -/
def Obligations.WrongModuleIsLeftUntouched : Prop :=
  ∀ (n : Nat) (s : State), s.host.current = .task n → s.host.drv = .uninitialized → s.host.lock = .free →
    s.cfg.Valid → ¬ (s.hw.idHi = 0xBB ∧ s.hw.idLo = 0x15) → BusOk 2 s →
    ∃ t, exec .construct s = .next t ∧ Returned (.task n) (.error .deviceNotFound) t ∧ t.host.drv = .failed ∧
      t.host.lock = .free ∧ t.hw.registers = s.hw.registers ∧
      t.host.log = s.host.log ++ [okTxn 0x00000089 (s.hw.idHi.setWidth 16), okTxn 0x0000008B (s.hw.idLo.setWidth 16)]

/-- R231, R239, R240, R353: CONSTRUCT ends in Collecting with success or in Failed with an error, the lock released,
whatever the bus and the agents do; it stops at its first failing transaction and issues none after it. -/
def Obligations.ConstructionEndsOneWayOrTheOther : Prop :=
  ∀ (n : Nat) (s : State), s.host.current = .task n → s.host.drv = .uninitialized → s.host.lock = .free →
    s.cfg.Valid →
    ∃ t issued, exec .construct s = .next t ∧ t.host.lock = .free ∧
      t.host.log = s.host.log ++ issued ∧ (∀ e ∈ issued.dropLast, e.ok = true) ∧
      ((t.host.drv = .collecting ∧ Returned (.task n) .done t ∧ ∀ e ∈ issued, e.ok = true) ∨
       (t.host.drv = .failed ∧ (Returned (.task n) (.error .busAccessFailure) t ∨
          Returned (.task n) (.error .deviceNotFound) t ∧ ∀ e ∈ issued, e.ok = true)))

/-! ### The lock -/

/-- R331, R332, R333: what the three lock operations do on a free and on a held lock; LOCK_TASK from the interrupt
context (log 10), and both in Failed (R239; log 11), are refused. -/
def Obligations.LockOperations : Prop :=
  ∀ (s : State) (n : Nat) (k : HostContext),
    (s.host.current = .task n → s.host.drv ≠ .failed → s.host.lock = .free →
      exec .lockTask s = .next ((s.setLock (.held (.task n))).giveReturn .done)) ∧
    (s.host.current = .task n → s.host.drv ≠ .failed → s.host.lock = .held k →
      exec .lockTask s = .next (s.block n .lockTask)) ∧
    (s.host.current = .isr → exec .lockTask s = .next (s.markRefused .interruptContext)) ∧
    (s.host.current = .task n → s.host.drv = .failed → exec .lockTask s = .next (s.markRefused .wrongDriverState)) ∧
    (s.host.drv ≠ .failed → s.host.lock = .free →
      exec .lockIsr s = .next ((s.setLock (.held .isr)).returnTo .isr .acquired)) ∧
    (s.host.drv ≠ .failed → s.host.lock = .held k → exec .lockIsr s = .next (s.returnTo .isr .busy)) ∧
    (s.host.drv = .failed → exec .lockIsr s = .next (s.refuseTo .isr .wrongDriverState)) ∧
    (s.host.lock = .held s.host.current → exec .unlock s = .next ((s.setLock .free).giveReturn .done)) ∧
    (s.host.lock ≠ .held s.host.current → exec .unlock s = .next (s.markRefused .notLockHolder))

/-! ### The event capture path -/

/-- R313: while TCLK is disabled a TCLK event changes nothing; the other two agent steps still run and keep the
FIFO's contents. -/
def Obligations.DisabledTclkEventChangesNothing : Prop :=
  ∀ (s : State) (code : Byte) (tp mp tpe mpe : Bool), s.hw.tclkEnabled = false →
    exec (.evtTclk code) s = .next s ∧
    (∃ t, exec .evtTick s = .next t ∧ t.hw.tsCounter = s.hw.tsCounter + 1 ∧ t.hw.fifo = s.hw.fifo ∧
      t.hw.tclkEnabled = false) ∧
    (∃ t, exec (.evtInput tp mp tpe mpe) s = .next t ∧ t.hw.tclkPresent = tp ∧ t.hw.mdatPresent = mp ∧
      t.hw.fifo = s.hw.fifo ∧ t.hw.tclkEnabled = false)

/-- R301, R302, R303, R305, R307: an enabled TCLK event asserts its routed lines once; captured (every event under
`any`, under `routed` an event on the write-selected line) and with room in the FIFO it is the record of its code and
the counter, appended at the tail, and the threshold flag follows its rule, for a threshold of 0 or above the depth it
may only become set. Under `routed` an event off the write-selected line, or with the selector 0, changes nothing of the
hardware. Here the clear selector is neutral. -/
def Obligations.CapturedEventIsAppended : Prop :=
  ∀ (s : State) (code : Byte), s.hw.tclkEnabled = true → s.hw.clrTrigSel = 0 →
    (SurelyCaptured code s → s.hw.fifo.length ≠ s.cfg.fifoDepth →
      ∃ t b, exec (.evtTclk code) s = .next t ∧
        t.history = s.history ++ [.trig code ((ttEntry s.hw.tt code).setWidth 8)] ∧
        t.hw = { s.hw with
          fifo := s.hw.fifo ++ [BitVec.ofNat 32 (s.hw.tsCounter.toNat * 256 + code.toNat)], fifoThreshold := b } ∧
        (s.hw.threshold.toNat = 0 ∨ s.cfg.fifoDepth < s.hw.threshold.toNat → s.hw.fifoThreshold = true → b = true) ∧
        (1 ≤ s.hw.threshold.toNat → s.hw.threshold.toNat ≤ s.cfg.fifoDepth → s.cfg.threshRule = .crossing →
          b = (s.hw.fifoThreshold || decide (s.hw.fifo.length < s.hw.threshold.toNat ∧
            s.hw.threshold.toNat ≤ s.hw.fifo.length + 1))) ∧
        (1 ≤ s.hw.threshold.toNat → s.hw.threshold.toNat ≤ s.cfg.fifoDepth → s.cfg.threshRule = .atOrAbove →
          b = (s.hw.fifoThreshold || decide (s.hw.threshold.toNat ≤ s.hw.fifo.length + 1))) ∧
        t.host = s.host) ∧
    (SurelyPassed code s → ∃ t, exec (.evtTclk code) s = .next t ∧ t.hw = s.hw ∧ t.host = s.host ∧
      t.history = s.history ++ [.trig code ((ttEntry s.hw.tt code).setWidth 8)])

/-- R302 to R307, R309, R311: every TCLK event, captured or not, full or not, asserts its routed lines once; it appends
at most one record at the tail, drops it with the overflow flag when the FIFO is full, resets the counter to 0 or leaves
it, and never clears a flag. On the clear-selected line it leaves the counter at 0, whichever of reset and capture comes
first, and where the clear line also flushes, the old records are gone and a half read in progress becomes one of the
empty FIFO. -/
def Obligations.EventsOnlyAppend : Prop :=
  ∀ (s : State) (code : Byte), s.hw.tclkEnabled = true → ∃ t, exec (.evtTclk code) s = .next t ∧
    t.host = s.host ∧ t.history = s.history ++ [.trig code ((ttEntry s.hw.tt code).setWidth 8)] ∧
    (t.hw.tsCounter = s.hw.tsCounter ∨ t.hw.tsCounter = 0) ∧
    (OffLine s.cfg s.hw.clrTrigSel (ttEntry s.hw.tt code) → t.hw.tsCounter = s.hw.tsCounter) ∧
    (OnLine s.cfg s.hw.clrTrigSel (ttEntry s.hw.tt code) → t.hw.tsCounter = 0) ∧
    (s.cfg.clearAlsoFlushes = false ∨ OffLine s.cfg s.hw.clrTrigSel (ttEntry s.hw.tt code) →
      t.hw.fifoPhase = s.hw.fifoPhase ∧
      (t.hw.fifo = s.hw.fifo ∨ ∃ stamp : Stamp, (stamp = s.hw.tsCounter ∨ stamp = 0) ∧
        t.hw.fifo = s.hw.fifo ++ [encodeRecord code stamp]) ∧
      (SurelyCaptured code s → s.hw.fifo.length ≠ s.cfg.fifoDepth → t.hw.fifo ≠ s.hw.fifo) ∧
      (SurelyPassed code s → t.hw.fifo = s.hw.fifo) ∧
      (s.hw.fifo.length = s.cfg.fifoDepth → t.hw.fifo = s.hw.fifo ∧
        t.hw.fifoThreshold = s.hw.fifoThreshold ∧ (SurelyCaptured code s → t.hw.fifoOverflow = true))) ∧
    (s.cfg.clearAlsoFlushes = true → OnLine s.cfg s.hw.clrTrigSel (ttEntry s.hw.tt code) →
      (t.hw.fifo = [] ∨ t.hw.fifo = [encodeRecord code 0]) ∧
      (SurelyPassed code s → t.hw.fifo = []) ∧
      t.hw.fifoPhase = (if s.hw.fifoPhase = .highRead then .highReadEmpty else s.hw.fifoPhase)) ∧
    (SurelyPassed code s → t.hw.fifoOverflow = s.hw.fifoOverflow ∧ t.hw.fifoThreshold = s.hw.fifoThreshold) ∧
    (s.hw.fifoOverflow = true → t.hw.fifoOverflow = true) ∧
    (s.hw.fifoThreshold = true → t.hw.fifoThreshold = true)

/-- R308, R310, R359: the timebase counts modulo 2^24 and sets no flag; an input change sets presence, raises parity
flags, and may switch the buffer and request an interrupt. -/
def Obligations.TimebaseAndInputSteps : Prop :=
  ∀ (s : State) (tp mp tpe mpe : Bool),
    exec .evtTick s = .next { s with hw := { s.hw with
      tsCounter := BitVec.ofNat 24 ((s.hw.tsCounter.toNat + 1) % 2 ^ 24) } } ∧
    ∃ t sel, exec (.evtInput tp mp tpe mpe) s = .next t ∧
      t.hw = { s.hw with tclkPresent := tp, mdatPresent := mp, tclkParityErr := s.hw.tclkParityErr || tpe,
                         mdatParityErr := s.hw.mdatParityErr || mpe, mdatBufSel := sel } ∧
      (s.hw.mdatAutoBufEn = false → sel = s.hw.mdatBufSel) ∧
      (t.history = s.history ∨ t.history = s.history ++ [.irqMdat]) ∧ t.host = s.host
end

