-- ==== Sys2Proof/Laws/State.lean ====
section
/-! SUPPORT. One lemma per field per update of the state, true by rfl, and the small laws of the draw streams. -/

namespace Sys2Proof.Machine

theorem BusStream.at_next (b : BusStream) (j : Nat) : b.next.at j = b.at (j + 1) := by
  cases b with
  | mk given used => cases given <;> simp [BusStream.at, BusStream.next, Nat.add_assoc, Nat.add_comm 1 j]

/-- The transactions after the first of `n + 1` successful ones succeed too. -/
theorem BusOk.first {n : Nat} {s : State} (h : BusOk (n + 1) s) : (s.env.bus.at 0).ok = true := h 0 (Nat.succ_pos n)

theorem BusOk.first' {n : Nat} {s : State} (h : BusOk (n + 1) s) : BusOk 1 s := fun j hj => h j (by omega)

theorem BusOk.rest {n : Nat} {s t : State} (h : BusOk (n + 1) s) (e : t.env.bus = s.env.bus.next) : BusOk n t := by
  intro j hj
  rw [e, BusStream.at_next]
  exact h (j + 1) (Nat.succ_lt_succ hj)

namespace State

@[simp] theorem mapHw_cfg (s : State) (f : Hw → Hw) : (s.mapHw f).cfg = s.cfg := rfl

@[simp] theorem mapHw_hw (s : State) (f : Hw → Hw) : (s.mapHw f).hw = f s.hw := rfl

@[simp] theorem mapHw_host (s : State) (f : Hw → Hw) : (s.mapHw f).host = s.host := rfl

@[simp] theorem mapHw_refused (s : State) (f : Hw → Hw) : (s.mapHw f).refused = s.refused := rfl

@[simp] theorem mapHw_history (s : State) (f : Hw → Hw) : (s.mapHw f).history = s.history := rfl

@[simp] theorem mapHw_env (s : State) (f : Hw → Hw) : (s.mapHw f).env = s.env := rfl

@[simp] theorem emit_cfg (s : State) (e : HistEvent) : (s.emit e).cfg = s.cfg := rfl

@[simp] theorem emit_hw (s : State) (e : HistEvent) : (s.emit e).hw = s.hw := rfl

@[simp] theorem emit_host (s : State) (e : HistEvent) : (s.emit e).host = s.host := rfl

@[simp] theorem emit_refused (s : State) (e : HistEvent) : (s.emit e).refused = s.refused := rfl

@[simp] theorem emit_history (s : State) (e : HistEvent) : (s.emit e).history = s.history ++ [e] := rfl

@[simp] theorem emit_env (s : State) (e : HistEvent) : (s.emit e).env = s.env := rfl

@[simp] theorem skipDraws_cfg (s : State) (n : Nat) : (s.skipDraws n).cfg = s.cfg := rfl

@[simp] theorem skipDraws_hw (s : State) (n : Nat) : (s.skipDraws n).hw = s.hw := rfl

@[simp] theorem skipDraws_host (s : State) (n : Nat) : (s.skipDraws n).host = s.host := rfl

@[simp] theorem skipDraws_refused (s : State) (n : Nat) : (s.skipDraws n).refused = s.refused := rfl

@[simp] theorem skipDraws_history (s : State) (n : Nat) : (s.skipDraws n).history = s.history := rfl

@[simp] theorem skipDraws_env_schedule (s : State) (n : Nat) : (s.skipDraws n).env.schedule = s.env.schedule := rfl

@[simp] theorem skipDraws_env_gaps (s : State) (n : Nat) : (s.skipDraws n).env.gaps = s.env.gaps := rfl

@[simp] theorem skipDraws_env_bus (s : State) (n : Nat) : (s.skipDraws n).env.bus = s.env.bus := rfl

@[simp] theorem skipDraws_env_draws (s : State) (n : Nat) : (s.skipDraws n).env.draws = s.env.draws.skip n := rfl

@[simp] theorem nextBus_cfg (s : State) : s.nextBus.cfg = s.cfg := rfl

@[simp] theorem nextBus_hw (s : State) : s.nextBus.hw = s.hw := rfl

@[simp] theorem nextBus_host (s : State) : s.nextBus.host = s.host := rfl

@[simp] theorem nextBus_refused (s : State) : s.nextBus.refused = s.refused := rfl

@[simp] theorem nextBus_history (s : State) : s.nextBus.history = s.history := rfl

@[simp] theorem nextBus_env_schedule (s : State) : s.nextBus.env.schedule = s.env.schedule := rfl

@[simp] theorem nextBus_env_gaps (s : State) : s.nextBus.env.gaps = s.env.gaps := rfl

@[simp] theorem nextBus_env_bus (s : State) : s.nextBus.env.bus = s.env.bus.next := rfl

@[simp] theorem nextBus_env_draws (s : State) : s.nextBus.env.draws = s.env.draws := rfl

@[simp] theorem setGaps_cfg (s : State) (g : List (List GapStep)) : (s.setGaps g).cfg = s.cfg := rfl

@[simp] theorem setGaps_hw (s : State) (g : List (List GapStep)) : (s.setGaps g).hw = s.hw := rfl

@[simp] theorem setGaps_host (s : State) (g : List (List GapStep)) : (s.setGaps g).host = s.host := rfl

@[simp] theorem setGaps_refused (s : State) (g : List (List GapStep)) : (s.setGaps g).refused = s.refused := rfl

@[simp] theorem setGaps_history (s : State) (g : List (List GapStep)) : (s.setGaps g).history = s.history := rfl

@[simp] theorem setGaps_env_schedule (s : State) (g : List (List GapStep)) : (s.setGaps g).env.schedule = s.env.schedule := rfl

@[simp] theorem setGaps_env_gaps (s : State) (g : List (List GapStep)) : (s.setGaps g).env.gaps = g := rfl

@[simp] theorem setGaps_env_bus (s : State) (g : List (List GapStep)) : (s.setGaps g).env.bus = s.env.bus := rfl

@[simp] theorem setGaps_env_draws (s : State) (g : List (List GapStep)) : (s.setGaps g).env.draws = s.env.draws := rfl

@[simp] theorem logTxn_cfg (s : State) (t : Txn) : (s.logTxn t).cfg = s.cfg := rfl

@[simp] theorem logTxn_hw (s : State) (t : Txn) : (s.logTxn t).hw = s.hw := rfl

@[simp] theorem logTxn_host_lock (s : State) (t : Txn) : (s.logTxn t).host.lock = s.host.lock := rfl

@[simp] theorem logTxn_host_drv (s : State) (t : Txn) : (s.logTxn t).host.drv = s.host.drv := rfl

@[simp] theorem logTxn_host_log (s : State) (t : Txn) : (s.logTxn t).host.log = s.host.log ++ [t] := rfl

@[simp] theorem logTxn_host_current (s : State) (t : Txn) : (s.logTxn t).host.current = s.host.current := rfl

@[simp] theorem logTxn_host_blocked (s : State) (t : Txn) : (s.logTxn t).host.blocked = s.host.blocked := rfl

@[simp] theorem logTxn_host_returns (s : State) (t : Txn) : (s.logTxn t).host.returns = s.host.returns := rfl

@[simp] theorem logTxn_refused (s : State) (t : Txn) : (s.logTxn t).refused = s.refused := rfl

@[simp] theorem logTxn_history (s : State) (t : Txn) : (s.logTxn t).history = s.history := rfl

@[simp] theorem logTxn_env (s : State) (t : Txn) : (s.logTxn t).env = s.env := rfl

@[simp] theorem setLock_cfg (s : State) (l : Lock) : (s.setLock l).cfg = s.cfg := rfl

@[simp] theorem setLock_hw (s : State) (l : Lock) : (s.setLock l).hw = s.hw := rfl

@[simp] theorem setLock_host_lock (s : State) (l : Lock) : (s.setLock l).host.lock = l := rfl

@[simp] theorem setLock_host_drv (s : State) (l : Lock) : (s.setLock l).host.drv = s.host.drv := rfl

@[simp] theorem setLock_host_log (s : State) (l : Lock) : (s.setLock l).host.log = s.host.log := rfl

@[simp] theorem setLock_host_current (s : State) (l : Lock) : (s.setLock l).host.current = s.host.current := rfl

@[simp] theorem setLock_host_blocked (s : State) (l : Lock) : (s.setLock l).host.blocked = s.host.blocked := rfl

@[simp] theorem setLock_host_returns (s : State) (l : Lock) : (s.setLock l).host.returns = s.host.returns := rfl

@[simp] theorem setLock_refused (s : State) (l : Lock) : (s.setLock l).refused = s.refused := rfl

@[simp] theorem setLock_history (s : State) (l : Lock) : (s.setLock l).history = s.history := rfl

@[simp] theorem setLock_env (s : State) (l : Lock) : (s.setLock l).env = s.env := rfl

@[simp] theorem setDrv_cfg (s : State) (d : DriverState) : (s.setDrv d).cfg = s.cfg := rfl

@[simp] theorem setDrv_hw (s : State) (d : DriverState) : (s.setDrv d).hw = s.hw := rfl

@[simp] theorem setDrv_host_lock (s : State) (d : DriverState) : (s.setDrv d).host.lock = s.host.lock := rfl

@[simp] theorem setDrv_host_drv (s : State) (d : DriverState) : (s.setDrv d).host.drv = d := rfl

@[simp] theorem setDrv_host_log (s : State) (d : DriverState) : (s.setDrv d).host.log = s.host.log := rfl

@[simp] theorem setDrv_host_current (s : State) (d : DriverState) : (s.setDrv d).host.current = s.host.current := rfl

@[simp] theorem setDrv_host_blocked (s : State) (d : DriverState) : (s.setDrv d).host.blocked = s.host.blocked := rfl

@[simp] theorem setDrv_host_returns (s : State) (d : DriverState) : (s.setDrv d).host.returns = s.host.returns := rfl

@[simp] theorem setDrv_refused (s : State) (d : DriverState) : (s.setDrv d).refused = s.refused := rfl

@[simp] theorem setDrv_history (s : State) (d : DriverState) : (s.setDrv d).history = s.history := rfl

@[simp] theorem setDrv_env (s : State) (d : DriverState) : (s.setDrv d).env = s.env := rfl

@[simp] theorem setCurrent_cfg (s : State) (k : HostContext) : (s.setCurrent k).cfg = s.cfg := rfl

@[simp] theorem setCurrent_hw (s : State) (k : HostContext) : (s.setCurrent k).hw = s.hw := rfl

@[simp] theorem setCurrent_host_lock (s : State) (k : HostContext) : (s.setCurrent k).host.lock = s.host.lock := rfl

@[simp] theorem setCurrent_host_drv (s : State) (k : HostContext) : (s.setCurrent k).host.drv = s.host.drv := rfl

@[simp] theorem setCurrent_host_log (s : State) (k : HostContext) : (s.setCurrent k).host.log = s.host.log := rfl

@[simp] theorem setCurrent_host_current (s : State) (k : HostContext) : (s.setCurrent k).host.current = k := rfl

@[simp] theorem setCurrent_host_blocked (s : State) (k : HostContext) : (s.setCurrent k).host.blocked = s.host.blocked := rfl

@[simp] theorem setCurrent_host_returns (s : State) (k : HostContext) : (s.setCurrent k).host.returns = s.host.returns := rfl

@[simp] theorem setCurrent_refused (s : State) (k : HostContext) : (s.setCurrent k).refused = s.refused := rfl

@[simp] theorem setCurrent_history (s : State) (k : HostContext) : (s.setCurrent k).history = s.history := rfl

@[simp] theorem setCurrent_env (s : State) (k : HostContext) : (s.setCurrent k).env = s.env := rfl

@[simp] theorem returnTo_cfg (s : State) (k : HostContext) (r : Result) : (s.returnTo k r).cfg = s.cfg := rfl

@[simp] theorem returnTo_hw (s : State) (k : HostContext) (r : Result) : (s.returnTo k r).hw = s.hw := rfl

@[simp] theorem returnTo_host_lock (s : State) (k : HostContext) (r : Result) : (s.returnTo k r).host.lock = s.host.lock := rfl

@[simp] theorem returnTo_host_drv (s : State) (k : HostContext) (r : Result) : (s.returnTo k r).host.drv = s.host.drv := rfl

@[simp] theorem returnTo_host_log (s : State) (k : HostContext) (r : Result) : (s.returnTo k r).host.log = s.host.log := rfl

@[simp] theorem returnTo_host_current (s : State) (k : HostContext) (r : Result) : (s.returnTo k r).host.current = s.host.current := rfl

@[simp] theorem returnTo_host_blocked (s : State) (k : HostContext) (r : Result) : (s.returnTo k r).host.blocked = s.host.blocked := rfl

@[simp] theorem returnTo_host_returns (s : State) (k : HostContext) (r : Result) : (s.returnTo k r).host.returns = s.host.returns ++ [(k, r)] := rfl

@[simp] theorem returnTo_refused (s : State) (k : HostContext) (r : Result) : (s.returnTo k r).refused = s.refused := rfl

@[simp] theorem returnTo_history (s : State) (k : HostContext) (r : Result) : (s.returnTo k r).history = s.history := rfl

@[simp] theorem returnTo_env (s : State) (k : HostContext) (r : Result) : (s.returnTo k r).env = s.env := rfl

@[simp] theorem giveReturn_cfg (s : State) (r : Result) : (s.giveReturn r).cfg = s.cfg := rfl

@[simp] theorem giveReturn_hw (s : State) (r : Result) : (s.giveReturn r).hw = s.hw := rfl

@[simp] theorem giveReturn_host_lock (s : State) (r : Result) : (s.giveReturn r).host.lock = s.host.lock := rfl

@[simp] theorem giveReturn_host_drv (s : State) (r : Result) : (s.giveReturn r).host.drv = s.host.drv := rfl

@[simp] theorem giveReturn_host_log (s : State) (r : Result) : (s.giveReturn r).host.log = s.host.log := rfl

@[simp] theorem giveReturn_host_current (s : State) (r : Result) : (s.giveReturn r).host.current = s.host.current := rfl

@[simp] theorem giveReturn_host_blocked (s : State) (r : Result) : (s.giveReturn r).host.blocked = s.host.blocked := rfl

@[simp] theorem giveReturn_host_returns (s : State) (r : Result) : (s.giveReturn r).host.returns = s.host.returns ++ [(s.host.current, r)] := rfl

@[simp] theorem giveReturn_refused (s : State) (r : Result) : (s.giveReturn r).refused = s.refused := rfl

@[simp] theorem giveReturn_history (s : State) (r : Result) : (s.giveReturn r).history = s.history := rfl

@[simp] theorem giveReturn_env (s : State) (r : Result) : (s.giveReturn r).env = s.env := rfl

@[simp] theorem refuseTo_cfg (s : State) (k : HostContext) (r : RefusalReason) : (s.refuseTo k r).cfg = s.cfg := rfl

@[simp] theorem refuseTo_hw (s : State) (k : HostContext) (r : RefusalReason) : (s.refuseTo k r).hw = s.hw := rfl

@[simp] theorem refuseTo_host_lock (s : State) (k : HostContext) (r : RefusalReason) : (s.refuseTo k r).host.lock = s.host.lock := rfl

@[simp] theorem refuseTo_host_drv (s : State) (k : HostContext) (r : RefusalReason) : (s.refuseTo k r).host.drv = s.host.drv := rfl

@[simp] theorem refuseTo_host_log (s : State) (k : HostContext) (r : RefusalReason) : (s.refuseTo k r).host.log = s.host.log := rfl

@[simp] theorem refuseTo_host_current (s : State) (k : HostContext) (r : RefusalReason) : (s.refuseTo k r).host.current = s.host.current := rfl

@[simp] theorem refuseTo_host_blocked (s : State) (k : HostContext) (r : RefusalReason) : (s.refuseTo k r).host.blocked = s.host.blocked := rfl

@[simp] theorem refuseTo_host_returns (s : State) (k : HostContext) (r : RefusalReason) : (s.refuseTo k r).host.returns = s.host.returns ++ [(k, .refused r)] := rfl

@[simp] theorem refuseTo_refused (s : State) (k : HostContext) (r : RefusalReason) : (s.refuseTo k r).refused = true := rfl

@[simp] theorem refuseTo_history (s : State) (k : HostContext) (r : RefusalReason) : (s.refuseTo k r).history = s.history := rfl

@[simp] theorem refuseTo_env (s : State) (k : HostContext) (r : RefusalReason) : (s.refuseTo k r).env = s.env := rfl

@[simp] theorem markRefused_cfg (s : State) (r : RefusalReason) : (s.markRefused r).cfg = s.cfg := rfl

@[simp] theorem markRefused_hw (s : State) (r : RefusalReason) : (s.markRefused r).hw = s.hw := rfl

@[simp] theorem markRefused_host_lock (s : State) (r : RefusalReason) : (s.markRefused r).host.lock = s.host.lock := rfl

@[simp] theorem markRefused_host_drv (s : State) (r : RefusalReason) : (s.markRefused r).host.drv = s.host.drv := rfl

@[simp] theorem markRefused_host_log (s : State) (r : RefusalReason) : (s.markRefused r).host.log = s.host.log := rfl

@[simp] theorem markRefused_host_current (s : State) (r : RefusalReason) : (s.markRefused r).host.current = s.host.current := rfl

@[simp] theorem markRefused_host_blocked (s : State) (r : RefusalReason) : (s.markRefused r).host.blocked = s.host.blocked := rfl

@[simp] theorem markRefused_host_returns (s : State) (r : RefusalReason) : (s.markRefused r).host.returns = s.host.returns ++ [(s.host.current, .refused r)] := rfl

@[simp] theorem markRefused_refused (s : State) (r : RefusalReason) : (s.markRefused r).refused = true := rfl

@[simp] theorem markRefused_history (s : State) (r : RefusalReason) : (s.markRefused r).history = s.history := rfl

@[simp] theorem markRefused_env (s : State) (r : RefusalReason) : (s.markRefused r).env = s.env := rfl

@[simp] theorem block_cfg (s : State) (i : Nat) (op : Instr) : (s.block i op).cfg = s.cfg := rfl

@[simp] theorem block_hw (s : State) (i : Nat) (op : Instr) : (s.block i op).hw = s.hw := rfl

@[simp] theorem block_host_lock (s : State) (i : Nat) (op : Instr) : (s.block i op).host.lock = s.host.lock := rfl

@[simp] theorem block_host_drv (s : State) (i : Nat) (op : Instr) : (s.block i op).host.drv = s.host.drv := rfl

@[simp] theorem block_host_log (s : State) (i : Nat) (op : Instr) : (s.block i op).host.log = s.host.log := rfl

@[simp] theorem block_host_current (s : State) (i : Nat) (op : Instr) : (s.block i op).host.current = s.host.current := rfl

@[simp] theorem block_host_blocked (s : State) (i : Nat) (op : Instr) : (s.block i op).host.blocked = s.host.blocked.filter (·.1 != i) ++ [(i, op)] := rfl

@[simp] theorem block_host_returns (s : State) (i : Nat) (op : Instr) : (s.block i op).host.returns = s.host.returns := rfl

@[simp] theorem block_refused (s : State) (i : Nat) (op : Instr) : (s.block i op).refused = s.refused := rfl

@[simp] theorem block_history (s : State) (i : Nat) (op : Instr) : (s.block i op).history = s.history := rfl

@[simp] theorem block_env (s : State) (i : Nat) (op : Instr) : (s.block i op).env = s.env := rfl

@[simp] theorem unblock_cfg (s : State) (i : Nat) : (s.unblock i).cfg = s.cfg := rfl

@[simp] theorem unblock_hw (s : State) (i : Nat) : (s.unblock i).hw = s.hw := rfl

@[simp] theorem unblock_host_lock (s : State) (i : Nat) : (s.unblock i).host.lock = s.host.lock := rfl

@[simp] theorem unblock_host_drv (s : State) (i : Nat) : (s.unblock i).host.drv = s.host.drv := rfl

@[simp] theorem unblock_host_log (s : State) (i : Nat) : (s.unblock i).host.log = s.host.log := rfl

@[simp] theorem unblock_host_current (s : State) (i : Nat) : (s.unblock i).host.current = s.host.current := rfl

@[simp] theorem unblock_host_blocked (s : State) (i : Nat) : (s.unblock i).host.blocked = s.host.blocked.filter (·.1 != i) := rfl

@[simp] theorem unblock_host_returns (s : State) (i : Nat) : (s.unblock i).host.returns = s.host.returns := rfl

@[simp] theorem unblock_refused (s : State) (i : Nat) : (s.unblock i).refused = s.refused := rfl

@[simp] theorem unblock_history (s : State) (i : Nat) : (s.unblock i).history = s.history := rfl

@[simp] theorem unblock_env (s : State) (i : Nat) : (s.unblock i).env = s.env := rfl

end State

@[simp] theorem withSchedule_cfg (s : State) (ts : List Turn) : (withSchedule ts s).cfg = s.cfg := rfl

@[simp] theorem withSchedule_hw (s : State) (ts : List Turn) : (withSchedule ts s).hw = s.hw := rfl

@[simp] theorem withSchedule_host (s : State) (ts : List Turn) : (withSchedule ts s).host = s.host := rfl

@[simp] theorem withSchedule_refused (s : State) (ts : List Turn) : (withSchedule ts s).refused = s.refused := rfl

@[simp] theorem withSchedule_history (s : State) (ts : List Turn) : (withSchedule ts s).history = s.history := rfl

@[simp] theorem withSchedule_schedule (s : State) (ts : List Turn) : (withSchedule ts s).env.schedule = ts := rfl

@[simp] theorem withSchedule_gaps (s : State) (ts : List Turn) : (withSchedule ts s).env.gaps = s.env.gaps := rfl

@[simp] theorem withSchedule_bus (s : State) (ts : List Turn) : (withSchedule ts s).env.bus = s.env.bus := rfl

@[simp] theorem withSchedule_draws (s : State) (ts : List Turn) : (withSchedule ts s).env.draws = s.env.draws := rfl

end Sys2Proof.Machine
end

