-- ==== Sys2Proof/Laws/Agents.lean ====
section
/-! SUPPORT. What the agents' steps, and the gaps between two transactions of one operation, can do. -/

namespace Sys2Proof.Machine

/-! ### The hardware functions of Capture.lean -/

/-- What an agent's step keeps of the hardware of a block of depth `depth`: the registers, the underflow flag, the
bound of the FIFO and a half read in progress, whose record stays at the head unless the FIFO is flushed. -/
structure HwAgent (cfg : Config) (h h' : Hw) : Prop where
  registers : h'.registers = h.registers
  underflow : h'.fifoUnderflow = h.fifoUnderflow
  bounded   : h.fifo.length ≤ cfg.fifoDepth → h'.fifo.length ≤ cfg.fifoDepth
  idle      : h.fifoPhase = .idle → h'.fifoPhase = .idle
  emptyRead : h.fifoPhase = .highReadEmpty → h'.fifoPhase = .highReadEmpty
  halfRead  : (h.fifoPhase = .highRead → h.fifo ≠ []) → h'.fifoPhase = .highRead → h'.fifo ≠ []
  grows     : cfg.clearAlsoFlushes = false → h'.fifoPhase = h.fifoPhase ∧ h.fifo <+: h'.fifo
  flags     : ∀ f ∈ edgeFlags, f h = true → f h' = true
  headStays : ∀ r rest, h.fifoPhase = .highRead → h.fifo = r :: rest →
    (h'.fifoPhase = .highRead ∧ ∃ newer, h'.fifo = r :: (rest ++ newer)) ∨ h'.fifoPhase = .highReadEmpty

/-- The records an agent's step that does not flush leaves. -/
theorem head_appended {h h' : Hw} (hp : h'.fifoPhase = h.fifoPhase) (hf : h.fifo <+: h'.fifo) (r : Word)
    (rest : List Word) (hq : h.fifoPhase = .highRead) (hr : h.fifo = r :: rest) :
    (h'.fifoPhase = .highRead ∧ ∃ newer, h'.fifo = r :: (rest ++ newer)) ∨ h'.fifoPhase = .highReadEmpty := by
  obtain ⟨nw, hn⟩ := hf
  exact .inl ⟨hp.trans hq, nw, by rw [← hn, hr]; rfl⟩

theorem HwAgent.refl (cfg : Config) (h : Hw) : HwAgent cfg h h :=
  ⟨rfl, rfl, id, id, id, fun hh => hh, fun _ => ⟨rfl, List.prefix_rfl⟩, fun _ _ => id,
    head_appended rfl List.prefix_rfl⟩

theorem HwAgent.trans {cfg : Config} {a b c : Hw} (x : HwAgent cfg a b) (y : HwAgent cfg b c) : HwAgent cfg a c where
  registers := y.registers.trans x.registers
  underflow := y.underflow.trans x.underflow
  bounded h := y.bounded (x.bounded h)
  idle h := y.idle (x.idle h)
  emptyRead h := y.emptyRead (x.emptyRead h)
  halfRead h := y.halfRead (x.halfRead h)
  grows h := ⟨(y.grows h).1.trans (x.grows h).1, (x.grows h).2.trans (y.grows h).2⟩
  flags f hf h := y.flags f hf (x.flags f hf h)
  headStays r rest hp hf := by
    rcases x.headStays r rest hp hf with ⟨h1, nw, h2⟩ | h
    · rcases y.headStays r _ h1 h2 with ⟨h3, nw', h4⟩ | h
      · exact .inl ⟨h3, nw ++ nw', by rw [h4, List.append_assoc]⟩
      · exact .inr h
    · exact .inr (y.emptyRead h)

theorem HwAgent.overflow {cfg : Config} {h h' : Hw} (x : HwAgent cfg h h') (hf : h.fifoOverflow = true) :
    h'.fifoOverflow = true := x.flags Hw.fifoOverflow (by simp [edgeFlags]) hf

theorem HwAgent.threshold {cfg : Config} {h h' : Hw} (x : HwAgent cfg h h') (hf : h.fifoThreshold = true) :
    h'.fifoThreshold = true := x.flags Hw.fifoThreshold (by simp [edgeFlags]) hf

/-- A step that raises flags, if any: one fact per edge flag. -/
theorem flags_raised {h h' : Hw} (h1 : h.mdatParityErr = true → h'.mdatParityErr = true)
    (h2 : h.fifoUnderflow = true → h'.fifoUnderflow = true) (h3 : h.fifoOverflow = true → h'.fifoOverflow = true)
    (h4 : h.fifoThreshold = true → h'.fifoThreshold = true)
    (h5 : h.tclkParityErr = true → h'.tclkParityErr = true) : ∀ f ∈ edgeFlags, f h = true → f h' = true := by
  simp only [edgeFlags, List.forall_mem_cons, List.not_mem_nil, false_imp_iff, implies_true, and_true]
  exact ⟨h1, h2, h3, h4, h5⟩

theorem enqueue_full {cfg : Config} {h : Hw} (full : h.fifo.length = cfg.fifoDepth) (r : Word) (b : Bool) :
    enqueue cfg r b h = { h with fifoOverflow := true } := if_pos full

theorem enqueue_room {cfg : Config} {h : Hw} (room : h.fifo.length ≠ cfg.fifoDepth) (r : Word) (b : Bool) :
    enqueue cfg r b h = { h with
      fifo := h.fifo ++ [r]
      fifoThreshold := h.fifoThreshold ||
        thresholdRaised cfg.threshRule cfg.fifoDepth h.threshold.toNat h.fifo.length b } := if_neg room

theorem enqueue_agent (cfg : Config) (r : Word) (b : Bool) (h : Hw) : HwAgent cfg h (enqueue cfg r b h) := by
  by_cases full : h.fifo.length = cfg.fifoDepth
  · rw [enqueue_full full]
    exact ⟨rfl, rfl, id, id, id, fun hh => hh, fun _ => ⟨rfl, List.prefix_rfl⟩,
      flags_raised id id (fun _ => rfl) id id, head_appended rfl List.prefix_rfl⟩
  · rw [enqueue_room full]
    refine ⟨rfl, rfl, fun hb => ?_, id, id, fun _ _ => by simp, fun _ => ⟨rfl, List.prefix_append _ _⟩,
      flags_raised id id id (fun ht => by simp [ht]) id, head_appended rfl (List.prefix_append _ _)⟩
    simp only [List.length_append, List.length_singleton]
    omega

theorem flushFifo_idle (h : Hw) (hp : h.fifoPhase = .idle) : (flushFifo h).fifoPhase = .idle := by
  simp [flushFifo, phaseWhenEmptied, hp]

theorem flushFifo_phase (h : Hw) : (flushFifo h).fifoPhase ≠ .highRead := by
  simp only [flushFifo, phaseWhenEmptied]
  split <;> decide

/-- R311. -/
theorem flushFifo_phase_eq (h : Hw) :
    (flushFifo h).fifoPhase = if h.fifoPhase = .highRead then .highReadEmpty else h.fifoPhase := by
  unfold flushFifo phaseWhenEmptied
  split <;> simp_all

@[simp] theorem flushFifo_fifo (h : Hw) : (flushFifo h).fifo = [] := rfl

@[simp] theorem enqueue_phase (cfg : Config) (r : Word) (b : Bool) (h : Hw) :
    (enqueue cfg r b h).fifoPhase = h.fifoPhase := by
  unfold enqueue
  split <;> rfl

theorem resetCounter_agent (cfg : Config) (h : Hw) : HwAgent cfg h (resetCounter cfg h) := by
  unfold resetCounter
  split
  · rename_i hf
    refine ⟨rfl, rfl, fun _ => Nat.zero_le _, fun hp => ?_, fun hp => ?_, fun _ hp => absurd hp (flushFifo_phase _),
      fun hn => by simp [hn] at hf, flags_raised id id id id id,
      fun _ _ hp _ => .inr (by simp [flushFifo, phaseWhenEmptied, hp])⟩
    · simp [flushFifo, phaseWhenEmptied, hp]
    · simp [flushFifo, phaseWhenEmptied, hp]
  · exact ⟨rfl, rfl, id, id, id, fun hh => hh, fun _ => ⟨rfl, List.prefix_rfl⟩, flags_raised id id id id id,
      head_appended rfl List.prefix_rfl⟩

@[simp] theorem resetCounter_counter (cfg : Config) (h : Hw) : (resetCounter cfg h).tsCounter = 0 := by
  unfold resetCounter flushFifo
  split <;> rfl

@[simp] theorem enqueue_counter (cfg : Config) (r : Word) (b : Bool) (h : Hw) :
    (enqueue cfg r b h).tsCounter = h.tsCounter := by
  unfold enqueue
  split <;> rfl

theorem captureEvent_agent (cfg : Config) (code : Byte) (d : EventDraws) (h : Hw) :
    HwAgent cfg h (captureEvent cfg code d h) := by
  unfold captureEvent
  extract_lets m rst cap hw1 hw2
  have h1 : HwAgent cfg h hw1 := by
    show HwAgent cfg h (if _ then _ else _)
    split
    · exact resetCounter_agent cfg h
    · exact HwAgent.refl cfg h
  have h2 : HwAgent cfg h hw2 := by
    show HwAgent cfg h (if _ then _ else _)
    split
    · exact h1.trans (enqueue_agent ..)
    · exact h1
  split
  · exact h2.trans (resetCounter_agent ..)
  · exact h2

/-! ### Lines and capture (R302, R305) -/

theorem hits_onLine {cfg : Config} {raw : Byte} {m : Half} (h : OnLine cfg raw m) (b : Bool) :
    hits (selLine cfg.selOffset raw) (routingMask m) b = true := by
  obtain ⟨l, ⟨h0, h7, he⟩, hb⟩ := h
  unfold selLine
  rw [if_neg h0, if_pos (by omega)]
  simp [hits, show raw.toNat - cfg.selOffset = l by omega, routingMask, hb, show l < 8 by omega]

theorem hits_offLine {cfg : Config} {raw : Byte} {m : Half} (h : OffLine cfg raw m) (b : Bool) :
    hits (selLine cfg.selOffset raw) (routingMask m) b = false := by
  rcases h with rfl | ⟨l, ⟨h0, h7, he⟩, hb⟩
  · simp [selLine, hits]
  · unfold selLine
    rw [if_neg h0, if_pos (by omega)]
    simp [hits, show raw.toNat - cfg.selOffset = l by omega, routingMask, hb]

theorem captures_surely {s : State} {code : Byte} (h : SurelyCaptured code s) (b : Bool) :
    captures s.cfg s.hw.wrTrigSel (routingMask (ttEntry s.hw.tt code)) b = true := by
  rcases h with h | ⟨h, ho⟩
  · simp [captures, h]
  · simp [captures, h, hits_onLine ho]

theorem captures_passed {s : State} {code : Byte} (h : SurelyPassed code s) (b : Bool) :
    captures s.cfg s.hw.wrTrigSel (routingMask (ttEntry s.hw.tt code)) b = false := by
  simp [captures, h.1, hits_offLine h.2]

theorem tickCounter_agent (cfg : Config) (h : Hw) : HwAgent cfg h (tickCounter h) :=
  ⟨rfl, rfl, id, id, id, fun hh => hh, fun _ => ⟨rfl, List.prefix_rfl⟩, flags_raised id id id id id,
    head_appended rfl List.prefix_rfl⟩

theorem changeInputs_agent (cfg : Config) (tp mp tpe mpe b : Bool) (h : Hw) :
    HwAgent cfg h (changeInputs tp mp tpe mpe b h) :=
  ⟨rfl, rfl, id, id, id, fun hh => hh, fun _ => ⟨rfl, List.prefix_rfl⟩,
    flags_raised (fun hf => by simp [changeInputs, hf]) id id id fun hf => by simp [changeInputs, hf],
    head_appended rfl List.prefix_rfl⟩

/-! ### Steps of other agents -/

/-- What a step of another agent keeps of the whole state while a context runs an operation (R300, R337, log 6). -/
structure AgentKeeps (s t : State) : Prop where
  cfg       : t.cfg = s.cfg
  hw        : HwAgent s.cfg s.hw t.hw
  drv       : t.host.drv = s.host.drv
  log       : t.host.log = s.host.log
  current   : t.host.current = s.host.current
  held      : ∀ k, s.host.lock = .held k → t.host.lock = .held k
  failed    : s.host.drv = .failed → t.host.lock = s.host.lock
  waiting   : ∀ i op, waitingOp i s = some op → waitingOp i t = some op
  waitOnce  : (s.host.blocked.map Prod.fst).Nodup → (t.host.blocked.map Prod.fst).Nodup
  mark      : s.refused = true → t.refused = true
  history   : s.history <+: t.history
  returns   : s.host.returns <+: t.host.returns
  schedule  : t.env.schedule = s.env.schedule
  bus       : t.env.bus = s.env.bus

theorem AgentKeeps.refl (s : State) : AgentKeeps s s :=
  ⟨rfl, HwAgent.refl _ _, rfl, rfl, rfl, fun _ h => h, fun _ => rfl, fun _ _ h => h, id, id, List.prefix_rfl,
    List.prefix_rfl, rfl, rfl⟩

theorem AgentKeeps.trans {a b c : State} (x : AgentKeeps a b) (y : AgentKeeps b c) : AgentKeeps a c where
  cfg := y.cfg.trans x.cfg
  hw := x.hw.trans (x.cfg ▸ y.hw)
  drv := y.drv.trans x.drv
  log := y.log.trans x.log
  current := y.current.trans x.current
  held k h := y.held k (x.held k h)
  failed h := (y.failed (x.drv.trans h)).trans (x.failed h)
  waiting i op h := y.waiting i op (x.waiting i op h)
  waitOnce h := y.waitOnce (x.waitOnce h)
  mark h := y.mark (x.mark h)
  history := x.history.trans y.history
  returns := x.returns.trans y.returns
  schedule := y.schedule.trans x.schedule
  bus := y.bus.trans x.bus

/-- A step that touches only hardware, history and draws. -/
theorem AgentKeeps.ofHw {s t : State} (hc : t.cfg = s.cfg) (hh : HwAgent s.cfg s.hw t.hw) (ho : t.host = s.host)
    (hr : t.refused = s.refused) (hi : s.history <+: t.history) (hs : t.env.schedule = s.env.schedule)
    (hb : t.env.bus = s.env.bus) : AgentKeeps s t := by
  refine ⟨hc, hh, ?_, ?_, ?_, ?_, ?_, ?_, ?_, ?_, hi, ?_, hs, hb⟩
  · rw [ho]
  · rw [ho]
  · rw [ho]
  · rw [ho]; exact fun _ h => h
  · rw [ho]; exact fun _ => rfl
  · unfold waitingOp; rw [ho]; exact fun _ _ h => h
  · rw [ho]; exact id
  · rw [hr]; exact id
  · rw [ho]

/-- R301, R303: an enabled TCLK event. -/
theorem tclkStep_enabled {s : State} (code : Byte) (h : s.hw.tclkEnabled = true) :
    tclkStep code s =
      ((s.mapHw (captureEvent s.cfg code (eventDraws s.env.draws))).skipDraws 4).emit
        (.trig code (routingMask (ttEntry s.hw.tt code))) := if_pos h

theorem tclkStep_keeps (code : Byte) (s : State) : AgentKeeps s (tclkStep code s) := by
  unfold tclkStep
  split
  · exact .ofHw rfl (captureEvent_agent ..) rfl rfl (List.prefix_append _ _) rfl rfl
  · exact .refl s

theorem tickStep_keeps (s : State) : AgentKeeps s (tickStep s) :=
  .ofHw rfl (tickCounter_agent ..) rfl rfl List.prefix_rfl rfl rfl

theorem inputStep_keeps (tp mp tpe mpe : Bool) (s : State) : AgentKeeps s (inputStep tp mp tpe mpe s) := by
  unfold inputStep
  extract_lets t
  split
  · exact .ofHw rfl (changeInputs_agent ..) rfl rfl (List.prefix_append _ _) rfl rfl
  · exact .ofHw rfl (changeInputs_agent ..) rfl rfl List.prefix_rfl rfl rfl

/-- Returning a result changes only the record of results. -/
theorem returnTo_keeps (k : HostContext) (r : Result) (s : State) : AgentKeeps s (s.returnTo k r) :=
  ⟨rfl, HwAgent.refl _ _, rfl, rfl, rfl, fun _ h => h, fun _ => rfl, fun _ _ h => h, id, id, List.prefix_rfl,
    List.prefix_append _ _, rfl, rfl⟩

theorem refuseTo_keeps (k : HostContext) (r : RefusalReason) (s : State) : AgentKeeps s (s.refuseTo k r) :=
  ⟨rfl, HwAgent.refl _ _, rfl, rfl, rfl, fun _ h => h, fun _ => rfl, fun _ _ h => h, id, fun _ => rfl,
    List.prefix_rfl, List.prefix_append _ _, rfl, rfl⟩

theorem setFreeLock_keeps (k : HostContext) (s : State) (hl : s.host.lock = .free) (hd : s.host.drv ≠ .failed) :
    AgentKeeps s (s.setLock (.held k)) :=
  ⟨rfl, HwAgent.refl _ _, rfl, rfl, rfl, fun _ h => (nomatch hl.symm.trans h), fun h => absurd h hd,
    fun _ _ h => h, id, id, List.prefix_rfl, List.prefix_rfl, rfl, rfl⟩

theorem lockIsrStep_keeps (s : State) : AgentKeeps s (lockIsrStep s) := by
  unfold lockIsrStep
  split
  · exact refuseTo_keeps ..
  · rename_i hd
    split
    · rename_i hl
      exact (setFreeLock_keeps .isr s hl hd).trans (returnTo_keeps ..)
    · exact returnTo_keeps ..

theorem waitingOp_block (i j : Nat) (op : Instr) (s : State) :
    waitingOp j (s.block i op) = if j = i then some op else waitingOp j s := by
  simp only [waitingOp, State.block, List.find?_append]
  rw [List.find?_filter]
  by_cases h : j = i
  · subst h
    have e : (s.host.blocked.find? fun a => decide ((a.1 != j) = true ∧ (a.1 == j) = true)) = none := by
      rw [List.find?_eq_none]
      simp
    rw [e]
    simp
  · have e : (s.host.blocked.find? fun a => decide ((a.1 != i) = true ∧ (a.1 == j) = true)) =
        s.host.blocked.find? fun a => a.1 == j := by
      congr 1
      funext a
      by_cases ha : a.1 = j <;> simp [ha, h]
    rw [e]
    simp [h, Ne.symm h]

theorem waits_iff (i : Nat) (s : State) : s.waits i = true ↔ ∃ op, waitingOp i s = some op := by
  simp only [State.waits, waitingOp, List.any_eq_true, Option.map_eq_some_iff]
  constructor
  · rintro ⟨x, hx, he⟩
    obtain ⟨y, hy⟩ := Option.isSome_iff_exists.mp
      ((List.find?_isSome (p := fun a : Nat × Instr => a.1 == i)).mpr ⟨x, hx, he⟩)
    exact ⟨y.2, y, hy, rfl⟩
  · rintro ⟨_, y, hy, _⟩
    exact ⟨y, List.mem_of_find?_eq_some hy, by simpa using List.find?_some hy⟩

theorem block_waitOnce (i : Nat) (op : Instr) (s : State) (h : (s.host.blocked.map Prod.fst).Nodup) :
    ((s.block i op).host.blocked.map Prod.fst).Nodup := by
  simp only [State.block, List.map_append, List.map_cons, List.map_nil]
  refine List.nodup_append.mpr ⟨h.sublist (List.filter_sublist.map _), by simp, ?_⟩
  simp only [List.mem_map, List.mem_filter, List.mem_singleton]
  rintro a ⟨x, ⟨_, hx⟩, rfl⟩ b rfl
  simpa using hx

theorem block_keeps (i : Nat) (op : Instr) (s : State) (h : s.waits i = false) : AgentKeeps s (s.block i op) := by
  refine ⟨rfl, HwAgent.refl _ _, rfl, rfl, rfl, fun _ h => h, fun _ => rfl, fun j o ho => ?_, block_waitOnce i op s,
    id, List.prefix_rfl, List.prefix_rfl, rfl, rfl⟩
  rw [waitingOp_block]
  split
  · rename_i e
    have := (waits_iff j s).mpr ⟨o, ho⟩
    rw [e, h] at this
    exact absurd this (by decide)
  · exact ho

theorem lockTaskStep_keeps (i : Nat) (s : State) (h : s.waits i = false) : AgentKeeps s (lockTaskStep i s) := by
  unfold lockTaskStep
  split
  · exact refuseTo_keeps ..
  · rename_i hd
    split
    · rename_i hl
      exact (setFreeLock_keeps (.task i) s hl hd).trans (returnTo_keeps ..)
    · exact block_keeps i _ s h

theorem runGapStep_keeps (g : GapStep) (s : State) : AgentKeeps s (runGapStep g s) := by
  cases g with
  | tclk code => exact tclkStep_keeps code s
  | tick => exact tickStep_keeps s
  | input tp mp tpe mpe => exact inputStep_keeps tp mp tpe mpe s
  | lockIsr =>
    show AgentKeeps s (if _ then _ else _)
    split
    · exact .refl s
    · exact lockIsrStep_keeps s
  | lockTask i =>
    show AgentKeeps s (if _ then _ else _)
    split
    · exact .refl s
    · rename_i h
      exact lockTaskStep_keeps i s (by simpa using fun hw => h (Or.inr hw))

theorem runGapSteps_keeps (gs : List GapStep) : ∀ s : State, AgentKeeps s (runGapSteps gs s) := by
  induction gs with
  | nil => exact fun s => .refl s
  | cons g gs ih => exact fun s => (runGapStep_keeps g s).trans (ih _)

theorem setGaps_keeps (g : List (List GapStep)) (s : State) : AgentKeeps s (s.setGaps g) :=
  .ofHw rfl (HwAgent.refl _ _) rfl rfl List.prefix_rfl rfl rfl

/-- Everything a gap between two transactions can do. -/
theorem runGap_keeps (s : State) : AgentKeeps s (runGap s) := by
  unfold runGap
  split
  · exact .refl s
  · exact (setGaps_keeps ..).trans (runGapSteps_keeps ..)

theorem runGap_none {s : State} (h : s.env.gaps = []) : runGap s = s := by simp [runGap, h]

end Sys2Proof.Machine
end

