-- ==== Sys2Proof/Laws/Operations.lean ====
section
/-! SUPPORT. One lemma per shared operation of Ops.lean: what a sequence of operations, a gap, a transaction and a
confirmed write answer, and what each keeps. -/

namespace Sys2Proof.Machine

variable {α β : Type}

/-! ### Sequencing -/

@[simp] theorem opPure_eq (a : α) (s : State) : opPure a s = (.ok a, s) := rfl

@[simp] theorem opError_eq (e : HostError) (s : State) : (opError e : Op α) s = (.error (.error e), s) := rfl

theorem opThen_ok {m : Op α} {k : α → Op β} {s t : State} {a : α} (h : m s = (.ok a, t)) :
    opThen m k s = k a t := by simp [opThen, h]

theorem opThen_error {m : Op α} {k : α → Op β} {s t : State} {e : Stop} (h : m s = (.error e, t)) :
    opThen m k s = (.error e, t) := by simp [opThen, h]

/-- What a sequence that ends well went through. -/
theorem opThen_ok_inv {m : Op α} {k : α → Op β} {s t : State} {b : β} (h : opThen m k s = (.ok b, t)) :
    ∃ a u, m s = (.ok a, u) ∧ k a u = (.ok b, t) := by
  rcases hm : m s with ⟨_ | a, u⟩
  · rw [opThen_error hm] at h; exact nomatch (Prod.mk.inj h).1
  · exact ⟨a, u, rfl, by rwa [opThen_ok hm] at h⟩

@[simp] theorem opGap_eq (m : Op α) (s : State) : opGap m s = m (runGap s) := rfl

/-! ### Relations that every piece of an operation keeps -/

/-- A reflexive, transitive relation that gaps, the oracle's advance and the log's growth keep. -/
structure Steady (R : State → State → Prop) : Prop where
  refl  : ∀ s, R s s
  trans : ∀ a b c, R a b → R b c → R a c
  gap   : ∀ s, R s (runGap s)
  bus   : ∀ s, R s s.nextBus
  log   : ∀ s e, R s (s.logTxn e)

/-- From every state, on every path, the operation's final state stands in `R` to its first. -/
def OpKeeps (R : State → State → Prop) (m : Op α) : Prop := ∀ s, R s (m s).2

section Keeps

variable {R : State → State → Prop}

theorem OpKeeps.pure (st : Steady R) (a : α) : OpKeeps R (opPure a) := fun s => st.refl s

theorem OpKeeps.error (st : Steady R) (e : HostError) : OpKeeps R (opError e : Op α) := fun s => st.refl s

theorem OpKeeps.andThen (st : Steady R) {m : Op α} {k : α → Op β} (hm : OpKeeps R m) (hk : ∀ a, OpKeeps R (k a)) :
    OpKeeps R (opThen m k) := by
  intro s
  rcases h : m s with ⟨_ | a, t⟩
  · rw [opThen_error h]; simpa [h] using hm s
  · rw [opThen_ok h]; exact st.trans _ _ _ (by simpa [h] using hm s) (hk a t)

theorem OpKeeps.afterGap (st : Steady R) {m : Op α} (hm : OpKeeps R m) : OpKeeps R (opGap m) :=
  fun s => st.trans _ _ _ (st.gap s) (hm _)

/-- A read, where what its failure left is looked at together with its log entry. -/
theorem OpKeeps.readLogged (st : Steady R) {key : Word} {w : Window} {off : Nat} {cond : State → Option RefusalReason}
    {eff : State → Half × State} {trace : BusOutcome → State → State} (he : ∀ s, R s (eff s).2)
    (ht : ∀ b s, R s ((trace b s).logTxn { key := key, value := none, ok := false })) :
    OpKeeps R (busRead key w off cond eff trace) := by
  intro s
  unfold busRead
  split
  · exact st.refl s
  · dsimp only
    split
    · exact st.trans _ _ _ (st.bus s) (st.trans _ _ _ (he _) (st.log _ _))
    · exact st.trans _ _ _ (st.bus s) (ht _ _)

theorem OpKeeps.read (st : Steady R) {key : Word} {w : Window} {off : Nat} {cond : State → Option RefusalReason}
    {eff : State → Half × State} {trace : BusOutcome → State → State} (he : ∀ s, R s (eff s).2)
    (ht : ∀ b s, R s (trace b s)) : OpKeeps R (busRead key w off cond eff trace) :=
  .readLogged st he fun b s => st.trans _ _ _ (ht b s) (st.log _ _)

theorem OpKeeps.write (st : Steady R) {key : Word} {w : Window} {off : Nat} {cond : State → Option RefusalReason}
    {v : Half} {eff : State → State} (he : ∀ s, R s (eff s)) : OpKeeps R (busWrite key w off cond v eff) := by
  intro s
  unfold busWrite
  split
  · exact st.refl s
  · dsimp only
    split
    · exact st.trans _ _ _ (st.bus s) (st.trans _ _ _ (he _) (st.log _ _))
    · refine st.trans _ _ _ (st.bus s) (st.trans _ _ _ ?_ (st.log _ _))
      split
      · exact he _
      · exact st.refl _

theorem OpKeeps.confirm (st : Steady R) {w : Window} {off : Nat} {v : Half} {wr : Op Unit} {rd : Op Half}
    (hw : OpKeeps R wr) (hr : OpKeeps R rd) : OpKeeps R (confirmWrite w off v wr rd) := by
  refine .andThen st (.afterGap st hw) fun _ => .andThen st (.afterGap st hr) fun rb s => ?_
  split <;> exact st.refl s

end Keeps

/-! ### Transactions -/

theorem refusal_none {w : Window} {off : Nat} {cond : State → Option RefusalReason} {s : State}
    (h : Admitted w off s) (hc : cond s = none) : refusal w off cond s = none := by
  simp [refusal, admission, h.2, Nat.not_le.mpr h.1, hc]

theorem refusal_condition {w : Window} {off : Nat} {cond : State → Option RefusalReason} {s : State}
    (h : Admitted w off s) : refusal w off cond s = cond s := by
  simp [refusal, admission, h.2, Nat.not_le.mpr h.1]

theorem refusal_noLock {w : Window} {off : Nat} {cond : State → Option RefusalReason} {s : State}
    (h : off < s.cfg.windowSize w) (hl : s.host.lock ≠ .held s.host.current) :
    refusal w off cond s = some .noLock := by
  simp [refusal, admission, hl, Nat.not_le.mpr h]

theorem refusal_outside {w : Window} {off : Nat} {cond : State → Option RefusalReason} {s : State}
    (h : s.cfg.windowSize w ≤ off) : refusal w off cond s = some .outsideWindow := by
  simp [refusal, admission, h]

section Transactions

variable {key : Word} {w : Window} {off : Nat} {cond : State → Option RefusalReason} {s : State}

theorem busRead_ok {eff : State → Half × State} {trace : BusOutcome → State → State}
    (h : refusal w off cond s = none) (hb : (s.env.bus.at 0).ok = true) :
    busRead key w off cond eff trace s =
      (.ok (eff s.nextBus).1, (eff s.nextBus).2.logTxn (okTxn key (eff s.nextBus).1)) := by
  simp [busRead, h, hb, okTxn]

theorem busRead_failed {eff : State → Half × State} {trace : BusOutcome → State → State}
    (h : refusal w off cond s = none) (hb : (s.env.bus.at 0).ok = false) :
    busRead key w off cond eff trace s =
      (.error (.error .busAccessFailure),
        (trace (s.env.bus.at 0) s.nextBus).logTxn { key := key, value := none, ok := false }) := by
  simp [busRead, h, hb]

theorem busRead_refused {eff : State → Half × State} {trace : BusOutcome → State → State} {r : RefusalReason}
    (h : refusal w off cond s = some r) : busRead key w off cond eff trace s = (.error (.refused r), s) := by
  simp [busRead, h]

theorem busWrite_ok {v : Half} {eff : State → State} (h : refusal w off cond s = none)
    (hb : (s.env.bus.at 0).ok = true) :
    busWrite key w off cond v eff s = (.ok (), (eff s.nextBus).logTxn (okTxn key v)) := by
  simp [busWrite, h, hb, okTxn]

theorem busWrite_failed {v : Half} {eff : State → State} (h : refusal w off cond s = none)
    (hb : (s.env.bus.at 0).ok = false) :
    busWrite key w off cond v eff s =
      (.error (.error .busAccessFailure),
        (if (s.env.bus.at 0).took then eff s.nextBus else s.nextBus).logTxn
          { key := key, value := some v, ok := false }) := by
  simp [busWrite, h, hb]

theorem busWrite_refused {v : Half} {eff : State → State} {r : RefusalReason}
    (h : refusal w off cond s = some r) : busWrite key w off cond v eff s = (.error (.refused r), s) := by
  simp [busWrite, h]

end Transactions

/-! ### Runs of successful transactions -/

/-- `t` comes from `s` by `n` successful transactions, logged as `l`, with gaps before them: what the host keeps. -/
structure Ran (n : Nat) (l : List Txn) (s t : State) : Prop where
  cfg     : t.cfg = s.cfg
  current : t.host.current = s.host.current
  drv     : t.host.drv = s.host.drv
  held    : s.host.lock = .held s.host.current → t.host.lock = .held s.host.current
  log     : t.host.log = s.host.log ++ l
  bus     : ∀ j, t.env.bus.at j = s.env.bus.at (n + j)

theorem Ran.trans {n m : Nat} {l k : List Txn} {a b c : State} (x : Ran n l a b) (y : Ran m k b c) :
    Ran (n + m) (l ++ k) a c where
  cfg := y.cfg.trans x.cfg
  current := y.current.trans x.current
  drv := y.drv.trans x.drv
  held h := by rw [← x.current]; exact y.held (by rw [x.current]; exact x.held h)
  log := by rw [y.log, x.log, List.append_assoc]
  bus j := by rw [y.bus, x.bus, Nat.add_assoc]

theorem Ran.ofGap {s t : State} (h : AgentKeeps s t) : Ran 0 [] s t where
  cfg := h.cfg
  current := h.current
  drv := h.drv
  held hl := h.held _ hl
  log := by simp [h.log]
  bus j := by simp [h.bus]

theorem Ran.busOk {n m : Nat} {l : List Txn} {s t : State} (h : Ran n l s t) (hb : BusOk (n + m) s) : BusOk m t :=
  fun j hj => by rw [h.bus]; exact hb _ (by omega)

theorem Ran.admitted {n : Nat} {l : List Txn} {w : Window} {off : Nat} {s t : State} (h : Ran n l s t)
    (ha : Admitted w off s) : Admitted w off t := by
  refine ⟨by rw [h.cfg]; exact ha.1, ?_⟩
  rw [h.current]
  exact h.held ha.2

/-- An effect of a transaction: it touches neither the configuration, the host, nor the bus oracle. -/
structure HwOnly (s t : State) : Prop where
  cfg  : t.cfg = s.cfg
  host : t.host = s.host
  bus  : t.env.bus = s.env.bus

theorem HwOnly.refl (s : State) : HwOnly s s := ⟨rfl, rfl, rfl⟩

theorem Ran.ofTxn {key : Word} {v : Half} {s t : State} (h : HwOnly s.nextBus t) :
    Ran 1 [okTxn key v] s (t.logTxn (okTxn key v)) where
  cfg := h.cfg
  current := by simp [h.host]
  drv := by simp [h.host]
  held hl := by simpa [h.host] using hl
  log := by simp [h.host]
  bus j := by
    have : t.env.bus = s.env.bus.next := h.bus
    simp [this, BusStream.at_next, Nat.add_comm]

/-- A read in an operation, when it succeeds: `g` is the state after the gap before it. -/
theorem gapRead_ran {key : Word} {w : Window} {off : Nat} {cond : State → Option RefusalReason}
    {eff : State → Half × State} {trace : BusOutcome → State → State} {s : State} (ha : Admitted w off s)
    (hb : BusOk 1 s) (hc : ∀ g, AgentKeeps s g → cond g = none) (he : ∀ u, HwOnly u (eff u).2) :
    ∃ g, AgentKeeps s g ∧ (s.env.gaps = [] → g = s) ∧
      opGap (busRead key w off cond eff trace) s =
        (.ok (eff g.nextBus).1, (eff g.nextBus).2.logTxn (okTxn key (eff g.nextBus).1)) ∧
      Ran 1 [okTxn key (eff g.nextBus).1] s ((eff g.nextBus).2.logTxn (okTxn key (eff g.nextBus).1)) := by
  have hg := runGap_keeps s
  refine ⟨runGap s, hg, runGap_none, ?_, ?_⟩
  · rw [opGap_eq]
    exact busRead_ok (refusal_none ((Ran.ofGap hg).admitted ha) (hc _ hg)) (by rw [hg.bus]; exact hb 0 (by omega))
  · simpa using (Ran.ofGap hg).trans (Ran.ofTxn (he _))

/-- A write in an operation, when it succeeds. -/
theorem gapWrite_ran {key : Word} {w : Window} {off : Nat} {cond : State → Option RefusalReason} {v : Half}
    {eff : State → State} {s : State} (ha : Admitted w off s) (hb : BusOk 1 s)
    (hc : ∀ g, AgentKeeps s g → cond g = none) (he : ∀ u, HwOnly u (eff u)) :
    ∃ g, AgentKeeps s g ∧ (s.env.gaps = [] → g = s) ∧
      opGap (busWrite key w off cond v eff) s = (.ok (), (eff g.nextBus).logTxn (okTxn key v)) ∧
      Ran 1 [okTxn key v] s ((eff g.nextBus).logTxn (okTxn key v)) := by
  have hg := runGap_keeps s
  refine ⟨runGap s, hg, runGap_none, ?_, ?_⟩
  · rw [opGap_eq]
    exact busWrite_ok (refusal_none ((Ran.ofGap hg).admitted ha) (hc _ hg)) (by rw [hg.bus]; exact hb 0 (by omega))
  · simpa using (Ran.ofGap hg).trans (Ran.ofTxn (he _))

/-- A confirmed write whose two transactions succeed: `g` and `k` are the states after the gaps, and it fails where the
comparison does not pass (R152). -/
theorem confirmWrite_any {wkey rkey : Word} {w : Window} {off : Nat} {cond : State → Option RefusalReason} {v : Half}
    {eff : State → State} {rdEff : State → Half × State} {trace : BusOutcome → State → State} {s : State}
    (ha : Admitted w off s) (hb : BusOk 2 s) (hc : ∀ g, AgentKeeps s g → cond g = none)
    (he : ∀ u, HwOnly u (eff u)) (hr : ∀ u, HwOnly u (rdEff u).2) :
    ∃ g k, AgentKeeps s g ∧ AgentKeeps ((eff g.nextBus).logTxn (okTxn wkey v)) k ∧
      (s.env.gaps = [] → g = s) ∧
      (((eff g.nextBus).logTxn (okTxn wkey v)).env.gaps = [] → k = (eff g.nextBus).logTxn (okTxn wkey v)) ∧
      confirmWrite w off v (busWrite wkey w off cond v eff) (busRead rkey w off noCondition rdEff trace) s =
        (if confirmCheck s.cfg w off v (rdEff k.nextBus).1 then .ok () else .error (.error .busAccessFailure),
          (rdEff k.nextBus).2.logTxn (okTxn rkey (rdEff k.nextBus).1)) ∧
      Ran 2 [okTxn wkey v, okTxn rkey (rdEff k.nextBus).1] s
        ((rdEff k.nextBus).2.logTxn (okTxn rkey (rdEff k.nextBus).1)) := by
  obtain ⟨g, hg, hgn, hwr, hran⟩ := gapWrite_ran (key := wkey) (v := v) (cond := cond) ha
    (fun j hj => hb j (by omega)) hc he
  obtain ⟨k, hk, hkn, hrd, hran'⟩ := gapRead_ran (key := rkey) (cond := noCondition) (trace := trace) (hran.admitted ha)
    (hran.busOk (n := 1) hb) (fun _ _ => rfl) hr
  refine ⟨g, k, hg, hk, hgn, hkn, ?_, hran.trans hran'⟩
  unfold confirmWrite
  rw [opThen_ok hwr, opThen_ok hrd]
  simp only [(hran.trans hran').cfg]
  split <;> rfl

/-- A confirmed write whose two transactions succeed and whose comparison passes (R152). -/
theorem confirmWrite_ran {wkey rkey : Word} {w : Window} {off : Nat} {cond : State → Option RefusalReason} {v : Half}
    {eff : State → State} {rdEff : State → Half × State} {trace : BusOutcome → State → State} {s : State}
    (ha : Admitted w off s) (hb : BusOk 2 s) (hc : ∀ g, AgentKeeps s g → cond g = none)
    (he : ∀ u, HwOnly u (eff u)) (hr : ∀ u, HwOnly u (rdEff u).2)
    (pass : ∀ g k, AgentKeeps s g → AgentKeeps ((eff g.nextBus).logTxn (okTxn wkey v)) k →
      confirmCheck s.cfg w off v (rdEff k.nextBus).1 = true) :
    ∃ g k, AgentKeeps s g ∧ AgentKeeps ((eff g.nextBus).logTxn (okTxn wkey v)) k ∧
      (s.env.gaps = [] → g = s) ∧
      (((eff g.nextBus).logTxn (okTxn wkey v)).env.gaps = [] → k = (eff g.nextBus).logTxn (okTxn wkey v)) ∧
      confirmWrite w off v (busWrite wkey w off cond v eff) (busRead rkey w off noCondition rdEff trace) s =
        (.ok (), (rdEff k.nextBus).2.logTxn (okTxn rkey (rdEff k.nextBus).1)) ∧
      Ran 2 [okTxn wkey v, okTxn rkey (rdEff k.nextBus).1] s
        ((rdEff k.nextBus).2.logTxn (okTxn rkey (rdEff k.nextBus).1)) := by
  obtain ⟨g, k, hg, hk, hgn, hkn, e, hran⟩ := confirmWrite_any (wkey := wkey) (rkey := rkey) (cond := cond) (v := v)
    (trace := trace) ha hb hc he hr
  refine ⟨g, k, hg, hk, hgn, hkn, ?_, hran⟩
  rw [e, if_pos (pass g k hg hk)]

/-! ### Ends of a host operation -/

theorem hostCall_runs {self : Instr} {allowed : State → Option RefusalReason} {ok : Bool} {body : Op Result} {n : Nat}
    {s : State} (hk : s.host.current = .task n) (ha : allowed s = none) (hp : ok = true) (hl : s.host.lock = .free) :
    hostCall self allowed ok body s = .next (endCall (body (s.setLock (.held (.task n))))) := by
  simp [hostCall, hk, ha, hp, hl]

theorem hostCall_waits {self : Instr} {allowed : State → Option RefusalReason} {ok : Bool} {body : Op Result} {n : Nat}
    {k : HostContext} {s : State} (hk : s.host.current = .task n) (ha : allowed s = none) (hp : ok = true)
    (hl : s.host.lock = .held k) : hostCall self allowed ok body s = .next (s.block n self) := by
  simp [hostCall, hk, ha, hp, hl]

theorem hostCall_refused {self : Instr} {allowed : State → Option RefusalReason} {ok : Bool} {body : Op Result} {n : Nat}
    {r : RefusalReason} {s : State} (hk : s.host.current = .task n) (ha : allowed s = some r) :
    hostCall self allowed ok body s = .next (s.markRefused r) := by
  simp [hostCall, hk, ha]

theorem hostCall_invalid {self : Instr} {allowed : State → Option RefusalReason} {ok : Bool} {body : Op Result} {n : Nat}
    {s : State} (hk : s.host.current = .task n) (ha : allowed s = none) (hp : ok = false) :
    hostCall self allowed ok body s = .next (s.giveReturn (.error .invalidParameter)) := by
  simp [hostCall, hk, ha, hp]

theorem hostCall_isr {self : Instr} {allowed : State → Option RefusalReason} {ok : Bool} {body : Op Result}
    {s : State} (hk : s.host.current = .isr) :
    hostCall self allowed ok body s = .next (s.markRefused .interruptContext) := by
  simp [hostCall, hk]

theorem subStep_wrongState {d next : DriverState} {body : Op Unit} {n : Nat} {s : State}
    (hk : s.host.current = .task n) (hd : s.host.drv ≠ d) :
    subStep d next body s = .next (s.markRefused .wrongDriverState) := by
  simp [subStep, hk, hd]

theorem subStep_noLock {d next : DriverState} {body : Op Unit} {n : Nat} {s : State}
    (hk : s.host.current = .task n) (hd : s.host.drv = d) (hl : s.host.lock ≠ .held (.task n)) :
    subStep d next body s = .next (s.markRefused .noLock) := by
  simp [subStep, hk, hd, hl]

theorem subStep_isr {d next : DriverState} {body : Op Unit} {s : State} (hk : s.host.current = .isr) :
    subStep d next body s = .next (s.markRefused .interruptContext) := by
  simp [subStep, hk]

theorem subStep_runs {d next : DriverState} {body : Op Unit} {n : Nat} {s : State} (h : InsideConstruct n d s) :
    subStep d next body s = .next (endSubStep next (body s)) := by
  simp [subStep, h.1, h.2.1, h.2.2]

/-- Everything a public operation can answer: refused, turned away, made to wait, or run to its end. -/
theorem hostCall_cases (self : Instr) (allowed : State → Option RefusalReason) (ok : Bool) (body : Op Result)
    (s : State) :
    (∃ r, hostCall self allowed ok body s = .next (s.markRefused r)) ∨
    hostCall self allowed ok body s = .next (s.giveReturn (.error .invalidParameter)) ∨
    (∃ n k, s.host.current = .task n ∧ s.host.lock = .held k ∧ allowed s = none ∧ ok = true ∧
      hostCall self allowed ok body s = .next (s.block n self)) ∨
    (∃ n, s.host.current = .task n ∧ s.host.lock = .free ∧ allowed s = none ∧ ok = true ∧
      hostCall self allowed ok body s = .next (endCall (body (s.setLock (.held (.task n)))))) := by
  unfold hostCall
  split
  · exact .inl ⟨_, rfl⟩
  · rename_i n hk
    split
    · exact .inl ⟨_, rfl⟩
    · rename_i ha
      split
      · rename_i hp
        split
        · rename_i hl
          exact .inr (.inr (.inr ⟨n, hk, hl, ha, hp, rfl⟩))
        · rename_i k hl
          exact .inr (.inr (.inl ⟨n, k, hk, hl, ha, hp, rfl⟩))
      · exact .inr (.inl rfl)

/-- Everything a construction sub-step can answer. -/
theorem subStep_cases (d next : DriverState) (body : Op Unit) (s : State) :
    (∃ r, subStep d next body s = .next (s.markRefused r)) ∨
    (∃ n, InsideConstruct n d s ∧ subStep d next body s = .next (endSubStep next (body s))) := by
  unfold subStep
  split
  · exact .inl ⟨_, rfl⟩
  · rename_i n hk
    split
    · rename_i hd
      split
      · rename_i hl
        exact .inr ⟨n, ⟨hk, hd, hk ▸ hl⟩, rfl⟩
      · exact .inl ⟨_, rfl⟩
    · exact .inl ⟨_, rfl⟩

end Sys2Proof.Machine
end

