-- ==== Sys2Proof/Laws/Keeps.lean ====
section
/-! SUPPORT. What every transaction's effect keeps, and with it every operation's body: the configuration, the
identification bytes, the bound of the FIFO, a half read in progress; everything but the hardware. -/

namespace Sys2Proof.Machine

/-- What every effect of one transaction keeps, also that of a failed half read of the FIFO. -/
structure HwTrace (s t : State) : Prop where
  cfg      : t.cfg = s.cfg
  host     : t.host = s.host
  refused  : t.refused = s.refused
  schedule : t.env.schedule = s.env.schedule
  gaps     : t.env.gaps = s.env.gaps
  bus      : t.env.bus = s.env.bus
  history  : s.history <+: t.history
  idHi     : t.hw.idHi = s.hw.idHi
  idLo     : t.hw.idLo = s.hw.idLo
  bounded  : s.hw.fifo.length ≤ s.cfg.fifoDepth → t.hw.fifo.length ≤ s.cfg.fifoDepth

/-- What the effect of one transaction, on success or failure, keeps: a record half read stays to be read. -/
structure HwStep (s t : State) : Prop extends HwTrace s t where
  halfRead : (s.hw.fifoPhase = .highRead → s.hw.fifo ≠ []) → t.hw.fifoPhase = .highRead → t.hw.fifo ≠ []

theorem HwStep.refl (s : State) : HwStep s s :=
  ⟨⟨rfl, rfl, rfl, rfl, rfl, rfl, List.prefix_rfl, rfl, rfl, id⟩, fun h => h⟩

theorem HwStep.hwOnly {s t : State} (h : HwStep s t) : HwOnly s t := ⟨h.cfg, h.host, h.bus⟩

/-- An effect that leaves the FIFO, its phase and the identification bytes alone. -/
theorem HwStep.plain {s t : State} (hc : t.cfg = s.cfg) (ho : t.host = s.host) (hr : t.refused = s.refused)
    (hs : t.env.schedule = s.env.schedule) (hg : t.env.gaps = s.env.gaps) (hb : t.env.bus = s.env.bus)
    (hi : s.history <+: t.history) (h1 : t.hw.idHi = s.hw.idHi) (h2 : t.hw.idLo = s.hw.idLo)
    (hf : t.hw.fifo = s.hw.fifo) (hp : t.hw.fifoPhase = s.hw.fifoPhase) : HwStep s t :=
  ⟨⟨hc, ho, hr, hs, hg, hb, hi, h1, h2, by rw [hf]; exact id⟩, by rw [hf, hp]; exact fun h => h⟩

/-! ### Effects of the register transactions -/

theorem redrawMdat_step (f : Hw → Hw) (s : State) (h : (f s.hw).idHi = s.hw.idHi ∧ (f s.hw).idLo = s.hw.idLo ∧
    (f s.hw).fifo = s.hw.fifo ∧ (f s.hw).fifoPhase = s.hw.fifoPhase) : HwStep s (redrawMdat (s.mapHw f)) :=
  .plain rfl rfl rfl rfl rfl rfl List.prefix_rfl h.1 h.2.1 h.2.2.1 h.2.2.2

theorem redrawCounter_step (f : Hw → Hw) (s : State) (h : (f s.hw).idHi = s.hw.idHi ∧ (f s.hw).idLo = s.hw.idLo ∧
    (f s.hw).fifo = s.hw.fifo ∧ (f s.hw).fifoPhase = s.hw.fifoPhase) : HwStep s (redrawCounter (s.mapHw f)) :=
  .plain rfl rfl rfl rfl rfl rfl List.prefix_rfl h.1 h.2.1 h.2.2.1 h.2.2.2

theorem statusRead_step (s : State) : HwStep s (statusRead s).2 := by
  unfold statusRead
  extract_lets w t
  dsimp only
  split <;> exact .plain rfl rfl rfl rfl rfl rfl List.prefix_rfl rfl rfl rfl rfl

theorem statusTrace_step (b : BusOutcome) (s : State) : HwStep s (statusTrace b s) := by
  unfold statusTrace
  split
  · exact statusRead_step s
  · exact .refl s

theorem writeThreshold_step (v : Half) (s : State) : HwStep s (writeThreshold v s) :=
  .plain rfl rfl rfl rfl rfl rfl List.prefix_rfl rfl rfl rfl rfl

theorem mapHw_step (f : Hw → Hw) (s : State) (h : (f s.hw).idHi = s.hw.idHi ∧ (f s.hw).idLo = s.hw.idLo ∧
    (f s.hw).fifo = s.hw.fifo ∧ (f s.hw).fifoPhase = s.hw.fifoPhase) : HwStep s (s.mapHw f) :=
  .plain rfl rfl rfl rfl rfl rfl List.prefix_rfl h.1 h.2.1 h.2.2.1 h.2.2.2

/-! ### Effects of the control commands -/

theorem drawnFifo_length (depth : Nat) (d : Nat → Nat) (a b : Nat) : (drawnFifo depth d a b).length ≤ depth := by
  simp only [drawnFifo, List.length_map, List.length_range]
  exact Nat.le_of_lt_succ (Nat.mod_lt _ (Nat.succ_pos _))

theorem softwareReset_step (s : State) : HwStep s (softwareReset s) :=
  ⟨⟨rfl, rfl, rfl, rfl, rfl, rfl, List.prefix_rfl, rfl, rfl, fun _ => drawnFifo_length ..⟩, fun _ h => by cases h⟩

theorem performCommand_step (c : Command) (v : Half) (s : State) :
    HwStep s (performCommand c (s.mapHw fun hw => { hw with ctrl := v })) := by
  cases c with
  | swReset =>
    exact ⟨⟨rfl, rfl, rfl, rfl, rfl, rfl, List.prefix_rfl, rfl, rfl, fun _ => drawnFifo_length ..⟩, fun _ h => by cases h⟩
  | swInterrupt => exact .plain rfl rfl rfl rfl rfl rfl (List.prefix_append _ _) rfl rfl rfl rfl
  | noOp | enableTclk | disableTclk | enableMdat | disableMdat | mdatBuf0 | mdatBuf1 | enableMdatBufAuto
  | disableMdatBufAuto => exact .plain rfl rfl rfl rfl rfl rfl List.prefix_rfl rfl rfl rfl rfl

theorem controlEffect_step (v : Half) (s : State) : HwStep s (controlEffect v s) := by
  unfold controlEffect
  split
  · exact performCommand_step ..
  · exact .refl s

/-- R240. -/
theorem redrawTclk_step (s : State) : HwStep s (redrawTclk s) :=
  .plain rfl rfl rfl rfl rfl rfl List.prefix_rfl rfl rfl rfl rfl

/-- R238, R240: EnableTCLK and what its failure leaves. -/
theorem OpKeeps.start {R : State → State → Prop} (st : Steady R) (hc : OpKeeps R (confirmCtrl 0x0001))
    (hr : ∀ s, R s (redrawTclk s)) : OpKeeps R startBody := by
  intro s
  have h := hc s
  unfold startBody
  split <;> rename_i t ht <;> rw [ht] at h
  · exact h
  · exact st.trans _ _ _ h (hr t)
  · exact h

/-! ### Effects on the FIFO -/

theorem readHigh_step (s : State) : HwStep s (readHigh s).2 := by
  unfold readHigh
  split
  · exact ⟨⟨rfl, rfl, rfl, rfl, rfl, rfl, List.prefix_rfl, rfl, rfl, id⟩, fun _ h => by cases h⟩
  · rename_i r rest hf
    exact ⟨⟨rfl, rfl, rfl, rfl, rfl, rfl, List.prefix_rfl, rfl, rfl, id⟩, fun _ _ => by simp [hf]⟩

theorem readLow_step (s : State) : HwStep s (readLow s).2 := by
  unfold readLow
  split
  · rename_i r rest hf
    refine ⟨⟨rfl, rfl, rfl, rfl, rfl, rfl, List.prefix_rfl, rfl, rfl, fun hb => ?_⟩, fun _ h => by cases h⟩
    rw [hf] at hb
    exact Nat.le_of_succ_le hb
  · exact ⟨⟨rfl, rfl, rfl, rfl, rfl, rfl, List.prefix_rfl, rfl, rfl, id⟩, fun _ h => by cases h⟩
  · exact ⟨⟨rfl, rfl, rfl, rfl, rfl, rfl, List.prefix_rfl, rfl, rfl, id⟩, fun _ h => by cases h⟩

theorem lossyFifo_length (b : BusOutcome) (l : List Word) : (lossyFifo b l).length ≤ l.length := by
  unfold lossyFifo
  split
  · simp
  · exact Nat.le_refl _

theorem highTrace_keeps (b : BusOutcome) (s : State) : HwTrace s (highTrace b s) :=
  ⟨rfl, rfl, rfl, rfl, rfl, rfl, List.prefix_rfl, rfl, rfl, (lossyFifo_length b _).trans⟩

theorem lowTrace_keeps (b : BusOutcome) (s : State) : HwTrace s (lowTrace b s) :=
  ⟨rfl, rfl, rfl, rfl, rfl, rfl, List.prefix_rfl, rfl, rfl, (lossyFifo_length b _).trans⟩

/-! ### Transactions and bodies under a closed relation -/

/-- A steady relation that every transaction's effect keeps; what a failed half read of the FIFO left, once it is
logged. -/
structure Closed (R : State → State → Prop) : Prop extends Steady R where
  effect : ∀ s t, HwStep s t → R s t
  lost   : ∀ s t e, HwTrace s t → failedHalf e = true → R s (t.logTxn e)

section Bodies

variable {R : State → State → Prop} (cl : Closed R)

include cl

theorem Closed.asWord {m : Op Half} (h : OpKeeps R m) : OpKeeps R (asWord m) :=
  .andThen cl.toSteady h fun _ => .pure cl.toSteady _

theorem Closed.asDone {m : Op Unit} (h : OpKeeps R m) : OpKeeps R (asDone m) :=
  .andThen cl.toSteady h fun _ => .pure cl.toSteady _

theorem Closed.readReg (key : Word) (w : Window) (off : Nat) (get : Hw → Half) : OpKeeps R (readReg key w off get) :=
  .read cl.toSteady (fun s => cl.refl s) fun _ s => cl.refl s

theorem Closed.txnRdStatus : OpKeeps R txnRdStatus :=
  .read cl.toSteady (fun s => cl.effect _ _ (statusRead_step s)) fun b s => cl.effect _ _ (statusTrace_step b s)

theorem Closed.txnWrStatus (v : Half) : OpKeeps R (txnWrStatus v) :=
  .write cl.toSteady fun s => cl.effect _ _ (mapHw_step _ s ⟨rfl, rfl, rfl, rfl⟩)

theorem Closed.txnWrMdatItype (v : Byte) : OpKeeps R (txnWrMdatItype v) :=
  .write cl.toSteady fun s => cl.effect _ _ (redrawMdat_step _ s ⟨rfl, rfl, rfl, rfl⟩)

theorem Closed.txnWrMdatBufsw (v : Byte) : OpKeeps R (txnWrMdatBufsw v) :=
  .write cl.toSteady fun s => cl.effect _ _ (redrawMdat_step _ s ⟨rfl, rfl, rfl, rfl⟩)

theorem Closed.txnWrW44 (v : Half) : OpKeeps R (txnWrW44 v) :=
  .write cl.toSteady fun s => cl.effect _ _ (redrawMdat_step _ s ⟨rfl, rfl, rfl, rfl⟩)

theorem Closed.txnRdW44 : OpKeeps R txnRdW44 := .read cl.toSteady (fun s => cl.refl s) fun _ s => cl.refl s

theorem Closed.txnWrTsrstLo (v : Half) : OpKeeps R (txnWrTsrstLo v) :=
  .write cl.toSteady fun s => cl.effect _ _ (redrawCounter_step _ s ⟨rfl, rfl, rfl, rfl⟩)

theorem Closed.txnWrTsrstHi (v : Half) : OpKeeps R (txnWrTsrstHi v) :=
  .write cl.toSteady fun s => cl.effect _ _ (redrawCounter_step _ s ⟨rfl, rfl, rfl, rfl⟩)

theorem Closed.txnWrWrtrig (v : Byte) : OpKeeps R (txnWrWrtrig v) :=
  .write cl.toSteady fun s => cl.effect _ _ (mapHw_step _ s ⟨rfl, rfl, rfl, rfl⟩)

theorem Closed.txnWrClrtrig (v : Byte) : OpKeeps R (txnWrClrtrig v) :=
  .write cl.toSteady fun s => cl.effect _ _ (mapHw_step _ s ⟨rfl, rfl, rfl, rfl⟩)

theorem Closed.txnRdW4a : OpKeeps R txnRdW4a := .read cl.toSteady (fun s => cl.refl s) fun _ s => cl.refl s

theorem Closed.txnWrW4a (v : Half) : OpKeeps R (txnWrW4a v) :=
  .write cl.toSteady fun s => cl.effect _ _ (mapHw_step _ s ⟨rfl, rfl, rfl, rfl⟩)

theorem Closed.txnWrThresh (v : Half) : OpKeeps R (txnWrThresh v) :=
  .write cl.toSteady fun s => cl.effect _ _ (writeThreshold_step v s)

theorem Closed.txnRdTt (c : Byte) : OpKeeps R (txnRdTt c) := by
  refine .read cl.toSteady (fun s => ?_) fun _ s => cl.refl s
  split
  · exact cl.refl s
  · exact cl.effect _ _ (.plain rfl rfl rfl rfl rfl rfl List.prefix_rfl rfl rfl rfl rfl)

theorem Closed.txnWrTt (c : Byte) (v : Half) : OpKeeps R (txnWrTt c v) :=
  .write cl.toSteady fun s => cl.effect _ _ (mapHw_step _ s ⟨rfl, rfl, rfl, rfl⟩)

theorem Closed.txnRdFifoHi : OpKeeps R txnRdFifoHi :=
  .readLogged cl.toSteady (fun s => cl.effect _ _ (readHigh_step s)) fun b s => cl.lost _ _ _ (highTrace_keeps b s) rfl

theorem Closed.txnRdFifoLo : OpKeeps R txnRdFifoLo :=
  .readLogged cl.toSteady (fun s => cl.effect _ _ (readLow_step s)) fun b s => cl.lost _ _ _ (lowTrace_keeps b s) rfl

theorem Closed.pairedRead : OpKeeps R pairedRead :=
  .andThen cl.toSteady cl.txnRdFifoHi fun _ =>
    .andThen cl.toSteady (.afterGap cl.toSteady cl.txnRdFifoLo) fun _ => .pure cl.toSteady _

theorem Closed.txnWrCtrl (v : Half) : OpKeeps R (txnWrCtrl v) :=
  .write cl.toSteady fun s => cl.effect _ _ (controlEffect_step v s)

theorem Closed.confirmTt (c : Byte) (v : Half) : OpKeeps R (confirmTt c v) :=
  .confirm cl.toSteady (cl.txnWrTt c v) (cl.txnRdTt c)

theorem Closed.setTriggerBody (code b : Byte) (enabled : Bool) : OpKeeps R (setTriggerBody code b enabled) :=
  .andThen cl.toSteady (.afterGap cl.toSteady (cl.txnRdTt code)) fun _ =>
    .andThen cl.toSteady (cl.confirmTt code _) fun _ => .pure cl.toSteady _

theorem Closed.getTriggerBody (code b : Byte) : OpKeeps R (getTriggerBody code b) :=
  .andThen cl.toSteady (.afterGap cl.toSteady (cl.txnRdTt code)) fun _ => .pure cl.toSteady _

theorem Closed.clearEntries (cs : List Byte) : OpKeeps R (clearEntries cs) := by
  induction cs with
  | nil => exact .pure cl.toSteady _
  | cons c cs ih => exact .andThen cl.toSteady (cl.confirmTt c _) fun _ => ih

theorem Closed.clearTable : OpKeeps R clearTable := cl.clearEntries _

theorem Closed.probeBody : OpKeeps R probeBody := by
  refine .andThen cl.toSteady (.afterGap cl.toSteady (cl.readReg _ _ _ _)) fun _ =>
    .andThen cl.toSteady (.afterGap cl.toSteady (cl.readReg _ _ _ _)) fun _ => ?_
  split
  · exact .pure cl.toSteady _
  · exact .error cl.toSteady _

theorem Closed.confirmCtrl (v : Half) : OpKeeps R (confirmCtrl v) :=
  .confirm cl.toSteady (cl.txnWrCtrl v) (cl.readReg _ _ _ _)

theorem Closed.startBody : OpKeeps R startBody :=
  .start cl.toSteady (cl.confirmCtrl 0x0001) fun t => cl.effect _ _ (redrawTclk_step t)

theorem Closed.confirmWrtrig (v : Byte) : OpKeeps R (confirmWrtrig v) :=
  .confirm cl.toSteady (cl.txnWrWrtrig v) (cl.readReg _ _ _ _)

theorem Closed.confirmClrtrig (v : Byte) : OpKeeps R (confirmClrtrig v) :=
  .confirm cl.toSteady (cl.txnWrClrtrig v) (cl.readReg _ _ _ _)

theorem Closed.configureBody : OpKeeps R configureBody :=
  .andThen cl.toSteady (cl.confirmWrtrig _) fun _ => .andThen cl.toSteady (cl.confirmClrtrig _) fun _ => cl.clearTable

theorem Closed.setResetTimestampBody (t : Byte) : OpKeeps R (setResetTimestampBody t) :=
  fun s => cl.asDone (cl.confirmClrtrig _) s

theorem Closed.setWriteTriggerBody (t : Byte) : OpKeeps R (setWriteTriggerBody t) :=
  fun s => cl.asDone (cl.confirmWrtrig _) s

theorem Closed.setFifoThresholdBody (level : Byte) : OpKeeps R (setFifoThresholdBody level) :=
  cl.asDone (.confirm cl.toSteady (cl.txnWrThresh _) (cl.readReg _ _ _ _))

theorem Closed.readStatusBody : OpKeeps R readStatusBody :=
  .andThen cl.toSteady (.afterGap cl.toSteady cl.txnRdStatus) fun w =>
    .andThen cl.toSteady (.confirm cl.toSteady (cl.txnWrStatus w) cl.txnRdStatus) fun _ => .pure cl.toSteady _

theorem Closed.drainBody : OpKeeps R drainBody := by
  refine .andThen cl.toSteady (.afterGap cl.toSteady cl.txnRdStatus) fun w => ?_
  split
  · exact .pure cl.toSteady _
  · exact .andThen cl.toSteady (.afterGap cl.toSteady cl.pairedRead) fun _ => .pure cl.toSteady _

end Bodies

/-- The construction's body, for a relation that also allows the driver to move. -/
theorem Closed.constructBody {R : State → State → Prop} (cl : Closed R) (hd : ∀ s d, R s (s.setDrv d)) :
    OpKeeps R constructBody := by
  have enter : ∀ d, OpKeeps R (enterState d) := fun d s => hd s d
  have steps : OpKeeps R constructSteps :=
    .andThen cl.toSteady (enter _) fun _ => .andThen cl.toSteady cl.probeBody fun _ =>
    .andThen cl.toSteady (enter _) fun _ => .andThen cl.toSteady (cl.confirmCtrl _) fun _ =>
    .andThen cl.toSteady (enter _) fun _ => .andThen cl.toSteady cl.configureBody fun _ =>
    .andThen cl.toSteady cl.startBody fun _ => .andThen cl.toSteady (enter _) fun _ => .pure cl.toSteady _
  intro s
  have h := steps s
  unfold Machine.constructBody
  split
  · rename_i v t ht
    rw [ht] at h
    exact h
  · rename_i e t ht
    rw [ht] at h
    exact cl.trans _ _ _ h (hd _ _)

end Sys2Proof.Machine
end

