-- ==== Sys2Proof/Laws/Exec.lean ====
section
/-! SUPPORT. What an instruction, and a step of the machine, can answer: the case list every whole-machine statement
goes through. -/

namespace Sys2Proof.Machine

/-- An operation's body: it keeps every relation that the effects of single transactions and the gaps keep. -/
def Body {α : Type} (op : Op α) : Prop := ∀ R : State → State → Prop, Closed R → OpKeeps R op

/-- Everything an instruction can make of a state. -/
inductive ExecCase (i : Instr) (s : State) : State → Prop where
  /-- refused: the mark is set (R12, R151) -/
  | marked (r : RefusalReason) : ExecCase i s (s.markRefused r)
  /-- a result is returned and nothing else happens (R336, R352) -/
  | returned (r : Result) : ExecCase i s (s.giveReturn r)
  /-- the calling task waits for the lock (R331) -/
  | waits (n : Nat) (k : HostContext) (hk : s.host.current = .task n) (hl : s.host.lock = .held k) :
      ExecCase i s (s.block n i)
  /-- a transaction of the lock's holder (R151, R153) -/
  | txn (op : Op Result) (hb : Body op) (hl : s.host.lock = .held s.host.current) : ExecCase i s (endTxn (op s))
  /-- a public operation in Collecting (R241, R336) -/
  | call (n : Nat) (op : Op Result) (hb : Body op) (hk : s.host.current = .task n) (hl : s.host.lock = .free)
      (hd : s.host.drv = .collecting) : ExecCase i s (endCall (op (s.setLock (.held (.task n)))))
  /-- CONSTRUCT (R231) -/
  | construct (n : Nat) (hk : s.host.current = .task n) (hl : s.host.lock = .free)
      (hd : s.host.drv = .uninitialized) : ExecCase i s (endCall (constructBody (s.setLock (.held (.task n)))))
  /-- a construction sub-step (R230) -/
  | sub (n : Nat) (d next : DriverState) (op : Op Unit) (hb : Body op) (hs : InsideConstruct n d s)
      (hm : DriverMove d next) (hf : DriverMove d .failed) (hn : next ≠ .failed) (hc : d ≠ .collecting) :
      ExecCase i s (endSubStep next (op s))
  /-- a step of the hardware, or LOCK_ISR, or LOCK_TASK of a task (R300, R331, R332) -/
  | agent (t : State) (h : AgentKeeps s t) (hh : isAgentStep i = true → t.host = s.host)
      (hl : ∀ k, s.host.lock = .held k → t.host.lock = .held k)
      (hf : isAgentStep i = false → t.hw = s.hw ∧ t.history = s.history) : ExecCase i s t
  /-- LOCK_TASK of a task that already waits -/
  | again (n : Nat) (k : HostContext) (hk : s.host.current = .task n) (hl : s.host.lock = .held k) :
      ExecCase i s (s.block n .lockTask)
  /-- UNLOCK by the holder (R333) -/
  | unlock (hl : s.host.lock = .held s.host.current) : ExecCase i s ((s.setLock .free).giveReturn .done)

/-- A transaction that has to be admitted: run by the holder, or refused without effect. -/
theorem txn_case {i : Instr} {s : State} {op : Op Result} (hb : Body op)
    (hr : s.host.lock ≠ .held s.host.current → ∃ r, op s = (.error (.refused r), s)) :
    ∃ t, runTxn op s = .next t ∧ ExecCase i s t := by
  by_cases hl : s.host.lock = .held s.host.current
  · exact ⟨_, rfl, .txn op hb hl⟩
  · obtain ⟨r, hr⟩ := hr hl
    refine ⟨s.markRefused r, ?_, .marked r⟩
    simp [runTxn, endTxn, hr]

theorem refusal_notHolder {w : Window} {off : Nat} {cond : State → Option RefusalReason} {s : State}
    (hl : s.host.lock ≠ .held s.host.current) : ∃ r, refusal w off cond s = some r := by
  by_cases h : s.cfg.windowSize w ≤ off
  · exact ⟨_, refusal_outside h⟩
  · exact ⟨_, refusal_noLock (Nat.lt_of_not_le h) hl⟩

theorem read_case {i : Instr} {s : State} {key : Word} {w : Window} {off : Nat} {cond : State → Option RefusalReason}
    {eff : State → Half × State} {trace : BusOutcome → State → State}
    (hb : Body (busRead key w off cond eff trace)) :
    ∃ t, runTxn (asWord (busRead key w off cond eff trace)) s = .next t ∧ ExecCase i s t := by
  refine txn_case (fun R cl => cl.asWord (hb R cl)) fun hl => ?_
  obtain ⟨r, hr⟩ := refusal_notHolder (w := w) (off := off) (cond := cond) hl
  exact ⟨r, opThen_error (busRead_refused hr)⟩

theorem reg_case {i : Instr} {s : State} (key : Word) (w : Window) (off : Nat) (get : Hw → Half) :
    ∃ t, runTxn (asWord (readReg key w off get)) s = .next t ∧ ExecCase i s t :=
  read_case fun _ cl => cl.readReg key w off get

theorem write_case {i : Instr} {s : State} {key : Word} {w : Window} {off : Nat}
    {cond : State → Option RefusalReason} {v : Half} {eff : State → State}
    (hb : Body (busWrite key w off cond v eff)) :
    ∃ t, runTxn (asDone (busWrite key w off cond v eff)) s = .next t ∧ ExecCase i s t := by
  refine txn_case (fun R cl => cl.asDone (hb R cl)) fun hl => ?_
  obtain ⟨r, hr⟩ := refusal_notHolder (w := w) (off := off) (cond := cond) hl
  exact ⟨r, opThen_error (busWrite_refused hr)⟩

theorem onlyCollecting_none {s : State} (h : onlyCollecting s = none) : s.host.drv = .collecting := by
  unfold onlyCollecting at h
  split at h
  · assumption
  · exact nomatch h

theorem onlyUninitialized_none {s : State} (h : onlyUninitialized s = none) : s.host.drv = .uninitialized := by
  unfold onlyUninitialized at h
  split at h
  · assumption
  · exact nomatch h

theorem call_case {i : Instr} {s : State} {ok : Bool} {op : Op Result} (hb : Body op) :
    ∃ t, hostCall i onlyCollecting ok op s = .next t ∧ ExecCase i s t := by
  rcases hostCall_cases i onlyCollecting ok op s with ⟨r, h⟩ | h | ⟨n, k, hk, hl, _, _, h⟩ | ⟨n, hk, hl, ha, _, h⟩
  · exact ⟨_, h, .marked r⟩
  · exact ⟨_, h, .returned _⟩
  · exact ⟨_, h, .waits n k hk hl⟩
  · exact ⟨_, h, .call n op hb hk hl (onlyCollecting_none ha)⟩

theorem sub_case {i : Instr} {s : State} {d next : DriverState} {op : Op Unit} (hb : Body op)
    (hm : DriverMove d next) (hf : DriverMove d .failed) (hn : next ≠ .failed) (hc : d ≠ .collecting) :
    ∃ t, subStep d next op s = .next t ∧ ExecCase i s t := by
  rcases subStep_cases d next op s with ⟨r, h⟩ | ⟨n, hs, h⟩
  · exact ⟨_, h, .marked r⟩
  · exact ⟨_, h, .sub n d next op hb hs hm hf hn hc⟩

theorem pure_case {i : Instr} {s : State} (r : Result) : ∃ t, pureCall r s = .next t ∧ ExecCase i s t :=
  ⟨_, rfl, .returned r⟩

/-- Every instruction answers a next state, and which one is one of the cases. -/
theorem exec_case (i : Instr) (s : State) : ∃ t, exec i s = .next t ∧ ExecCase i s t := by
  cases i with
  | rdCtrl => exact reg_case ..
  | wrCtrl v => exact write_case fun _ cl => cl.txnWrCtrl v
  | rdStatus => exact read_case fun _ cl => cl.txnRdStatus
  | wrStatus v => exact write_case fun _ cl => cl.txnWrStatus v
  | rdMdatItype => exact reg_case ..
  | wrMdatItype v => exact write_case fun _ cl => cl.txnWrMdatItype v
  | rdMdatBufsw => exact reg_case ..
  | wrMdatBufsw v => exact write_case fun _ cl => cl.txnWrMdatBufsw v
  | rdW44 => exact read_case fun _ cl => cl.txnRdW44
  | wrW44 v => exact write_case fun _ cl => cl.txnWrW44 v
  | rdTsrstLo => exact reg_case ..
  | wrTsrstLo v => exact write_case fun _ cl => cl.txnWrTsrstLo v
  | rdTsrstHi => exact reg_case ..
  | wrTsrstHi v => exact write_case fun _ cl => cl.txnWrTsrstHi v
  | rdWrtrig => exact reg_case ..
  | wrWrtrig v => exact write_case fun _ cl => cl.txnWrWrtrig v
  | rdClrtrig => exact reg_case ..
  | wrClrtrig v => exact write_case fun _ cl => cl.txnWrClrtrig v
  | rdW4a => exact read_case fun _ cl => cl.txnRdW4a
  | wrW4a v => exact write_case fun _ cl => cl.txnWrW4a v
  | rdThresh => exact reg_case ..
  | wrThresh v => exact write_case fun _ cl => cl.txnWrThresh v
  | rdIdHi => exact reg_case ..
  | rdIdLo => exact reg_case ..
  | rdTt c => exact read_case fun _ cl => cl.txnRdTt c
  | wrTt c v => exact write_case fun _ cl => cl.txnWrTt c v
  | rdFifoHi => exact read_case fun _ cl => cl.txnRdFifoHi
  | rdFifoLo => exact read_case fun _ cl => cl.txnRdFifoLo
  | rdFifo32 =>
    refine txn_case (fun R cl => .andThen cl.toSteady cl.pairedRead fun _ => .pure cl.toSteady _) fun hl => ?_
    obtain ⟨r, hr⟩ := refusal_notHolder (w := .ev) (off := 0x1200) (cond := highCondition) hl
    exact ⟨r, opThen_error (opThen_error (busRead_refused hr))⟩
  | noOp | enableTclk | disableTclk | enableMdat | disableMdat | mdatBuf0 | mdatBuf1 | enableMdatBufAuto
  | disableMdatBufAuto | swInterrupt | swReset => exact write_case fun _ cl => cl.txnWrCtrl _
  | recEmpty | recEvent ts code | decodeRec raw | encodeRec code ts | validRec raw | decodeStatus w =>
    exact pure_case _
  | setTrigger code b enabled => exact call_case fun _ cl => cl.setTriggerBody code b enabled
  | getTrigger code b => exact call_case fun _ cl => cl.getTriggerBody code b
  | clearTriggerTable =>
    exact sub_case (fun _ cl => cl.clearTable) (.stay _) .configureFailed (by decide) (by decide)
  | construct =>
    rcases hostCall_cases .construct onlyUninitialized true constructBody s with
      ⟨r, h⟩ | h | ⟨n, k, hk, hl, _, _, h⟩ | ⟨n, hk, hl, ha, _, h⟩
    · exact ⟨_, h, .marked r⟩
    · exact ⟨_, h, .returned _⟩
    · exact ⟨_, h, .waits n k hk hl⟩
    · exact ⟨_, h, .construct n hk hl (onlyUninitialized_none ha)⟩
  | probe => exact sub_case (fun _ cl => cl.probeBody) .probed .probeFailed (by decide) (by decide)
  | resetModule => exact sub_case (fun _ cl => cl.confirmCtrl _) .reset .resetFailed (by decide) (by decide)
  | configureTriggers =>
    exact sub_case (fun _ cl => cl.configureBody) (.stay _) .configureFailed (by decide) (by decide)
  | startCollecting => exact sub_case (fun _ cl => cl.startBody) .started .configureFailed (by decide) (by decide)
  | setResetTimestampTrigger t => exact call_case fun _ cl => cl.setResetTimestampBody t
  | setWriteTrigger t => exact call_case fun _ cl => cl.setWriteTriggerBody t
  | setFifoThreshold level => exact call_case fun _ cl => cl.setFifoThresholdBody level
  | readStatus => exact call_case fun _ cl => cl.readStatusBody
  | drainOneEvent => exact call_case fun _ cl => cl.drainBody
  | lockTask =>
    show ∃ t, execLockTask s = .next t ∧ _
    unfold execLockTask
    split
    · exact ⟨_, rfl, .marked _⟩
    · rename_i n hk
      refine ⟨_, rfl, ?_⟩
      unfold lockTaskStep
      split
      · have : s.refuseTo (.task n) .wrongDriverState = s.markRefused .wrongDriverState := by
          simp [State.markRefused, hk]
        rw [this]
        exact .marked _
      · rename_i hd
        split
        · rename_i hl
          refine .agent _ ((setFreeLock_keeps (.task n) s hl hd).trans (returnTo_keeps ..)) (fun h => nomatch h)
            (fun k h => nomatch hl.symm.trans h) fun _ => ⟨rfl, rfl⟩
        · rename_i k hl
          exact .again n k hk hl
  | lockIsr =>
    refine ⟨_, rfl, .agent _ (lockIsrStep_keeps s) (fun h => nomatch h) (lockIsrStep_keeps s).held fun _ => ?_⟩
    unfold lockIsrStep
    split
    · exact ⟨rfl, rfl⟩
    · split <;> exact ⟨rfl, rfl⟩
  | unlock =>
    refine ⟨_, rfl, ?_⟩
    unfold unlockStep
    split
    · rename_i hl
      exact .unlock hl
    · exact .marked .notLockHolder
  | evtTclk code =>
    refine ⟨_, rfl, .agent _ (tclkStep_keeps code s) (fun _ => ?_) (tclkStep_keeps code s).held fun h => nomatch h⟩
    unfold tclkStep
    split <;> rfl
  | evtTick => exact ⟨_, rfl, .agent _ (tickStep_keeps s) (fun _ => rfl) (tickStep_keeps s).held fun h => nomatch h⟩
  | evtInput tp mp tpe mpe =>
    refine ⟨_, rfl, .agent _ (inputStep_keeps tp mp tpe mpe s) (fun _ => ?_) (inputStep_keeps tp mp tpe mpe s).held
      fun h => nomatch h⟩
    unfold inputStep
    extract_lets t
    split <;> rfl

/-! ### The end of a construction -/

theorem constructSteps_ok {s t : State} {r : Result} (h : constructSteps s = (.ok r, t)) :
    r = .done ∧ t.host.drv = .collecting := by
  obtain ⟨_, _, _, h⟩ := opThen_ok_inv h
  obtain ⟨_, _, _, h⟩ := opThen_ok_inv h
  obtain ⟨_, _, _, h⟩ := opThen_ok_inv h
  obtain ⟨_, _, _, h⟩ := opThen_ok_inv h
  obtain ⟨_, _, _, h⟩ := opThen_ok_inv h
  obtain ⟨_, _, _, h⟩ := opThen_ok_inv h
  obtain ⟨_, _, _, h⟩ := opThen_ok_inv h
  obtain ⟨_, _, he, h⟩ := opThen_ok_inv h
  cases he
  cases h
  exact ⟨rfl, rfl⟩

/-- CONSTRUCT's body ends well in Collecting or stopped in Failed (R231, R240). -/
theorem constructBody_ends (s : State) :
    ((constructBody s).1 = .ok .done ∧ (constructBody s).2.host.drv = .collecting) ∨
    ((∃ e, (constructBody s).1 = .error e) ∧ (constructBody s).2.host.drv = .failed) := by
  unfold constructBody
  rcases h : constructSteps s with ⟨e | r, t⟩
  · exact .inr ⟨⟨e, rfl⟩, rfl⟩
  · obtain ⟨rfl, hd⟩ := constructSteps_ok h
    exact .inl ⟨rfl, hd⟩

/-! ### The step -/

/-- Everything a step of the machine can answer. -/
inductive StepCase (s : State) : State → Prop where
  /-- no agent moves (log 1) -/
  | idle : StepCase s s
  /-- the turn of a context without a step passes (R331, R334) -/
  | passes (ts : List Turn) : StepCase s (withSchedule ts s)
  /-- a rejected word is refused (R105, R115) -/
  | rejected (ts : List Turn) (k : HostContext) (r : RefusalReason) :
      StepCase s (((withSchedule ts s).setCurrent k).markRefused r)
  /-- an instruction of a host context that has a step -/
  | host (ts : List Turn) (k : HostContext) (i : Instr) (t : State) (hk : ∀ n, k = .task n → s.waits n = false)
      (h : exec i ((withSchedule ts s).setCurrent k) = .next t) : StepCase s t
  /-- a step of the hardware, in format AGENT -/
  | agent (ts : List Turn) (i : Instr) (t : State) (ha : isAgentStep i = true)
      (h : exec i (withSchedule ts s) = .next t) : StepCase s t
  /-- a waiting task calls its operation afresh (R331, R340) -/
  | resume (ts : List Turn) (n : Nat) (op : Instr) (t : State) (hw : waitingOp n s = some op)
      (h : exec op (((withSchedule ts s).unblock n).setCurrent (.task n)) = .next t) : StepCase s t

theorem decodeAgent_agent {x : CodeWord} {i : Instr} (h : decode .agent x = .ok i) : isAgentStep i = true := by
  simp only [decode, decodeAgent] at h
  split at h
  · unfold ifClear at h
    split at h
    · cases h; rfl
    · exact nomatch h
  · split at h
    · unfold ifClear at h
      split at h
      · cases h; rfl
      · exact nomatch h
    · split at h
      · unfold ifClear at h
        split at h
        · cases h; rfl
        · exact nomatch h
      · exact nomatch h

theorem step_case {s t : State} (h : step s = .next t) : StepCase s t := by
  unfold step stepTurn at h
  split at h
  · cases h; exact .idle
  · rename_i turn ts hs
    cases turn with
    | issue k f x =>
      simp only [runTurn] at h
      split at h
      · cases h; exact .passes ts
      · rename_i hn
        cases hf : isHostFormat f with
        | true =>
          have hk : ∀ n, k = .task n → s.waits n = false := by
            rintro n rfl
            simp only [hf, Bool.true_and, hasNoStep] at hn
            exact Bool.eq_false_iff.mpr hn
          simp only [runWord, inContext, hf, if_true] at h
          split at h
          · exact .host ts k _ t hk h
          · rename_i r _
            cases r with
            | unmappedKey => cases h; exact .rejected ts k .unmapped
            | reservedCommand => cases h; exact .rejected ts k .reservedCommand
            | noSuchOperation => exact nomatch h
            | strayBits => exact nomatch h
        | false =>
          have hfa : f = .agent := by cases f <;> first | rfl | exact nomatch hf
          subst hfa
          simp only [runWord, inContext, hf, Bool.false_eq_true, if_false] at h
          split at h
          · rename_i i hd
            exact .agent ts i t (decodeAgent_agent hd) h
          · rename_i r hd
            cases r with
            | unmappedKey | reservedCommand =>
              simp only [decode, decodeAgent, ifClear] at hd
              repeat' split at hd
              all_goals exact nomatch hd
            | noSuchOperation => exact nomatch h
            | strayBits => exact nomatch h
    | resume n =>
      simp only [runTurn] at h
      split at h
      · cases h; exact .passes ts
      · rename_i op hw
        exact .resume ts n op t hw h

end Sys2Proof.Machine
end

