-- ==== Sys2Proof/Laws/Frames.lean ====
section
/-! SUPPORT. What a transaction, and an operation of several transactions, leaves of the hardware. -/

namespace Sys2Proof.Machine

/-! ### One transaction -/

/-- The hardware after a write instruction: as it was, or with the write's effect. -/
theorem write_hw {key : Word} {w : Window} {off : Nat} {cond : State → Option RefusalReason} {v : Half}
    {eff : State → State} {s t : State} (h : runTxn (asDone (busWrite key w off cond v eff)) s = .next t) :
    t.hw = s.hw ∨ (t.hw = (eff s.nextBus).hw ∧ cond s = none) := by
  cases hr : refusal w off cond s with
  | some r =>
    simp only [runTxn, asDone, opThen_error (busWrite_refused hr)] at h
    cases h
    exact .inl rfl
  | none =>
    have hc : cond s = none := by
      unfold refusal at hr
      split at hr
      · exact nomatch hr
      · exact hr
    cases hb : (s.env.bus.at 0).ok with
    | true =>
      simp only [runTxn, asDone, opThen_ok (busWrite_ok hr hb)] at h
      cases h
      exact .inr ⟨rfl, hc⟩
    | false =>
      simp only [runTxn, asDone, opThen_error (busWrite_failed hr hb)] at h
      cases h
      cases ht : (s.env.bus.at 0).took
      · exact .inl rfl
      · exact .inr ⟨rfl, hc⟩

/-- The hardware after a read instruction: as it was, with the read's effect, or with what a failed read left. -/
theorem read_hw {key : Word} {w : Window} {off : Nat} {cond : State → Option RefusalReason}
    {eff : State → Half × State} {trace : BusOutcome → State → State} {s t : State}
    (h : runTxn (asWord (busRead key w off cond eff trace)) s = .next t) :
    t.hw = s.hw ∨ t.hw = (eff s.nextBus).2.hw ∨ ∃ b, t.hw = (trace b s.nextBus).hw := by
  cases hr : refusal w off cond s with
  | some r =>
    simp only [runTxn, asWord, opThen_error (busRead_refused hr)] at h
    cases h
    exact .inl rfl
  | none =>
    cases hb : (s.env.bus.at 0).ok with
    | true =>
      simp only [runTxn, asWord, opThen_ok (busRead_ok hr hb)] at h
      cases h
      exact .inr (.inl rfl)
    | false =>
      simp only [runTxn, asWord, opThen_error (busRead_failed hr hb)] at h
      cases h
      exact .inr (.inr ⟨_, rfl⟩)

theorem lossyFifo_cases (b : BusOutcome) (l : List Word) : lossyFifo b l = l ∨ lossyFifo b l = l.tail := by
  unfold lossyFifo
  split
  · exact .inr rfl
  · exact .inl rfl

/-! ### Registers through an operation -/

theorem statusRead_registers (s : State) : (statusRead s).2.hw.registers = s.hw.registers := by
  unfold statusRead
  extract_lets w t
  dsimp only
  split <;> rfl

/-- A relation between the registers before and after. -/
def OnRegisters (Q : Registers → Registers → Prop) (s t : State) : Prop := Q s.hw.registers t.hw.registers

/-- A reflexive and transitive relation between registers. -/
structure RegRel (Q : Registers → Registers → Prop) : Prop where
  refl  : ∀ r, Q r r
  trans : ∀ a b c, Q a b → Q b c → Q a c

section

variable {Q : Registers → Registers → Prop} (rel : RegRel Q)

include rel

theorem RegRel.ofEq {s t : State} (h : t.hw.registers = s.hw.registers) : OnRegisters Q s t := by
  unfold OnRegisters
  rw [h]
  exact rel.refl _

theorem RegRel.steady : Steady (OnRegisters Q) where
  refl _ := rel.refl _
  trans _ _ _ := rel.trans _ _ _
  gap s := rel.ofEq (runGap_keeps s).hw.registers
  bus _ := rel.refl _
  log _ _ := rel.refl _

theorem RegRel.readReg (key : Word) (w : Window) (off : Nat) (get : Hw → Half) :
    OpKeeps (OnRegisters Q) (readReg key w off get) :=
  .read rel.steady (fun _ => rel.refl _) fun _ _ => rel.refl _

theorem RegRel.txnRdTt (c : Byte) : OpKeeps (OnRegisters Q) (txnRdTt c) :=
  .read rel.steady (fun _ => rel.ofEq (by split <;> rfl)) fun _ _ => rel.refl _

theorem RegRel.txnRdStatus : OpKeeps (OnRegisters Q) txnRdStatus :=
  .read rel.steady (fun s => rel.ofEq (statusRead_registers s)) fun b s => by
    unfold statusTrace
    split
    · exact rel.ofEq (statusRead_registers s)
    · exact rel.refl _

theorem RegRel.txnWrStatus (v : Half) : OpKeeps (OnRegisters Q) (txnWrStatus v) :=
  .write rel.steady fun _ => rel.refl _

theorem RegRel.txnRdFifoHi : OpKeeps (OnRegisters Q) txnRdFifoHi := by
  refine .read rel.steady (fun s => rel.ofEq ?_) fun _ _ => rel.refl _
  unfold readHigh
  split <;> rfl

theorem RegRel.txnRdFifoLo : OpKeeps (OnRegisters Q) txnRdFifoLo := by
  refine .read rel.steady (fun s => rel.ofEq ?_) fun _ _ => rel.refl _
  unfold readLow
  split <;> rfl

theorem RegRel.pairedRead : OpKeeps (OnRegisters Q) pairedRead :=
  .andThen rel.steady rel.txnRdFifoHi fun _ =>
    .andThen rel.steady (.afterGap rel.steady rel.txnRdFifoLo) fun _ => .pure rel.steady _

/-- A public operation keeps what its body keeps. -/
theorem RegRel.hostCall {i : Instr} {allowed : State → Option RefusalReason} {ok : Bool} {op : Op Result} {s t : State}
    (hb : OpKeeps (OnRegisters Q) op) (h : hostCall i allowed ok op s = .next t) : OnRegisters Q s t := by
  rcases hostCall_cases i allowed ok op s with ⟨r, h'⟩ | h' | ⟨n, k, _, _, _, _, h'⟩ | ⟨n, _, _, _, _, h'⟩ <;>
    rw [h'] at h <;> cases h
  · exact rel.refl _
  · exact rel.refl _
  · exact rel.refl _
  · have := hb (s.setLock (.held (.task n)))
    rcases hh : op (s.setLock (.held (.task n))) with ⟨(_ | _) | _, u⟩ <;> rw [hh] at this <;> exact this

/-- A construction sub-step keeps what its body keeps. -/
theorem RegRel.subStep {d next : DriverState} {op : Op Unit} {s t : State} (hb : OpKeeps (OnRegisters Q) op)
    (h : subStep d next op s = .next t) : OnRegisters Q s t := by
  rcases subStep_cases d next op s with ⟨r, h'⟩ | ⟨n, _, h'⟩ <;> rw [h'] at h <;> cases h
  · exact rel.refl _
  · have := hb s
    rcases hh : op s with ⟨(_ | _) | _, u⟩ <;> rw [hh] at this <;> exact this

end

/-- No register changes. -/
theorem sameRegisters : RegRel fun a b => b = a := ⟨fun _ => rfl, fun _ _ _ x y => y.trans x⟩

/-- Entries of the table other than the one replaced. -/
theorem ttReplace_other (tt : Vector Half 256) (c : Byte) (v : Half) (c' : Byte) (h : c' ≠ c) :
    ttEntry (ttReplace tt c v) c' = ttEntry tt c' := by
  unfold ttEntry ttReplace
  rw [Vector.getElem_set_ne]
  exact fun e => h (BitVec.eq_of_toNat_eq e.symm)

@[simp] theorem ttReplace_same (tt : Vector Half 256) (c : Byte) (v : Half) : ttEntry (ttReplace tt c v) c = v := by
  simp [ttEntry, ttReplace]

end Sys2Proof.Machine
end

