-- ==== Sys2Proof/Laws/Bodies.lean ====
section
/-! SUPPORT. One lemma per piece of a host operation: what it answers when its transactions succeed, whatever the
agents do in the gaps. -/

namespace Sys2Proof.Machine

/-! ### Offsets inside their windows (R74) -/

theorem cs_inside {s : State} (hv : s.cfg.Valid) {n : Nat} (h : n < 0x8C) : n < s.cfg.windowSize .cs :=
  Nat.lt_of_lt_of_le h hv.2.1

theorem ev_inside {s : State} (hv : s.cfg.Valid) {n : Nat} (h : n < 0x1204) : n < s.cfg.windowSize .ev :=
  Nat.lt_of_lt_of_le h hv.2.2.1

theorem tt_inside {s : State} (hv : s.cfg.Valid) (c : Byte) : ttOffset c < s.cfg.windowSize .ev :=
  ev_inside hv (by have := c.isLt; unfold ttOffset; omega)

theorem rdTtKey_eq (c : Byte) : rdTtKey c = 0x90000000 + BitVec.ofNat 32 (2 * c.toNat) := by
  revert c
  decide +kernel

theorem wrTtKey_eq (c : Byte) : wrTtKey c = 0xD0000000 + BitVec.ofNat 32 (2 * c.toNat) := by
  revert c
  decide +kernel

/-! ### Registers without side effect -/

/-- A read of a register that no agent writes. -/
theorem readReg_run {key : Word} {w : Window} {off : Nat} {get : Hw → Half} {s : State} (ha : Admitted w off s)
    (hb : BusOk 1 s) (hget : ∀ h h' : Hw, h.registers = h'.registers → get h = get h') :
    ∃ t, opGap (readReg key w off get) s = (.ok (get s.hw), t) ∧ Ran 1 [okTxn key (get s.hw)] s t ∧
      t.hw.registers = s.hw.registers := by
  obtain ⟨g, hg, _, he, hr⟩ := gapRead_ran (key := key) (cond := noCondition) (trace := noTrace)
    (eff := fun s => (get s.hw, s)) ha hb (fun _ _ => rfl) fun u => HwOnly.refl u
  have e : get g.nextBus.hw = get s.hw := hget _ _ hg.hw.registers
  simp only [e] at he hr
  exact ⟨_, he, hr, hg.hw.registers⟩

/-- A confirmed write of a register that no agent writes: `f` is the write's effect on the registers. -/
theorem confirmReg_run {wkey rkey : Word} {w : Window} {off : Nat} {cond : State → Option RefusalReason} {v : Half}
    {eff : State → State} {get : Hw → Half} {s : State} (f : Registers → Registers) (ha : Admitted w off s)
    (hb : BusOk 2 s) (hc : ∀ u, cond u = none) (he : ∀ u, HwOnly u (eff u))
    (hf : ∀ u, (eff u).hw.registers = f u.hw.registers)
    (hget : ∀ h h' : Hw, h.registers = h'.registers → get h = get h') (hv : ∀ u, get (eff u).hw = v)
    (hstd : s.cfg.confirmRule = .standard) :
    ∃ g t, confirmWrite w off v (busWrite wkey w off cond v eff) (readReg rkey w off get) s = (.ok (), t) ∧
      Ran 2 [okTxn wkey v, okTxn rkey v] s t ∧ t.hw.registers = f s.hw.registers ∧
      AgentKeeps s g ∧ HwAgent s.cfg (eff g.nextBus).hw t.hw := by
  obtain ⟨g, k, hg, hk, _, _, hrun, hran⟩ := confirmWrite_ran (wkey := wkey) (rkey := rkey) (cond := cond) (v := v)
    (eff := eff) (rdEff := fun s => (get s.hw, s)) (trace := noTrace) ha hb (fun u _ => hc u) he
    (fun u => HwOnly.refl u) fun g k _ hk => by
      have : get k.hw = v := (hget _ _ hk.hw.registers).trans (hv g.nextBus)
      simp [confirmCheck, hstd, this]
  have e : get k.nextBus.hw = v := (hget _ _ hk.hw.registers).trans (hv g.nextBus)
  simp only [e] at hrun hran
  refine ⟨g, _, hrun, hran, ?_, hg, ?_⟩
  · show k.hw.registers = _
    rw [hk.hw.registers]
    show (eff g.nextBus).hw.registers = _
    rw [hf, ← hg.hw.registers]
    rfl
  · have hcfg : ((eff g.nextBus).logTxn (okTxn wkey v)).cfg = s.cfg := (he g.nextBus).cfg.trans hg.cfg
    have := hk.hw
    rw [hcfg] at this
    exact this

/-! ### The trigger table -/

theorem readTt_hwOnly (c : Byte) (u : State) :
    HwOnly u (if u.cfg.ttHighBitsStored then (ttEntry u.hw.tt c, u)
      else (readEntry false (ttEntry u.hw.tt c) (BitVec.ofNat 8 (u.env.draws.at 0)), u.skipDraws 1)).2 := by
  split <;> exact ⟨rfl, rfl, rfl⟩

/-- R179: a table read delivers the entry, or its low half below a free high half. -/
theorem txnRdTt_run {s : State} (c : Byte) (ha : Admitted .ev (ttOffset c) s) (hb : BusOk 1 s) :
    ∃ t w, opGap (txnRdTt c) s = (.ok w, t) ∧ Ran 1 [okTxn (rdTtKey c) w] s t ∧
      t.hw.registers = s.hw.registers ∧ (s.cfg.ttHighBitsStored = true → w = ttEntry s.hw.tt c) ∧
      routingMask w = routingMask (ttEntry s.hw.tt c) := by
  obtain ⟨g, hg, _, he, hr⟩ := gapRead_ran (key := rdTtKey c) (cond := noCondition) (trace := noTrace) ha hb
    (fun _ _ => rfl) (readTt_hwOnly c)
  have htt : g.hw.tt = s.hw.tt := congrArg Registers.tt hg.hw.registers
  refine ⟨_, _, he, hr, ?_, ?_, ?_⟩
  · show (ite _ _ _ : Half × State).2.hw.registers = _
    split <;> exact hg.hw.registers
  · intro h
    show (ite _ _ _ : Half × State).1 = _
    rw [if_pos (by rw [State.nextBus_cfg, hg.cfg]; exact h)]
    show ttEntry g.hw.tt c = _
    rw [htt]
  · show routingMask (ite _ _ _ : Half × State).1 = _
    split
    · show routingMask (ttEntry g.hw.tt c) = _
      rw [htt]
    · show routingMask (readEntry false (ttEntry g.hw.tt c) _) = _
      rw [htt]
      apply BitVec.eq_of_getLsbD_eq
      intro i hi
      unfold routingMask
      simp only [readEntry, Bool.false_eq_true, if_false, BitVec.getLsbD_setWidth]
      change (_ && BitVec.getLsbD (_ ++ _ : BitVec (8 + 8)) i) = _
      rw [BitVec.getLsbD_append]
      simp [hi, routingMask]

/-- R153, R353: a failed table read writes no register. -/
theorem txnRdTt_failed {s : State} (c : Byte) (ha : Admitted .ev (ttOffset c) s) (hb : (s.env.bus.at 0).ok = false) :
    ∃ t, opGap (txnRdTt c) s = (.error (.error .busAccessFailure), t) ∧
      t.host.log = s.host.log ++ [{ key := rdTtKey c, value := none, ok := false }] ∧
      t.hw.registers = s.hw.registers ∧ t.host.current = s.host.current ∧ t.host.drv = s.host.drv := by
  have hg := runGap_keeps s
  have e : txnRdTt c (runGap s) = _ :=
    busRead_failed (refusal_none ((Ran.ofGap hg).admitted ha) rfl) (by rw [hg.bus]; exact hb)
  refine ⟨_, (opGap_eq _ _).trans e, ?_, hg.hw.registers, hg.current, hg.drv⟩
  show (runGap s).host.log ++ _ = _
  rw [hg.log]

/-- R180, R152: a confirmed write of an entry whose sixteen bits are stored. -/
theorem confirmTt_run {s : State} (c : Byte) (v : Half) (ha : Admitted .ev (ttOffset c) s) (hb : BusOk 2 s)
    (hs : s.cfg.ttHighBitsStored = true) (hstd : s.cfg.confirmRule = .standard) :
    ∃ t, confirmTt c v s = (.ok (), t) ∧ Ran 2 [okTxn (wrTtKey c) v, okTxn (rdTtKey c) v] s t ∧
      t.hw.registers = { s.hw.registers with tt := ttReplace s.hw.tt c v } := by
  obtain ⟨t1, he1, hr1⟩ : ∃ t1, opGap (txnWrTt c v) s = (.ok (), t1) ∧ Ran 1 [okTxn (wrTtKey c) v] s t1 ∧
      t1.hw.registers = { s.hw.registers with tt := ttReplace s.hw.tt c v } := by
    obtain ⟨g, hg, _, he, hr⟩ := gapWrite_ran (key := wrTtKey c) (v := v) (cond := noCondition)
      (eff := fun s => s.mapHw fun hw =>
        { hw with tt := ttReplace hw.tt c (storedEntry s.cfg.ttHighBitsStored (ttEntry hw.tt c) v) })
      ha hb.first' (fun _ _ => rfl) fun u => ⟨rfl, rfl, rfl⟩
    refine ⟨_, he, hr, ?_⟩
    show ({ g.hw.registers with
      tt := ttReplace g.hw.tt c (storedEntry g.cfg.ttHighBitsStored (ttEntry g.hw.tt c) v) } : Registers) = _
    rw [hg.hw.registers, hg.cfg, hs, show g.hw.tt = s.hw.tt from congrArg Registers.tt hg.hw.registers]
    rfl
  obtain ⟨hran1, hreg1⟩ := hr1
  obtain ⟨t, w, he2, hran2, hreg2, hw, _⟩ := txnRdTt_run c (hran1.admitted ha) (hran1.busOk (n := 1) hb)
  have hv : w = v := by
    rw [hw (by rw [hran1.cfg]; exact hs), show t1.hw.tt = _ from congrArg Registers.tt hreg1]
    exact ttReplace_same ..
  subst hv
  refine ⟨t, ?_, hran1.trans hran2, hreg2.trans hreg1⟩
  unfold confirmTt confirmWrite
  rw [opThen_ok he1, opThen_ok he2]
  simp [confirmCheck, (hran1.trans hran2).cfg, hstd]

/-- The log of clearing entries (R205). -/
def clearLog (cs : List Byte) : List Txn := cs.flatMap fun c => [okTxn (wrTtKey c) 0x0000, okTxn (rdTtKey c) 0x0000]

/-- The table with entries cleared. -/
def clearedTt (tt : Vector Half 256) : List Byte → Vector Half 256
  | [] => tt
  | c :: cs => clearedTt (ttReplace tt c 0x0000) cs

/-- R205: every entry of the list is cleared by a confirmed write. -/
theorem clearEntries_run (cs : List Byte) : ∀ s : State, s.cfg.Valid → s.host.lock = .held s.host.current →
    BusOk (2 * cs.length) s → s.cfg.ttHighBitsStored = true → s.cfg.confirmRule = .standard →
    ∃ t, clearEntries cs s = (.ok (), t) ∧ Ran (2 * cs.length) (clearLog cs) s t ∧
      t.hw.registers = { s.hw.registers with tt := clearedTt s.hw.tt cs } := by
  induction cs with
  | nil =>
    intro s _ _ _ _ _
    exact ⟨s, rfl, Ran.ofGap (AgentKeeps.refl s), rfl⟩
  | cons c cs ih =>
    intro s hv hl hb hs hstd
    have hb' : BusOk (2 + 2 * cs.length) s := by
      rw [show 2 + 2 * cs.length = 2 * (c :: cs).length by simp; omega]
      exact hb
    obtain ⟨t1, he1, hr1, hg1⟩ := confirmTt_run c 0x0000 ⟨tt_inside hv c, hl⟩ (fun j hj => hb' j (by omega)) hs hstd
    obtain ⟨t, he, hr, hg⟩ := ih t1 (by rw [hr1.cfg]; exact hv) (by rw [hr1.current]; exact hr1.held hl)
      (hr1.busOk hb') (by rw [hr1.cfg]; exact hs) (by rw [hr1.cfg]; exact hstd)
    refine ⟨t, ?_, ?_, ?_⟩
    · show opThen _ _ s = _
      rw [opThen_ok he1]
      exact he
    · have := hr1.trans hr
      rwa [show 2 + 2 * cs.length = 2 * (c :: cs).length by simp; omega] at this
    · rw [hg, hg1, show t1.hw.tt = _ from congrArg Registers.tt hg1]
      rfl

theorem clearedTt_entry (cs : List Byte) : ∀ (tt : Vector Half 256) (c : Byte),
    ttEntry (clearedTt tt cs) c = if c ∈ cs then 0x0000 else ttEntry tt c := by
  induction cs with
  | nil => intro tt c; simp [clearedTt]
  | cons d cs ih =>
    intro tt c
    rw [clearedTt, ih]
    by_cases hc : c ∈ cs
    · simp [hc]
    · by_cases hd : c = d
      · subst hd
        simp [hc]
      · simp [hc, hd, ttReplace_other _ _ _ _ hd]

theorem mem_allCodes (c : Byte) : c ∈ allCodes := by
  refine List.mem_map.mpr ⟨c.toNat, List.mem_range.mpr c.isLt, by simp⟩

theorem allCodes_length : allCodes.length = 256 := by simp [allCodes]

/-- R203: the bits of a changed mask. -/
theorem withTriggerBit_bit (m : Half) (b : Byte) (enabled : Bool) {j : Nat} (hj : j < 16) :
    (withTriggerBit m b enabled).getLsbD j = if j = b.toNat then enabled else m.getLsbD j := by
  have one : ((1 : Half) <<< b.toNat).getLsbD j = decide (j = b.toNat) := by
    rw [BitVec.getLsbD_shiftLeft]
    by_cases h : j < b.toNat
    · simp [h, Nat.ne_of_lt h]
    · by_cases h' : j = b.toNat
      · subst h'
        simp [hj]
      · simp [h, h', BitVec.getLsbD_one]
        omega
  unfold withTriggerBit
  cases enabled
  · rw [if_neg (by simp), BitVec.getLsbD_and, BitVec.getLsbD_not, one]
    by_cases h : j = b.toNat <;> simp [h, hj]
  · rw [if_pos rfl, BitVec.getLsbD_or, one]
    by_cases h : j = b.toNat <;> simp [h]

/-- R204: the bit read from a mask. -/
theorem triggerBit_eq (m : Half) (b : Byte) : triggerBit m b = m.getLsbD b.toNat := by
  have e : (m >>> b.toNat) &&& 1 = (BitVec.ofBool (m.getLsbD b.toNat)).setWidth 16 := by
    apply BitVec.eq_of_getLsbD_eq
    intro i hi
    rw [BitVec.getLsbD_and, BitVec.getLsbD_ushiftRight, show (1 : Half).getLsbD i = decide (i = 0) by
      simp [BitVec.getLsbD_one]]
    by_cases h : i = 0
    · subst h
      cases m.getLsbD b.toNat <;> simp
    · cases hm : m.getLsbD b.toNat <;> simp [h]
  unfold triggerBit
  rw [e]
  cases m.getLsbD b.toNat <;> rfl

/-! ### The FIFO's paired read -/

/-- R110: a record is what its halves join to. -/
theorem joinHalves_halves (r : Word) : joinHalves (highHalf r) (lowHalf r) = r := by
  apply BitVec.eq_of_getLsbD_eq
  intro i hi
  simp only [joinHalves, highHalf, lowHalf, BitVec.getLsbD_or, BitVec.getLsbD_shiftLeft, BitVec.getLsbD_setWidth,
    BitVec.getLsbD_ushiftRight]
  by_cases h : i < 16
  · simp [h, hi]
  · simp [h, hi, show i - 16 < 32 by omega, show i - 16 < 16 by omega, show 16 + (i - 16) = i by omega]

theorem readHigh_head {s : State} {r : Word} {rest : List Word} (hf : s.hw.fifo = r :: rest) :
    readHigh s = (highHalf r, s.mapHw fun hw => { hw with fifoPhase := .highRead }) := by
  unfold readHigh
  rw [hf]

theorem readHigh_empty {s : State} (hf : s.hw.fifo = []) :
    readHigh s = (highHalf s.cfg.emptyReadValue,
      s.mapHw fun hw => { hw with fifoUnderflow := true, fifoPhase := .highReadEmpty }) := by
  unfold readHigh
  rw [hf]

theorem readLow_head {s : State} {r : Word} {rest : List Word} (hp : s.hw.fifoPhase = .highRead)
    (hf : s.hw.fifo = r :: rest) :
    readLow s = (lowHalf r, s.mapHw fun hw => { hw with fifo := rest, fifoPhase := .idle }) := by
  unfold readLow
  rw [hp, hf]

theorem readLow_empty {s : State} (hp : s.hw.fifoPhase = .highReadEmpty) :
    readLow s = (lowHalf s.cfg.emptyReadValue, s.mapHw fun hw => { hw with fifoPhase := .idle }) := by
  unfold readLow
  rw [hp]

theorem txnRdFifoHi_run {s : State} {r : Word} {rest : List Word} (hv : s.cfg.Valid)
    (hl : s.host.lock = .held s.host.current) (hb : BusOk 1 s) (hp : s.hw.fifoPhase = .idle)
    (hf : s.hw.fifo = r :: rest) :
    ∃ t, txnRdFifoHi s = (.ok (highHalf r), t) ∧ t.hw = { s.hw with fifoPhase := .highRead } ∧
      t.env.gaps = s.env.gaps ∧ Ran 1 [okTxn 0x90001200 (highHalf r)] s t := by
  have e : txnRdFifoHi s = _ := busRead_ok (refusal_none ⟨ev_inside hv (by decide), hl⟩ (by simp [highCondition, hp]))
    (hb 0 (by omega))
  rw [readHigh_head (s := s.nextBus) hf] at e
  exact ⟨_, e, rfl, rfl, Ran.ofTxn ⟨rfl, rfl, rfl⟩⟩

theorem txnRdFifoHi_empty {s : State} (hv : s.cfg.Valid) (hl : s.host.lock = .held s.host.current) (hb : BusOk 1 s)
    (hp : s.hw.fifoPhase = .idle) (hf : s.hw.fifo = []) :
    ∃ t, txnRdFifoHi s = (.ok (highHalf s.cfg.emptyReadValue), t) ∧
      t.hw = { s.hw with fifoUnderflow := true, fifoPhase := .highReadEmpty } ∧
      Ran 1 [okTxn 0x90001200 (highHalf s.cfg.emptyReadValue)] s t := by
  have e : txnRdFifoHi s = _ := busRead_ok (refusal_none ⟨ev_inside hv (by decide), hl⟩ (by simp [highCondition, hp]))
    (hb 0 (by omega))
  rw [readHigh_empty (s := s.nextBus) hf] at e
  exact ⟨_, e, rfl, Ran.ofTxn ⟨rfl, rfl, rfl⟩⟩

/-- R183: the paired read of a FIFO that is not flushed between its halves returns and removes its head record. -/
theorem pairedRead_run {s : State} {r : Word} {rest : List Word} (hv : s.cfg.Valid)
    (hl : s.host.lock = .held s.host.current) (hb : BusOk 2 s) (hp : s.hw.fifoPhase = .idle)
    (hf : s.hw.fifo = r :: rest) (hfl : s.cfg.clearAlsoFlushes = false ∨ s.env.gaps = []) :
    ∃ t newer, pairedRead s = (.ok r, t) ∧ t.hw.fifo = rest ++ newer ∧ t.hw.fifoPhase = .idle ∧
      t.hw.registers = s.hw.registers ∧
      Ran 2 [okTxn 0x90001200 (highHalf r), okTxn 0x90001202 (lowHalf r)] s t := by
  obtain ⟨u, e1, hu, hug, r1⟩ := txnRdFifoHi_run hv hl hb.first' hp hf
  have hup : u.hw.fifoPhase = .highRead := by rw [hu]
  have huf : u.hw.fifo = r :: rest := by rw [hu]; exact hf
  obtain ⟨g, hg, hgn, e2, r2⟩ := gapRead_ran (key := 0x90001202) (w := .ev) (off := 0x1202) (cond := lowCondition)
    (eff := readLow) (trace := lowTrace) (r1.admitted ⟨ev_inside hv (by decide), hl⟩) (r1.busOk (n := 1) hb)
    (fun g hg => by rcases hg.hw.headStays r rest hup huf with ⟨h, _⟩ | h <;> simp [lowCondition, h])
    fun u => (readLow_step u).hwOnly
  obtain ⟨hgp, nw, hgf⟩ : g.hw.fifoPhase = .highRead ∧ ∃ newer, g.hw.fifo = r :: (rest ++ newer) := by
    rcases hfl with hfl | hfl
    · obtain ⟨h1, nw, h2⟩ := hg.hw.grows (by rw [r1.cfg]; exact hfl)
      exact ⟨h1.trans hup, nw, by rw [← h2, huf]; rfl⟩
    · rw [hgn (hug.trans hfl)]
      exact ⟨hup, [], by simpa using huf⟩
  rw [readLow_head (s := g.nextBus) hgp hgf] at e2 r2
  refine ⟨_, nw, ?_, rfl, rfl, ?_, r1.trans r2⟩
  · have e2' : opGap txnRdFifoLo u = _ := e2
    unfold pairedRead
    rw [opThen_ok e1, opThen_ok e2', opPure_eq, joinHalves_halves]
  · show g.hw.registers = _
    rw [hg.hw.registers, hu]
    rfl

/-- R184: the paired read of the empty FIFO returns the empty-read value and raises the underflow flag. -/
theorem pairedRead_empty {s : State} (hv : s.cfg.Valid) (hl : s.host.lock = .held s.host.current) (hb : BusOk 2 s)
    (hp : s.hw.fifoPhase = .idle) (hf : s.hw.fifo = []) :
    ∃ t, pairedRead s = (.ok s.cfg.emptyReadValue, t) ∧ t.hw.fifoPhase = .idle ∧ t.hw.fifoUnderflow = true ∧
      t.hw.registers = s.hw.registers ∧
      Ran 2 [okTxn 0x90001200 (highHalf s.cfg.emptyReadValue), okTxn 0x90001202 (lowHalf s.cfg.emptyReadValue)] s t := by
  obtain ⟨u, e1, hu, r1⟩ := txnRdFifoHi_empty hv hl hb.first' hp hf
  have hup : u.hw.fifoPhase = .highReadEmpty := by rw [hu]
  obtain ⟨g, hg, _, e2, r2⟩ := gapRead_ran (key := 0x90001202) (w := .ev) (off := 0x1202) (cond := lowCondition)
    (eff := readLow) (trace := lowTrace) (r1.admitted ⟨ev_inside hv (by decide), hl⟩) (r1.busOk (n := 1) hb)
    (fun g hg => by simp [lowCondition, hg.hw.emptyRead hup]) fun u => (readLow_step u).hwOnly
  have hc : g.nextBus.cfg = s.cfg := hg.cfg.trans r1.cfg
  rw [readLow_empty (s := g.nextBus) (hg.hw.emptyRead hup), hc] at e2 r2
  refine ⟨_, ?_, rfl, ?_, ?_, r1.trans r2⟩
  · have e2' : opGap txnRdFifoLo u = _ := e2
    unfold pairedRead
    rw [opThen_ok e1, opThen_ok e2', opPure_eq, joinHalves_halves]
  · show g.hw.fifoUnderflow = _
    rw [hg.hw.underflow, hu]
  · show g.hw.registers = _
    rw [hg.hw.registers, hu]
    rfl

/-- R183, R311: the paired read whatever the agents do between its halves. -/
theorem pairedRead_any {s : State} (hv : s.cfg.Valid) (hl : s.host.lock = .held s.host.current) (hb : BusOk 2 s)
    (hp : s.hw.fifoPhase = .idle) :
    ∃ t hi lo, pairedRead s = (.ok (joinHalves hi lo), t) ∧ t.hw.fifoPhase = .idle ∧ t.hw.registers = s.hw.registers ∧
      (∀ r rest, s.hw.fifo = r :: rest → hi = highHalf r ∧ (lo = lowHalf r ∨ lo = lowHalf s.cfg.emptyReadValue)) ∧
      Ran 2 [okTxn 0x90001200 hi, okTxn 0x90001202 lo] s t := by
  rcases hf : s.hw.fifo with _ | ⟨r, rest⟩
  · obtain ⟨t, e, h1, _, h3, hr⟩ := pairedRead_empty hv hl hb hp hf
    exact ⟨t, _, _, by rw [joinHalves_halves]; exact e, h1, h3, by simp, hr⟩
  · obtain ⟨u, e1, hu, _, r1⟩ := txnRdFifoHi_run hv hl hb.first' hp hf
    have half : ∀ g, AgentKeeps u g → (g.hw.fifoPhase = .highRead ∧ ∃ newer, g.hw.fifo = r :: (rest ++ newer)) ∨
        g.hw.fifoPhase = .highReadEmpty := fun g hg => hg.hw.headStays r rest (by rw [hu]) (by rw [hu]; exact hf)
    obtain ⟨g, hg, _, e2, r2⟩ := gapRead_ran (key := 0x90001202) (w := .ev) (off := 0x1202) (cond := lowCondition)
      (eff := readLow) (trace := lowTrace) (r1.admitted ⟨ev_inside hv (by decide), hl⟩) (r1.busOk (n := 1) hb)
      (fun g hg => by rcases half g hg with ⟨h, _⟩ | h <;> simp [lowCondition, h]) fun u => (readLow_step u).hwOnly
    have e2' : opGap txnRdFifoLo u = _ := e2
    have hcfg : g.nextBus.cfg = s.cfg := hg.cfg.trans r1.cfg
    have hreg : g.hw.registers = s.hw.registers := by
      rw [hg.hw.registers, hu]
      rfl
    have low : (readLow g.nextBus).2.hw.fifoPhase = .idle ∧ (readLow g.nextBus).2.hw.registers = g.hw.registers ∧
        ((readLow g.nextBus).1 = lowHalf r ∨ (readLow g.nextBus).1 = lowHalf s.cfg.emptyReadValue) := by
      rcases half g hg with ⟨h, nw, hn⟩ | h
      · rw [readLow_head (s := g.nextBus) h hn]
        exact ⟨rfl, rfl, .inl rfl⟩
      · rw [readLow_empty (s := g.nextBus) h, hcfg]
        exact ⟨rfl, rfl, .inr rfl⟩
    refine ⟨(readLow g.nextBus).2.logTxn (okTxn 0x90001202 (readLow g.nextBus).1), highHalf r, (readLow g.nextBus).1,
      ?_, low.1, low.2.1.trans hreg, fun r' rest' h => ?_, r1.trans r2⟩
    · unfold pairedRead
      rw [opThen_ok e1, opThen_ok e2', opPure_eq]
    · cases h
      exact ⟨rfl, low.2.2⟩

/-! ### Calls -/

/-- The state in which a public operation's body runs holds the lock for its task. -/
theorem ReadyToCall.inside {n : Nat} {s : State} (h : s.host.current = .task n) :
    (s.setLock (.held (.task n))).host.lock = .held (s.setLock (.held (.task n))).host.current := by
  show Lock.held _ = .held s.host.current
  rw [h]

theorem endCall_ok {u t : State} {body : Op Result} {v : Result} (h : body u = (.ok v, t)) :
    endCall (body u) = (t.setLock .free).giveReturn v := by
  rw [h]
  rfl

theorem endSubStep_ok {u t : State} {body : Op Unit} {next : DriverState} (h : body u = (.ok (), t)) :
    endSubStep next (body u) = (t.setDrv next).giveReturn .done := by
  rw [h]
  rfl

theorem giveReturn_returned {k : HostContext} {r : Result} {t : State} (h : t.host.current = k) :
    Returned k r (t.giveReturn r) := by
  simp [Returned, State.giveReturn, State.returnTo, h]

end Sys2Proof.Machine
end

