-- ==== Sys2Proof/Laws/Construction.lean ====
section
/-! SUPPORT. What the parts of the construction sequence answer when their transactions succeed. -/

namespace Sys2Proof.Machine

theorem enterState_eq (d : DriverState) (s : State) : enterState d s = (.ok (), s.setDrv d) := rfl

/-- R233: the two bytes give the required ID exactly when they are its bytes. -/
theorem moduleId_iff (hi lo : Byte) :
    moduleIdOf ((byteValue hi).setWidth 8) ((byteValue lo).setWidth 8) = Config.moduleId ↔ hi = 0xBB ∧ lo = 0x15 := by
  have e : ∀ x : Byte, (byteValue x).setWidth 8 = x := fun x => by simp [byteValue]
  rw [e, e]
  constructor
  · intro h
    have bit : ∀ k, (moduleIdOf hi lo).getLsbD k = Config.moduleId.getLsbD k := fun k => by rw [h]
    constructor
    · apply BitVec.eq_of_getLsbD_eq
      intro i hi'
      have := bit (i + 8)
      simp only [moduleIdOf, BitVec.getLsbD_or, BitVec.getLsbD_shiftLeft, BitVec.getLsbD_setWidth] at this
      rw [BitVec.getLsbD_of_ge lo (i + 8) (by omega)] at this
      simp only [show i + 8 < 16 by omega, show ¬ i + 8 < 8 by omega, show i + 8 - 8 = i by omega,
        show i < 16 by omega, decide_true, decide_false, Bool.not_false, Bool.and_true, Bool.true_and,
        Bool.and_false, Bool.or_false] at this
      rw [this]
      interval_cases i <;> rfl
    · apply BitVec.eq_of_getLsbD_eq
      intro i hi'
      have := bit i
      simp only [moduleIdOf, BitVec.getLsbD_or, BitVec.getLsbD_shiftLeft, BitVec.getLsbD_setWidth] at this
      simp only [show i < 16 by omega, show i < 8 by omega, decide_true, Bool.not_true, Bool.and_false,
        Bool.false_and, Bool.true_and, Bool.false_or] at this
      rw [this]
      interval_cases i <;> rfl
  · rintro ⟨rfl, rfl⟩
    rfl

/-- R232 to R234: the probe reads both bytes and compares. -/
theorem probeBody_run {s : State} (hv : s.cfg.Valid) (hl : s.host.lock = .held s.host.current) (hb : BusOk 2 s) :
    ∃ t, (probeBody s = if s.hw.idHi = 0xBB ∧ s.hw.idLo = 0x15 then (.ok (), t)
        else (.error (.error .deviceNotFound), t)) ∧
      Ran 2 [okTxn 0x00000089 (byteValue s.hw.idHi), okTxn 0x0000008B (byteValue s.hw.idLo)] s t ∧
      t.hw.registers = s.hw.registers := by
  obtain ⟨t1, e1, r1, g1⟩ := readReg_run (key := 0x00000089) (w := .cs) (off := 0x89)
    (get := fun hw => byteValue hw.idHi) ⟨cs_inside hv (by decide), hl⟩ hb.first'
    fun h h' e => congrArg (fun r => byteValue r.idHi) e
  obtain ⟨t2, e2, r2, g2⟩ := readReg_run (key := 0x0000008B) (w := .cs) (off := 0x8B)
    (get := fun hw => byteValue hw.idLo) (r1.admitted ⟨cs_inside hv (by decide), hl⟩) (r1.busOk (n := 1) hb)
    fun h h' e => congrArg (fun r => byteValue r.idLo) e
  rw [show t1.hw.idLo = s.hw.idLo from congrArg Registers.idLo g1] at e2 r2
  refine ⟨t2, ?_, r1.trans r2, g2.trans g1⟩
  have e1' : opGap txnRdIdHi s = _ := e1
  have e2' : opGap txnRdIdLo t1 = _ := e2
  unfold probeBody
  rw [opThen_ok e1', opThen_ok e2']
  by_cases h : s.hw.idHi = 0xBB ∧ s.hw.idLo = 0x15
  · rw [if_pos h, if_pos ((moduleId_iff _ _).mpr h)]
    rfl
  · rw [if_neg h, if_neg fun e => h ((moduleId_iff _ _).mp e)]
    rfl

/-- R235: the software reset, confirmed. -/
theorem resetBody_run {s : State} (hv : s.cfg.Valid) (hl : s.host.lock = .held s.host.current) (hb : BusOk 2 s)
    (hstd : s.cfg.confirmRule = .standard) :
    ∃ t, resetBody s = (.ok (), t) ∧ Ran 2 [okTxn 0x50000040 0x00FF, okTxn 0x10000040 0x00FF] s t ∧
      t.hw.ctrl = 0x00FF ∧ t.hw.fifoPhase = .idle ∧ t.hw.idHi = s.hw.idHi ∧ t.hw.idLo = s.hw.idLo := by
  obtain ⟨g, k, hg, hk, _, _, hrun, hran⟩ := confirmWrite_ran (wkey := 0x50000040) (rkey := 0x10000040) (w := .cs)
    (off := 0x40) (v := 0x00FF) (cond := commandCondition 0x00FF) (eff := controlEffect 0x00FF)
    (rdEff := fun s => (s.hw.ctrl, s)) (trace := noTrace) ⟨cs_inside hv (by decide), hl⟩ hb (fun _ _ => rfl)
    (fun u => (controlEffect_step 0x00FF u).hwOnly) (fun u => HwOnly.refl u) fun g k _ hk => by
      have : k.hw.ctrl = 0x00FF := congrArg Registers.ctrl hk.hw.registers
      simp [confirmCheck, hstd, this]
  have hctrl : k.nextBus.hw.ctrl = 0x00FF := congrArg Registers.ctrl hk.hw.registers
  rw [hctrl] at hrun hran
  exact ⟨_, hrun, hran, hctrl, hk.hw.idle rfl,
    (congrArg Registers.idHi hk.hw.registers).trans (congrArg Registers.idHi hg.hw.registers),
    (congrArg Registers.idLo hk.hw.registers).trans (congrArg Registers.idLo hg.hw.registers)⟩

/-- R238: EnableTCLK, confirmed. -/
theorem startBody_run {s : State} (hv : s.cfg.Valid) (hl : s.host.lock = .held s.host.current) (hb : BusOk 2 s)
    (hstd : s.cfg.confirmRule = .standard) :
    ∃ t, startBody s = (.ok (), t) ∧ Ran 2 [okTxn 0x50000040 0x0001, okTxn 0x10000040 0x0001] s t ∧
      t.hw.registers = { s.hw.registers with ctrl := 0x0001, tclkEnabled := true } := by
  obtain ⟨_, t, he, hr, hg, _, _⟩ := confirmReg_run (wkey := 0x50000040) (rkey := 0x10000040) (w := .cs) (off := 0x40)
    (v := 0x0001) (cond := commandCondition 0x0001) (eff := controlEffect 0x0001) (get := fun hw => hw.ctrl)
    (fun r => { r with ctrl := 0x0001, tclkEnabled := true }) ⟨cs_inside hv (by decide), hl⟩ hb (fun _ => rfl)
    (fun u => (controlEffect_step 0x0001 u).hwOnly) (fun _ => rfl) (fun h h' e => congrArg Registers.ctrl e)
    (fun _ => rfl) hstd
  refine ⟨t, ?_, hr, hg⟩
  have he' : confirmCtrl 0x0001 s = _ := he
  unfold startBody
  rw [he']

/-- R205: the log of the whole table. -/
theorem clearLog_allCodes : clearLog allCodes = tableLog := by
  unfold clearLog allCodes tableLog
  rw [List.flatMap_map]
  apply List.flatMap_congr
  intro c hc
  rw [wrTtKey_eq, rdTtKey_eq, BitVec.toNat_ofNat, Nat.mod_eq_of_lt (List.mem_range.mp hc)]

/-- R205: the whole table. -/
theorem clearTable_run {s : State} (hv : s.cfg.Valid) (hl : s.host.lock = .held s.host.current) (hb : BusOk 512 s)
    (hs : s.cfg.ttHighBitsStored = true) (hstd : s.cfg.confirmRule = .standard) :
    ∃ t tt, clearTable s = (.ok (), t) ∧ Ran 512 tableLog s t ∧
      t.hw.registers = { s.hw.registers with tt := tt } ∧ ∀ c, ttEntry tt c = 0x0000 := by
  have := clearEntries_run allCodes s hv hl (by rw [allCodes_length]; exact hb) hs hstd
  rw [allCodes_length, clearLog_allCodes] at this
  obtain ⟨t, he, hr, hg⟩ := this
  exact ⟨t, _, he, hr, hg, fun c => by rw [clearedTt_entry, if_pos (mem_allCodes c)]⟩

theorem confirmWrtrig_run {s : State} (v : Byte) (hv : s.cfg.Valid) (hl : s.host.lock = .held s.host.current)
    (hb : BusOk 2 s) (hstd : s.cfg.confirmRule = .standard) :
    ∃ t, confirmWrtrig v s = (.ok (), t) ∧
      Ran 2 [okTxn 0x4000004A (byteValue v), okTxn 0x0000004A (byteValue v)] s t ∧
      t.hw.registers = { s.hw.registers with wrTrigSel := v } := by
  obtain ⟨_, t, he, hr, hg, _, _⟩ := confirmReg_run (wkey := 0x4000004A) (rkey := 0x0000004A) (w := .cs) (off := 0x4A)
    (v := byteValue v) (cond := noCondition) (eff := State.mapHw fun hw => { hw with wrTrigSel := v })
    (get := fun hw => byteValue hw.wrTrigSel) (fun r => { r with wrTrigSel := v }) ⟨cs_inside hv (by decide), hl⟩ hb
    (fun _ => rfl) (fun _ => ⟨rfl, rfl, rfl⟩) (fun _ => rfl) (fun h h' e => congrArg (fun r => byteValue r.wrTrigSel) e)
    (fun _ => rfl) hstd
  exact ⟨t, he, hr, hg⟩

theorem confirmClrtrig_run {s : State} (v : Byte) (hv : s.cfg.Valid) (hl : s.host.lock = .held s.host.current)
    (hb : BusOk 2 s) (hstd : s.cfg.confirmRule = .standard) :
    ∃ t, confirmClrtrig v s = (.ok (), t) ∧
      Ran 2 [okTxn 0x4000004B (byteValue v), okTxn 0x0000004B (byteValue v)] s t ∧
      t.hw.registers = { s.hw.registers with clrTrigSel := v } := by
  obtain ⟨_, t, he, hr, hg, _, _⟩ := confirmReg_run (wkey := 0x4000004B) (rkey := 0x0000004B) (w := .cs) (off := 0x4B)
    (v := byteValue v) (cond := noCondition) (eff := State.mapHw fun hw => { hw with clrTrigSel := v })
    (get := fun hw => byteValue hw.clrTrigSel) (fun r => { r with clrTrigSel := v }) ⟨cs_inside hv (by decide), hl⟩ hb
    (fun _ => rfl) (fun _ => ⟨rfl, rfl, rfl⟩) (fun _ => rfl)
    (fun h h' e => congrArg (fun r => byteValue r.clrTrigSel) e) (fun _ => rfl) hstd
  exact ⟨t, he, hr, hg⟩

/-- R236: both selectors neutral, then the whole table. -/
theorem configureBody_run {s : State} (hv : s.cfg.Valid) (hl : s.host.lock = .held s.host.current)
    (hb : BusOk 516 s) (hs : s.cfg.ttHighBitsStored = true) (hstd : s.cfg.confirmRule = .standard) :
    ∃ t tt, configureBody s = (.ok (), t) ∧
      Ran 516 (selectorLog ++ tableLog) s t ∧
      t.hw.registers = { s.hw.registers with wrTrigSel := 0x00, clrTrigSel := 0x00, tt := tt } ∧
      ∀ c, ttEntry tt c = 0x0000 := by
  obtain ⟨t1, e1, r1, g1⟩ := confirmWrtrig_run 0x00 hv hl (fun j hj => hb j (by omega)) hstd
  obtain ⟨t2, e2, r2, g2⟩ := confirmClrtrig_run (s := t1) 0x00 (by rw [r1.cfg]; exact hv)
    (by rw [r1.current]; exact r1.held hl) (r1.busOk (n := 2) fun j hj => hb j (by omega)) (by rw [r1.cfg]; exact hstd)
  have r12 := r1.trans r2
  obtain ⟨t3, tt, e3, r3, g3, hz⟩ := clearTable_run (s := t2) (by rw [r12.cfg]; exact hv)
    (by rw [r12.current]; exact r12.held hl) (r12.busOk (n := 2 + 2) (m := 512) hb) (by rw [r12.cfg]; exact hs)
    (by rw [r12.cfg]; exact hstd)
  refine ⟨t3, tt, ?_, r12.trans r3, ?_, hz⟩
  · unfold configureBody
    rw [opThen_ok e1, opThen_ok e2, e3]
  · rw [g3, g2, g1]

end Sys2Proof.Machine
end

