-- ==== Sys2Proof/Laws/Encoding.lean ====
section
/-! SUPPORT. The fields of a code word: what each reads from an encoding, and the words that are rebuilt from them. -/

namespace Sys2Proof

/-! ### Reading the fields of an encoding -/

@[simp] theorem keyWord_key (k : Word) : bitsAt (keyWord k) 0 32 = k := BitVec.extractLsb'_append_eq_right

@[simp] theorem keyWord16_key (k : Word) (v : Half) : bitsAt (keyWord16 k v) 0 32 = k :=
  BitVec.extractLsb'_append_eq_right

@[simp] theorem keyWord16_value (k : Word) (v : Half) : bitsAt (keyWord16 k v) 32 16 = v :=
  BitVec.extractLsb'_append_eq_left

@[simp] theorem keyWord8_key (k : Word) (v : Byte) : bitsAt (keyWord8 k v) 0 32 = k :=
  BitVec.extractLsb'_append_eq_right

@[simp] theorem keyWord8_value (k : Word) (v : Byte) : bitsAt (keyWord8 k v) 32 8 = v := by
  apply BitVec.eq_of_getLsbD_eq
  intro i hi
  simp only [keyWord8, BitVec.getLsbD_extractLsb', BitVec.getLsbD_append, hi, decide_true, Bool.true_and]
  simp [show ¬ 32 + i < 32 by omega, show 32 + i - 32 = i by omega, hi]

theorem keyWord_clear (k : Word) : keyWord k >>> 32 = 0 := by
  apply BitVec.eq_of_getLsbD_eq
  intro i hi
  simp only [keyWord, BitVec.getLsbD_ushiftRight, BitVec.getLsbD_append]
  simp

theorem keyWord8_clear (k : Word) (v : Byte) : keyWord8 k v >>> 40 = 0 := by
  apply BitVec.eq_of_getLsbD_eq
  intro i hi
  simp only [keyWord8, BitVec.getLsbD_ushiftRight, BitVec.getLsbD_append]
  simp [show ¬ 40 + i < 32 by omega]
  omega

@[simp] theorem ifClear_keyWord (k : Word) (i : Instr) : ifClear (keyWord k) 32 i = .ok i := by
  simp [ifClear, keyWord_clear]

@[simp] theorem ifClear_keyWord8 (k : Word) (v : Byte) (i : Instr) : ifClear (keyWord8 k v) 40 i = .ok i := by
  simp [ifClear, keyWord8_clear]

@[simp] theorem cmdWord_word (v : Half) : bitsAt (cmdWord v) 0 16 = v := BitVec.extractLsb'_append_eq_right

@[simp] theorem ifClear_cmdWord (v : Half) (i : Instr) : ifClear (cmdWord v) 16 i = .ok i := by
  have : cmdWord v >>> 16 = 0 := by
    apply BitVec.eq_of_getLsbD_eq
    intro j hj
    simp only [cmdWord, BitVec.getLsbD_ushiftRight, BitVec.getLsbD_append]
    simp
  simp [ifClear, this]

@[simp] theorem numWord_num (n : Byte) (x : BitVec 40) : bitsAt (numWord n x) 0 8 = n :=
  BitVec.extractLsb'_append_eq_right

/-- A field above the number is a field of the operands. -/
theorem numWord_field (n : Byte) (x : BitVec 40) (lo w : Nat) :
    bitsAt (numWord n x) (8 + lo) w = x.extractLsb' lo w := by
  apply BitVec.eq_of_getLsbD_eq
  intro i hi
  simp only [numWord, BitVec.getLsbD_extractLsb', BitVec.getLsbD_append]
  simp [hi, show ¬ 8 + lo + i < 8 by omega, show 8 + lo + i - 8 = lo + i by omega]

theorem numWord_shift (n : Byte) (x : BitVec 40) (k : Nat) :
    numWord n x >>> (8 + k) = (x >>> k).setWidth 48 := by
  apply BitVec.eq_of_getLsbD_eq
  intro i hi
  simp only [numWord, BitVec.getLsbD_ushiftRight, BitVec.getLsbD_append]
  simp [show ¬ 8 + k + i < 8 by omega, show 8 + k + i - 8 = k + i by omega]
  intro h
  have := BitVec.lt_of_getLsbD h
  omega

@[simp] theorem ttKey_bits (base : BitVec 23) (c : Byte) : ttKey base c &&& 0xFFFFFE01 = base ++ (0 : BitVec 9) := by
  apply BitVec.eq_of_getLsbD_eq
  intro i hi
  have m : (0xFFFFFE01 : Word) = BitVec.allOnes 23 ++ (1 : BitVec 9) := by decide
  rw [m]
  simp only [ttKey, BitVec.getLsbD_and, BitVec.getLsbD_append, BitVec.getLsbD_allOnes]
  by_cases h0 : i = 0
  · subst h0; simp
  · by_cases h9 : i < 9
    · have : (1 : BitVec 9).getLsbD i = false := by
        interval_cases i <;> first | omega | rfl
      rw [if_pos h9, if_pos h9, this, Bool.and_false]
      simp
    · simp only [h9, if_false, show ¬ i < 1 by omega, show ¬ i - 1 < 8 by omega, show i - 1 - 8 = i - 9 by omega]
      simp [show i - 9 < 23 by omega]

@[simp] theorem ttKey_code (base : BitVec 23) (c : Byte) : (ttKey base c).extractLsb' 1 8 = c := by
  apply BitVec.eq_of_getLsbD_eq
  intro i hi
  simp only [ttKey, BitVec.getLsbD_extractLsb', BitVec.getLsbD_append]
  simp [hi, show ¬ 1 + i < 1 by omega, show 1 + i - 1 = i by omega]

/-- A field of the key is a field of the code word. -/
theorem bitsAt_key (x : CodeWord) (lo w : Nat) (h : lo + w ≤ 32) :
    bitsAt x lo w = (bitsAt x 0 32).extractLsb' lo w := by
  apply BitVec.eq_of_getLsbD_eq
  intro i hi
  simp [hi, show lo + i < 32 by omega]

/-! ### What an accepted word says -/

theorem ifClear_ok {x : CodeWord} {lo : Nat} {i j : Instr} (h : ifClear x lo i = .ok j) : x >>> lo = 0 ∧ i = j := by
  unfold ifClear at h
  split at h
  · exact ⟨‹_›, Except.ok.inj h⟩
  · exact nomatch h

/-- One row of a decoder's chain: the word is this row's, or the rest of the chain accepted it. -/
theorem row_or_rest {c : Prop} [Decidable c] {a b : Except Reject Instr} {i : Instr}
    (h : (if c then a else b) = .ok i) : (c ∧ a = .ok i) ∨ (¬ c ∧ b = .ok i) := by
  by_cases hc : c
  · exact .inl ⟨hc, by rwa [if_pos hc] at h⟩
  · exact .inr ⟨hc, by rwa [if_neg hc] at h⟩

/-! ### Rebuilding a word from its fields -/

theorem word_split (x : CodeWord) (lo : Nat) (i j : Nat) (h : x >>> lo = 0) (hj : lo + i = j) : x.getLsbD j = false := by
  have := congrArg (fun y : CodeWord => y.getLsbD i) h
  simpa [hj] using this

theorem eq_keyWord16 (x : CodeWord) : x = keyWord16 (bitsAt x 0 32) (bitsAt x 32 16) := by
  apply BitVec.eq_of_getLsbD_eq
  intro i hi
  simp only [keyWord16, BitVec.getLsbD_append, BitVec.getLsbD_extractLsb']
  by_cases h : i < 32
  · simp [h]
  · simp [h, show i - 32 < 16 by omega, show 32 + (i - 32) = i by omega]

theorem eq_keyWord {x : CodeWord} (h : x >>> 32 = 0) : x = keyWord (bitsAt x 0 32) := by
  apply BitVec.eq_of_getLsbD_eq
  intro i hi
  simp only [keyWord, BitVec.getLsbD_append, BitVec.getLsbD_extractLsb']
  by_cases hi' : i < 32
  · simp [hi']
  · simp [hi', word_split x 32 (i - 32) i h (by omega)]

theorem eq_keyWord8 {x : CodeWord} (h : x >>> 40 = 0) : x = keyWord8 (bitsAt x 0 32) (bitsAt x 32 8) := by
  apply BitVec.eq_of_getLsbD_eq
  intro i hi
  simp only [keyWord8, BitVec.getLsbD_append, BitVec.getLsbD_extractLsb']
  by_cases h32 : i < 32
  · simp [h32]
  · by_cases h40 : i < 40
    · simp [h32, show i - 32 < 8 by omega, show 32 + (i - 32) = i by omega]
    · simp [h32, show ¬ i - 32 < 8 by omega, word_split x 40 (i - 40) i h (by omega)]

theorem eq_cmdWord {x : CodeWord} (h : x >>> 16 = 0) : x = cmdWord (bitsAt x 0 16) := by
  apply BitVec.eq_of_getLsbD_eq
  intro i hi
  simp only [cmdWord, BitVec.getLsbD_append, BitVec.getLsbD_extractLsb']
  by_cases hi' : i < 16
  · simp [hi']
  · simp [hi', word_split x 16 (i - 16) i h (by omega)]

theorem eq_numWord (x : CodeWord) : x = numWord (bitsAt x 0 8) (x.extractLsb' 8 40) := by
  apply BitVec.eq_of_getLsbD_eq
  intro i hi
  simp only [numWord, BitVec.getLsbD_append, BitVec.getLsbD_extractLsb']
  by_cases h : i < 8
  · simp [h]
  · simp [h, show i - 8 < 40 by omega, show 8 + (i - 8) = i by omega]

/-- The key of a trigger-table transaction from its masked value. -/
theorem eq_ttKey {k : Word} {base : BitVec 23} (h : k &&& 0xFFFFFE01 = base ++ (0 : BitVec 9)) :
    k = ttKey base (k.extractLsb' 1 8) := by
  apply BitVec.eq_of_getLsbD_eq
  intro i hi
  have hb := congrArg (fun y : Word => y.getLsbD i) h
  have m : (0xFFFFFE01 : Word) = BitVec.allOnes 23 ++ (1 : BitVec 9) := by decide
  rw [m] at hb
  simp only [BitVec.getLsbD_and, BitVec.getLsbD_append, BitVec.getLsbD_allOnes] at hb
  simp only [ttKey, BitVec.getLsbD_append, BitVec.getLsbD_extractLsb']
  by_cases h0 : i = 0
  · subst h0; simpa using hb
  · by_cases h9 : i < 9
    · simp [show ¬ i < 1 by omega, show i - 1 < 8 by omega, show 1 + (i - 1) = i by omega]
    · simp only [h9, if_false, show i - 9 < 23 by omega, decide_true, Bool.and_true] at hb
      simp only [show ¬ i < 1 by omega, show ¬ i - 1 < 8 by omega, if_false, show i - 1 - 8 = i - 9 by omega]
      exact hb

end Sys2Proof
end

