-- ==== Sys2Proof/Laws/Failure.lean ====
section
/-! SUPPORT. Where an operation stops: at its first failing transaction, with BusAccessFailure, and none is issued after
it (R353, R354). -/

namespace Sys2Proof.Machine

variable {α β : Type} {E : HostError → Prop}

/-- The transactions `m` issues: all but the last succeeded, a failed one ends it with BusAccessFailure, and it ends
with no error but those of `E`. -/
def StopsAtFailure (E : HostError → Prop) (m : Op α) : Prop :=
  ∀ s, ∃ issued, (m s).2.host.log = s.host.log ++ issued ∧ (∀ e ∈ issued.dropLast, e.ok = true) ∧
    ((∃ e ∈ issued, e.ok = false) → (m s).1 = .error (.error .busAccessFailure)) ∧
    (∀ e, (m s).1 = .error (.error e) → E e)

/-- An operation that issues no transaction. -/
theorem StopsAtFailure.silent {m : Op α} (hl : ∀ s, (m s).2.host.log = s.host.log)
    (he : ∀ s e, (m s).1 = .error (.error e) → E e) : StopsAtFailure E m := fun s =>
  ⟨[], by simp [hl], by simp, by simp, he s⟩

theorem StopsAtFailure.pure (a : α) : StopsAtFailure E (opPure a) := .silent (fun _ => rfl) fun _ _ h => nomatch h

theorem mem_dropLast_append {a b : List Txn} {e : Txn} (h : e ∈ (a ++ b).dropLast) : e ∈ a ∨ e ∈ b.dropLast := by
  by_cases hb : b = []
  · subst hb
    exact .inl (List.dropLast_subset _ (by simpa using h))
  · rw [List.dropLast_append_of_ne_nil hb] at h
    exact List.mem_append.mp h

theorem StopsAtFailure.andThen {m : Op α} {k : α → Op β} (hm : StopsAtFailure E m) (hk : ∀ a, StopsAtFailure E (k a)) :
    StopsAtFailure E (opThen m k) := by
  intro s
  obtain ⟨i, hl, hd, hf, he⟩ := hm s
  rcases h : m s with ⟨e | a, t⟩ <;> rw [h] at hl hf he
  · rw [opThen_error h]
    exact ⟨i, hl, hd, fun x => congrArg _ (Except.error.inj (hf x)), fun e' x => he e' (congrArg _ (Except.error.inj x))⟩
  · rw [opThen_ok h]
    obtain ⟨j, hl', hd', hf', he'⟩ := hk a t
    have ok : ∀ e ∈ i, e.ok = true := fun e hi => by
      by_contra hn
      exact nomatch hf ⟨e, hi, Bool.eq_false_iff.mpr hn⟩
    refine ⟨i ++ j, by rw [hl', hl, List.append_assoc], fun e hx => ?_, fun hx => hf' ?_, he'⟩
    · rcases mem_dropLast_append hx with hx | hx
      · exact ok e hx
      · exact hd' e hx
    · obtain ⟨e, hx, hn⟩ := hx
      rcases List.mem_append.mp hx with hx | hx
      · rw [ok e hx] at hn
        exact nomatch hn
      · exact ⟨e, hx, hn⟩

theorem StopsAtFailure.afterGap {m : Op α} (hm : StopsAtFailure E m) : StopsAtFailure E (opGap m) := by
  intro s
  obtain ⟨i, hl, h⟩ := hm (runGap s)
  exact ⟨i, by rw [opGap_eq, hl, (runGap_keeps s).log], h⟩

section Transactions

variable {key : Word} {w : Window} {off : Nat} {cond : State → Option RefusalReason}

theorem StopsAtFailure.read (hE : E .busAccessFailure) {eff : State → Half × State} {trace : BusOutcome → State → State}
    (he : ∀ u, (eff u).2.host = u.host) (ht : ∀ b u, (trace b u).host = u.host) :
    StopsAtFailure E (busRead key w off cond eff trace) := by
  intro s
  cases hr : refusal w off cond s with
  | some r => exact ⟨[], by rw [busRead_refused hr]; simp, by simp, by simp, by rw [busRead_refused hr]; simp⟩
  | none =>
    cases hb : (s.env.bus.at 0).ok with
    | true =>
      rw [busRead_ok hr hb]
      exact ⟨[okTxn key (eff s.nextBus).1], by simp [he], by simp, by simp [okTxn], by simp⟩
    | false =>
      rw [busRead_failed hr hb]
      exact ⟨[{ key := key, value := none, ok := false }], by simp [ht], by simp, by simp, by simp [hE]⟩

theorem StopsAtFailure.write (hE : E .busAccessFailure) {v : Half} {eff : State → State} (he : ∀ u, (eff u).host = u.host) :
    StopsAtFailure E (busWrite key w off cond v eff) := by
  intro s
  cases hr : refusal w off cond s with
  | some r => exact ⟨[], by rw [busWrite_refused hr]; simp, by simp, by simp, by rw [busWrite_refused hr]; simp⟩
  | none =>
    cases hb : (s.env.bus.at 0).ok with
    | true =>
      rw [busWrite_ok hr hb]
      exact ⟨[okTxn key v], by simp [he], by simp, by simp [okTxn], by simp⟩
    | false =>
      rw [busWrite_failed hr hb]
      refine ⟨[{ key := key, value := some v, ok := false }], ?_, by simp, by simp, by simp [hE]⟩
      split <;> simp [he]

end Transactions

theorem StopsAtFailure.confirm (hE : E .busAccessFailure) {w : Window} {off : Nat} {v : Half} {wr : Op Unit} {rd : Op Half}
    (hw : StopsAtFailure E wr) (hr : StopsAtFailure E rd) : StopsAtFailure E (confirmWrite w off v wr rd) := by
  refine .andThen (.afterGap hw) fun _ => .andThen (.afterGap hr) fun rb s => ?_
  refine ⟨[], ?_, by simp, by simp, ?_⟩ <;> split <;> simp [hE]

theorem asDone_stops {m : Op Unit} (h : StopsAtFailure E m) : StopsAtFailure E (asDone m) :=
  .andThen h fun _ => .pure _

section Bodies

variable (hE : E .busAccessFailure)

include hE

theorem readReg_stops (key : Word) (w : Window) (off : Nat) (get : Hw → Half) :
    StopsAtFailure E (readReg key w off get) :=
  .read hE (fun _ => rfl) fun _ _ => rfl

theorem txnRdTt_stops (c : Byte) : StopsAtFailure E (txnRdTt c) :=
  .read hE (fun u => (readTt_hwOnly c u).host) fun _ _ => rfl

theorem txnRdStatus_stops : StopsAtFailure E txnRdStatus :=
  .read hE (fun u => (statusRead_step u).host) fun b u => (statusTrace_step b u).host

theorem pairedRead_stops : StopsAtFailure E pairedRead :=
  .andThen (.read hE (fun u => (readHigh_step u).host) fun b u => (highTrace_keeps b u).host) fun _ =>
    .andThen (.afterGap (.read hE (fun u => (readLow_step u).host) fun b u => (lowTrace_keeps b u).host)) fun _ =>
      .pure _

theorem confirmTt_stops (c : Byte) (v : Half) : StopsAtFailure E (confirmTt c v) :=
  .confirm hE (.write hE fun _ => rfl) (txnRdTt_stops hE c)

theorem confirmClrtrig_stops (v : Byte) : StopsAtFailure E (confirmClrtrig v) :=
  .confirm hE (.write hE fun _ => rfl) (readReg_stops hE _ _ _ _)

theorem confirmWrtrig_stops (v : Byte) : StopsAtFailure E (confirmWrtrig v) :=
  .confirm hE (.write hE fun _ => rfl) (readReg_stops hE _ _ _ _)

theorem confirmCtrl_stops (v : Half) : StopsAtFailure E (confirmCtrl v) :=
  .confirm hE (.write hE fun u => (controlEffect_step v u).host) (readReg_stops hE _ _ _ _)

theorem clearEntries_stops (cs : List Byte) : StopsAtFailure E (clearEntries cs) := by
  induction cs with
  | nil => exact .pure _
  | cons c cs ih => exact .andThen (confirmTt_stops hE c _) fun _ => ih

theorem startBody_stops : StopsAtFailure E startBody := by
  intro s
  have h := confirmCtrl_stops hE 0x0001 s
  unfold startBody
  split <;> rename_i t ht <;> rw [ht] at h <;> exact h

/-! ### The operations' bodies -/

theorem setTriggerBody_stops (code b : Byte) (enabled : Bool) : StopsAtFailure E (setTriggerBody code b enabled) :=
  .andThen (.afterGap (txnRdTt_stops hE code)) fun _ => .andThen (confirmTt_stops hE code _) fun _ => .pure _

theorem getTriggerBody_stops (code b : Byte) : StopsAtFailure E (getTriggerBody code b) :=
  .andThen (.afterGap (txnRdTt_stops hE code)) fun _ => .pure _

theorem setResetTimestampBody_stops (t : Byte) : StopsAtFailure E (setResetTimestampBody t) :=
  fun s => asDone_stops (confirmClrtrig_stops hE (selectorRaw s.cfg.selOffset t)) s

theorem setWriteTriggerBody_stops (t : Byte) : StopsAtFailure E (setWriteTriggerBody t) :=
  fun s => asDone_stops (confirmWrtrig_stops hE (selectorRaw s.cfg.selOffset t)) s

theorem setFifoThresholdBody_stops (level : Byte) : StopsAtFailure E (setFifoThresholdBody level) :=
  asDone_stops (.confirm hE (.write hE fun _ => rfl) (readReg_stops hE _ _ _ _))

theorem readStatusBody_stops : StopsAtFailure E readStatusBody :=
  .andThen (.afterGap (txnRdStatus_stops hE)) fun _ =>
    .andThen (.confirm hE (.write hE fun _ => rfl) (txnRdStatus_stops hE)) fun _ => .pure _

theorem drainBody_stops : StopsAtFailure E drainBody := by
  refine .andThen (.afterGap (txnRdStatus_stops hE)) fun w => ?_
  split
  · exact .pure _
  · exact .andThen (.afterGap (pairedRead_stops hE)) fun _ => .pure _

theorem probeBody_stops (hN : E .deviceNotFound) : StopsAtFailure E probeBody := by
  refine .andThen (.afterGap (readReg_stops hE _ _ _ _)) fun _ =>
    .andThen (.afterGap (readReg_stops hE _ _ _ _)) fun _ => ?_
  split
  · exact .pure _
  · refine .silent (fun _ => rfl) fun _ e h => ?_
    cases h
    exact hN

theorem configureBody_stops : StopsAtFailure E configureBody :=
  .andThen (confirmWrtrig_stops hE _) fun _ => .andThen (confirmClrtrig_stops hE _) fun _ => clearEntries_stops hE _

theorem constructBody_stops (hN : E .deviceNotFound) : StopsAtFailure E constructBody := by
  have enter : ∀ d, StopsAtFailure E (enterState d) := fun _ => .silent (fun _ => rfl) fun _ _ h => nomatch h
  have steps : StopsAtFailure E constructSteps :=
    .andThen (enter _) fun _ => .andThen (probeBody_stops hE hN) fun _ => .andThen (enter _) fun _ =>
    .andThen (confirmCtrl_stops hE _) fun _ => .andThen (enter _) fun _ => .andThen (configureBody_stops hE) fun _ =>
    .andThen (startBody_stops hE) fun _ => .andThen (enter _) fun _ => .pure _
  intro s
  have h := steps s
  unfold constructBody
  split <;> rename_i t ht <;> rw [ht] at h <;> exact h

end Bodies

end Sys2Proof.Machine
end

