-- ==== Sys2Proof/Laws/PerInstr.lean ====
section
/-! SUPPORT. One law per instruction: the word the encoder writes matches the instruction's row of
spec/opcode_table.json, in the row's format. The rows are copied from the table, not from the decoder. -/

namespace Sys2Proof.Laws.RowMatch

/-- A row of the opcode table: its fixed bits in its format (R100). -/
inductive Row where
  | key (mask pattern : Word)
  | word (pattern : Half)
  | record (mask pattern : Word)
  | number (f : Format) (n : Byte)

/-- The word `e.2`, read in the format `e.1`, matches the row. -/
def Row.Holds (e : Format × CodeWord) : Row → Prop
  | .key mask pattern => e.1 = .txn ∧ bitsAt e.2 0 32 &&& mask = pattern
  | .word pattern => e.1 = .cmd ∧ bitsAt e.2 0 16 = pattern
  | .record mask pattern => e.1 = .record ∧ bitsAt e.2 0 32 &&& mask = pattern
  | .number f n => e.1 = f ∧ bitsAt e.2 0 8 = n

/-- The table, row by row. -/
def rowOf : Instr → Row
  | .rdCtrl => .key 0xFFFFFFFF 0x10000040
  | .wrCtrl _ => .key 0xFFFFFFFF 0x50000040
  | .rdStatus => .key 0xFFFFFFFF 0x10000042
  | .wrStatus _ => .key 0xFFFFFFFF 0x50000042
  | .rdMdatItype => .key 0xFFFFFFFF 0x00000044
  | .wrMdatItype _ => .key 0xFFFFFFFF 0x40000044
  | .rdMdatBufsw => .key 0xFFFFFFFF 0x00000045
  | .wrMdatBufsw _ => .key 0xFFFFFFFF 0x40000045
  | .rdW44 => .key 0xFFFFFFFF 0x10000044
  | .wrW44 _ => .key 0xFFFFFFFF 0x50000044
  | .rdTsrstLo => .key 0xFFFFFFFF 0x10000046
  | .wrTsrstLo _ => .key 0xFFFFFFFF 0x50000046
  | .rdTsrstHi => .key 0xFFFFFFFF 0x10000048
  | .wrTsrstHi _ => .key 0xFFFFFFFF 0x50000048
  | .rdWrtrig => .key 0xFFFFFFFF 0x0000004A
  | .wrWrtrig _ => .key 0xFFFFFFFF 0x4000004A
  | .rdClrtrig => .key 0xFFFFFFFF 0x0000004B
  | .wrClrtrig _ => .key 0xFFFFFFFF 0x4000004B
  | .rdW4a => .key 0xFFFFFFFF 0x1000004A
  | .wrW4a _ => .key 0xFFFFFFFF 0x5000004A
  | .rdThresh => .key 0xFFFFFFFF 0x1000004C
  | .wrThresh _ => .key 0xFFFFFFFF 0x5000004C
  | .rdIdHi => .key 0xFFFFFFFF 0x00000089
  | .rdIdLo => .key 0xFFFFFFFF 0x0000008B
  | .rdTt _ => .key 0xFFFFFE01 0x90000000
  | .wrTt _ _ => .key 0xFFFFFE01 0xD0000000
  | .rdFifoHi => .key 0xFFFFFFFF 0x90001200
  | .rdFifoLo => .key 0xFFFFFFFF 0x90001202
  | .rdFifo32 => .key 0xFFFFFFFF 0xA0001200
  | .noOp => .word 0x0000
  | .enableTclk => .word 0x0001
  | .disableTclk => .word 0x0002
  | .enableMdat => .word 0x0003
  | .disableMdat => .word 0x0004
  | .mdatBuf0 => .word 0x0005
  | .mdatBuf1 => .word 0x0006
  | .enableMdatBufAuto => .word 0x0007
  | .disableMdatBufAuto => .word 0x0008
  | .swInterrupt => .word 0x0009
  | .swReset => .word 0x00FF
  | .recEmpty => .record 0xFFFFFFFF 0xFFFFFFFF
  | .recEvent _ _ => .record 0x00000000 0x00000000
  | .decodeRec _ => .number .api 0x01
  | .encodeRec _ _ => .number .api 0x02
  | .validRec _ => .number .api 0x03
  | .setTrigger _ _ _ => .number .api 0x10
  | .getTrigger _ _ => .number .api 0x11
  | .clearTriggerTable => .number .api 0x12
  | .construct => .number .api 0x20
  | .probe => .number .api 0x21
  | .resetModule => .number .api 0x22
  | .configureTriggers => .number .api 0x23
  | .startCollecting => .number .api 0x24
  | .setResetTimestampTrigger _ => .number .api 0x30
  | .setWriteTrigger _ => .number .api 0x31
  | .setFifoThreshold _ => .number .api 0x32
  | .readStatus => .number .api 0x33
  | .drainOneEvent => .number .api 0x34
  | .decodeStatus _ => .number .api 0x35
  | .lockTask => .number .api 0x40
  | .lockIsr => .number .api 0x41
  | .unlock => .number .api 0x42
  | .evtTclk _ => .number .agent 0x50
  | .evtTick => .number .agent 0x51
  | .evtInput _ _ _ _ => .number .agent 0x52

/-- The encoding of `i` matches its row. -/
def Statement (i : Instr) : Prop := (rowOf i).Holds (encode i)

theorem key_matches {mask pattern : Word} (k : Word) (h : k &&& mask = pattern) :
    bitsAt (keyWord k) 0 32 &&& mask = pattern := (keyWord_key k).symm ▸ h

theorem key8_matches {mask pattern : Word} (k : Word) (v : Byte) (h : k &&& mask = pattern) :
    bitsAt (keyWord8 k v) 0 32 &&& mask = pattern := (keyWord8_key k v).symm ▸ h

theorem key16_matches {mask pattern : Word} (k : Word) (v : Half) (h : k &&& mask = pattern) :
    bitsAt (keyWord16 k v) 0 32 &&& mask = pattern := (keyWord16_key k v).symm ▸ h

theorem rdCtrl : Statement .rdCtrl := ⟨rfl, rfl⟩

theorem wrCtrl (v : Half) : Statement (.wrCtrl v) := ⟨rfl, key16_matches _ _ rfl⟩

theorem rdStatus : Statement .rdStatus := ⟨rfl, rfl⟩

theorem wrStatus (v : Half) : Statement (.wrStatus v) := ⟨rfl, key16_matches _ _ rfl⟩

theorem rdMdatItype : Statement .rdMdatItype := ⟨rfl, rfl⟩

theorem wrMdatItype (v : Byte) : Statement (.wrMdatItype v) := ⟨rfl, key8_matches _ _ rfl⟩

theorem rdMdatBufsw : Statement .rdMdatBufsw := ⟨rfl, rfl⟩

theorem wrMdatBufsw (v : Byte) : Statement (.wrMdatBufsw v) := ⟨rfl, key8_matches _ _ rfl⟩

theorem rdW44 : Statement .rdW44 := ⟨rfl, rfl⟩

theorem wrW44 (v : Half) : Statement (.wrW44 v) := ⟨rfl, key16_matches _ _ rfl⟩

theorem rdTsrstLo : Statement .rdTsrstLo := ⟨rfl, rfl⟩

theorem wrTsrstLo (v : Half) : Statement (.wrTsrstLo v) := ⟨rfl, key16_matches _ _ rfl⟩

theorem rdTsrstHi : Statement .rdTsrstHi := ⟨rfl, rfl⟩

theorem wrTsrstHi (v : Half) : Statement (.wrTsrstHi v) := ⟨rfl, key16_matches _ _ rfl⟩

theorem rdWrtrig : Statement .rdWrtrig := ⟨rfl, rfl⟩

theorem wrWrtrig (v : Byte) : Statement (.wrWrtrig v) := ⟨rfl, key8_matches _ _ rfl⟩

theorem rdClrtrig : Statement .rdClrtrig := ⟨rfl, rfl⟩

theorem wrClrtrig (v : Byte) : Statement (.wrClrtrig v) := ⟨rfl, key8_matches _ _ rfl⟩

theorem rdW4a : Statement .rdW4a := ⟨rfl, rfl⟩

theorem wrW4a (v : Half) : Statement (.wrW4a v) := ⟨rfl, key16_matches _ _ rfl⟩

theorem rdThresh : Statement .rdThresh := ⟨rfl, rfl⟩

theorem wrThresh (v : Half) : Statement (.wrThresh v) := ⟨rfl, key16_matches _ _ rfl⟩

theorem rdIdHi : Statement .rdIdHi := ⟨rfl, rfl⟩

theorem rdIdLo : Statement .rdIdLo := ⟨rfl, rfl⟩

theorem rdTt (c : Byte) : Statement (.rdTt c) := ⟨rfl, key_matches _ (ttKey_bits _ _)⟩

theorem wrTt (c : Byte) (v : Half) : Statement (.wrTt c v) := ⟨rfl, key16_matches _ _ (ttKey_bits _ _)⟩

theorem rdFifoHi : Statement .rdFifoHi := ⟨rfl, rfl⟩

theorem rdFifoLo : Statement .rdFifoLo := ⟨rfl, rfl⟩

theorem rdFifo32 : Statement .rdFifo32 := ⟨rfl, rfl⟩

theorem noOp : Statement .noOp := ⟨rfl, cmdWord_word _⟩

theorem enableTclk : Statement .enableTclk := ⟨rfl, cmdWord_word _⟩

theorem disableTclk : Statement .disableTclk := ⟨rfl, cmdWord_word _⟩

theorem enableMdat : Statement .enableMdat := ⟨rfl, cmdWord_word _⟩

theorem disableMdat : Statement .disableMdat := ⟨rfl, cmdWord_word _⟩

theorem mdatBuf0 : Statement .mdatBuf0 := ⟨rfl, cmdWord_word _⟩

theorem mdatBuf1 : Statement .mdatBuf1 := ⟨rfl, cmdWord_word _⟩

theorem enableMdatBufAuto : Statement .enableMdatBufAuto := ⟨rfl, cmdWord_word _⟩

theorem disableMdatBufAuto : Statement .disableMdatBufAuto := ⟨rfl, cmdWord_word _⟩

theorem swInterrupt : Statement .swInterrupt := ⟨rfl, cmdWord_word _⟩

theorem swReset : Statement .swReset := ⟨rfl, cmdWord_word _⟩

theorem recEmpty : Statement .recEmpty := ⟨rfl, rfl⟩

theorem recEvent (ts : Stamp) (code : Byte) : Statement (.recEvent ts code) := ⟨rfl, BitVec.and_zero⟩

theorem decodeRec (raw : Word) : Statement (.decodeRec raw) := ⟨rfl, numWord_num _ _⟩

theorem encodeRec (code : Byte) (ts : Stamp) : Statement (.encodeRec code ts) := ⟨rfl, numWord_num _ _⟩

theorem validRec (raw : Word) : Statement (.validRec raw) := ⟨rfl, numWord_num _ _⟩

theorem setTrigger (code : Byte) (bit : Byte) (enabled : Bool) : Statement (.setTrigger code bit enabled) := ⟨rfl, numWord_num _ _⟩

theorem getTrigger (code : Byte) (bit : Byte) : Statement (.getTrigger code bit) := ⟨rfl, numWord_num _ _⟩

theorem clearTriggerTable : Statement .clearTriggerTable := ⟨rfl, numWord_num _ _⟩

theorem construct : Statement .construct := ⟨rfl, numWord_num _ _⟩

theorem probe : Statement .probe := ⟨rfl, numWord_num _ _⟩

theorem resetModule : Statement .resetModule := ⟨rfl, numWord_num _ _⟩

theorem configureTriggers : Statement .configureTriggers := ⟨rfl, numWord_num _ _⟩

theorem startCollecting : Statement .startCollecting := ⟨rfl, numWord_num _ _⟩

theorem setResetTimestampTrigger (t : Byte) : Statement (.setResetTimestampTrigger t) := ⟨rfl, numWord_num _ _⟩

theorem setWriteTrigger (t : Byte) : Statement (.setWriteTrigger t) := ⟨rfl, numWord_num _ _⟩

theorem setFifoThreshold (level : Byte) : Statement (.setFifoThreshold level) := ⟨rfl, numWord_num _ _⟩

theorem readStatus : Statement .readStatus := ⟨rfl, numWord_num _ _⟩

theorem drainOneEvent : Statement .drainOneEvent := ⟨rfl, numWord_num _ _⟩

theorem decodeStatus (w : Half) : Statement (.decodeStatus w) := ⟨rfl, numWord_num _ _⟩

theorem lockTask : Statement .lockTask := ⟨rfl, numWord_num _ _⟩

theorem lockIsr : Statement .lockIsr := ⟨rfl, numWord_num _ _⟩

theorem unlock : Statement .unlock := ⟨rfl, numWord_num _ _⟩

theorem evtTclk (code : Byte) : Statement (.evtTclk code) := ⟨rfl, numWord_num _ _⟩

theorem evtTick : Statement .evtTick := ⟨rfl, numWord_num _ _⟩

theorem evtInput (tclkPresent : Bool) (mdatPresent : Bool) (tclkParity : Bool) (mdatParity : Bool) : Statement (.evtInput tclkPresent mdatPresent tclkParity mdatParity) := ⟨rfl, numWord_num _ _⟩

end Sys2Proof.Laws.RowMatch
end

