-- ==== Sys2Proof/Laws/Status.lean ====
section
/-! SUPPORT. The bits of the status word (R41) and of a mask test (R260). -/

namespace Sys2Proof.Machine

/-- A mask of one bit tests that bit. -/
theorem and_twoPow_ne_zero (s : Half) {n : Nat} (hn : n < 16) : (s &&& BitVec.twoPow 16 n != 0) = s.getLsbD n := by
  rw [BitVec.and_twoPow]
  cases h : s.getLsbD n
  · rfl
  · have : (BitVec.twoPow 16 n != 0) = true := by
      rw [bne_iff_ne]
      intro e
      have := congrArg (fun x : Half => x.getLsbD n) e
      simp [hn] at this
    simpa using this

theorem flagBit_getLsbD (b : Bool) (n : Nat) {k : Nat} (hk : k < 16) :
    (flagBit b n).getLsbD k = (decide (k = n) && b) := by
  unfold flagBit
  simp only [BitVec.getLsbD_shiftLeft, BitVec.getLsbD_setWidth, BitVec.getLsbD_ofBool]
  by_cases h : k < n
  · simp [h, hk, Nat.ne_of_lt h]
  · by_cases h' : k = n
    · subst h'
      simp [hk]
    · simp [h, h', show k - n ≠ 0 by omega]

/-- Every bit of the status word (R41). -/
theorem statusWord_getLsbD (depth : Nat) (hw : Hw) (bit15 : Bool) {k : Nat} (hk : k < 16) :
    (statusWord depth hw bit15).getLsbD k =
      [hw.tclkPresent, hw.mdatPresent, hw.tclkEnabled, hw.mdatEnabled, hw.mdatAutoBufEn, hw.mdatBuf0En, hw.mdatBuf1En,
        hw.tclkParityErr, fifoIsEmpty hw, hw.fifoThreshold, fifoIsFull depth hw, hw.fifoOverflow, hw.fifoUnderflow,
        hw.mdatBufSel, hw.mdatParityErr, bit15].getD k false := by
  unfold statusWord
  simp only [BitVec.getLsbD_or, flagBit_getLsbD _ _ hk]
  have : k = 0 ∨ k = 1 ∨ k = 2 ∨ k = 3 ∨ k = 4 ∨ k = 5 ∨ k = 6 ∨ k = 7 ∨ k = 8 ∨ k = 9 ∨ k = 10 ∨ k = 11 ∨ k = 12
      ∨ k = 13 ∨ k = 14 ∨ k = 15 := by omega
  rcases this with rfl | rfl | rfl | rfl | rfl | rfl | rfl | rfl | rfl | rfl | rfl | rfl | rfl | rfl | rfl | rfl <;>
    simp

/-- The empty test of a composed status word (R267). -/
theorem statusSaysEmpty_statusWord (depth : Nat) (hw : Hw) (bit15 : Bool) :
    statusSaysEmpty (statusWord depth hw bit15) = fifoIsEmpty hw := by
  have := and_twoPow_ne_zero (statusWord depth hw bit15) (n := 8) (by decide)
  rw [statusWord_getLsbD depth hw bit15 (by decide)] at this
  exact this

end Sys2Proof.Machine
end

