-- ==== Sys2Proof/Tests/Slice0.lean ====
section
/-! SUPPORT. The model's own tests: the well-formedness smoke, every constructor's decoding from a word written out
from 30_encoding.md (R101 to R104, R113, R114; operand places of log 14), vectors of 95_test_vectors.md (named in each
comment), and for every obligation with hypotheses a witness that meets them. -/

namespace Sys2Proof.Tests

open Sys2Proof.Machine

/-! ### WellFormed -/

/-- R103: the all-ones record word is no event. -/
theorem test_wellformed_refuses_sentinel_event : WellFormed (.recEvent 0xFFFFFF 0xFF) = false := by decide

theorem test_wellformed_accepts_neighbours :
    WellFormed (.recEvent 0xFFFFFF 0xFE) = true ∧ WellFormed (.recEvent 0xFFFFFE 0xFF) = true := by decide

/-! ### Decoding: each word from the rows of 30_encoding.md -/

/-- R102, window CS: W = 0; D is bit 30; S is bits 29..28; the offset is bits 15..0. -/
theorem test_decode_control_status_reads :
    decode .txn 0x000010000040 = .ok .rdCtrl ∧ decode .txn 0x000010000042 = .ok .rdStatus ∧
    decode .txn 0x000000000044 = .ok .rdMdatItype ∧ decode .txn 0x000000000045 = .ok .rdMdatBufsw ∧
    decode .txn 0x000010000044 = .ok .rdW44 ∧ decode .txn 0x000010000046 = .ok .rdTsrstLo ∧
    decode .txn 0x000010000048 = .ok .rdTsrstHi ∧ decode .txn 0x00000000004A = .ok .rdWrtrig ∧
    decode .txn 0x00000000004B = .ok .rdClrtrig ∧ decode .txn 0x00001000004A = .ok .rdW4a ∧
    decode .txn 0x00001000004C = .ok .rdThresh ∧ decode .txn 0x000000000089 = .ok .rdIdHi ∧
    decode .txn 0x00000000008B = .ok .rdIdLo :=
  ⟨rfl, rfl, rfl, rfl, rfl, rfl, rfl, rfl, rfl, rfl, rfl, rfl, rfl⟩

/-- R102, R116: the value written stands above the key. -/
theorem test_decode_control_status_writes :
    decode .txn 0x12AB50000040 = .ok (.wrCtrl 0x12AB) ∧ decode .txn 0x0A0050000042 = .ok (.wrStatus 0x0A00) ∧
    decode .txn 0x000340000044 = .ok (.wrMdatItype 0x03) ∧ decode .txn 0x000140000045 = .ok (.wrMdatBufsw 0x01) ∧
    decode .txn 0x030150000044 = .ok (.wrW44 0x0301) ∧ decode .txn 0x123450000046 = .ok (.wrTsrstLo 0x1234) ∧
    decode .txn 0x00AB50000048 = .ok (.wrTsrstHi 0x00AB) ∧ decode .txn 0x00044000004A = .ok (.wrWrtrig 0x04) ∧
    decode .txn 0x00024000004B = .ok (.wrClrtrig 0x02) ∧ decode .txn 0x04025000004A = .ok (.wrW4a 0x0402) ∧
    decode .txn 0x00105000004C = .ok (.wrThresh 0x0010) :=
  ⟨rfl, rfl, rfl, rfl, rfl, rfl, rfl, rfl, rfl, rfl, rfl⟩

/-- R102, window EV (vectors E3, E4, E9): W = 1, entry c at offset 2c. -/
theorem test_decode_event_window :
    decode .txn 0x0000900001FE = .ok (.rdTt 0xFF) ∧ decode .txn 0x0008D0000020 = .ok (.wrTt 0x10 0x0008) ∧
    decode .txn 0x000090001200 = .ok .rdFifoHi ∧ decode .txn 0x000090001202 = .ok .rdFifoLo ∧
    decode .txn 0x0000A0001200 = .ok .rdFifo32 := ⟨rfl, rfl, rfl, rfl, rfl⟩

/-- Vectors E5 to E8: no row. -/
theorem test_decode_refuses_unmapped_keys :
    decode .txn 0x000090000200 = .error .unmappedKey ∧ decode .txn 0x000090000021 = .error .unmappedKey ∧
    decode .txn 0x000040000089 = .error .unmappedKey ∧ decode .txn 0x000010000045 = .error .unmappedKey :=
  ⟨rfl, rfl, rfl, rfl⟩

/-- R104: the eleven command words. -/
theorem test_decode_commands :
    decode .cmd 0x0000 = .ok .noOp ∧ decode .cmd 0x0001 = .ok .enableTclk ∧ decode .cmd 0x0002 = .ok .disableTclk ∧
    decode .cmd 0x0003 = .ok .enableMdat ∧ decode .cmd 0x0004 = .ok .disableMdat ∧
    decode .cmd 0x0005 = .ok .mdatBuf0 ∧ decode .cmd 0x0006 = .ok .mdatBuf1 ∧
    decode .cmd 0x0007 = .ok .enableMdatBufAuto ∧ decode .cmd 0x0008 = .ok .disableMdatBufAuto ∧
    decode .cmd 0x0009 = .ok .swInterrupt ∧ decode .cmd 0x00FF = .ok .swReset :=
  ⟨rfl, rfl, rfl, rfl, rfl, rfl, rfl, rfl, rfl, rfl, rfl⟩

/-- Vector E11. -/
theorem test_decode_refuses_reserved_commands :
    decode .cmd 0x000A = .error .reservedCommand ∧ decode .cmd 0x00FE = .error .reservedCommand ∧
    decode .cmd 0x0100 = .error .reservedCommand ∧ decode .cmd 0xFFFF = .error .reservedCommand :=
  ⟨rfl, rfl, rfl, rfl⟩

/-- R103, R117 (vectors V2, V3, V5). -/
theorem test_decode_records :
    decode .record 0x0000FFFFFFFF = .ok .recEmpty ∧ decode .record 0x0000123456AB = .ok (.recEvent 0x123456 0xAB) ∧
    decode .record 0x0000FFFFFFFE = .ok (.recEvent 0xFFFFFF 0xFE) := ⟨rfl, rfl, rfl⟩

/-- R113, the codec, the table and the status decoder. -/
theorem test_decode_operations_with_operands :
    decode .api 0x00123456AB01 = .ok (.decodeRec 0x123456AB) ∧
    decode .api 0x00123456AB02 = .ok (.encodeRec 0xAB 0x123456) ∧
    decode .api 0x007FFFFFFF03 = .ok (.validRec 0x7FFFFFFF) ∧
    decode .api 0x000001031010 = .ok (.setTrigger 0x10 0x03 true) ∧
    decode .api 0x000000071010 = .ok (.setTrigger 0x10 0x07 false) ∧
    decode .api 0x00000002FF11 = .ok (.getTrigger 0xFF 0x02) ∧
    decode .api 0x000000000330 = .ok (.setResetTimestampTrigger 0x03) ∧
    decode .api 0x000000000731 = .ok (.setWriteTrigger 0x07) ∧
    decode .api 0x00000000FF32 = .ok (.setFifoThreshold 0xFF) ∧
    decode .api 0x0000000B0535 = .ok (.decodeStatus 0x0B05) :=
  ⟨rfl, rfl, rfl, rfl, rfl, rfl, rfl, rfl, rfl, rfl⟩

/-- R113, the operations without operands. -/
theorem test_decode_operations_without_operands :
    decode .api 0x12 = .ok .clearTriggerTable ∧ decode .api 0x20 = .ok .construct ∧
    decode .api 0x21 = .ok .probe ∧ decode .api 0x22 = .ok .resetModule ∧
    decode .api 0x23 = .ok .configureTriggers ∧ decode .api 0x24 = .ok .startCollecting ∧
    decode .api 0x33 = .ok .readStatus ∧ decode .api 0x34 = .ok .drainOneEvent ∧
    decode .api 0x40 = .ok .lockTask ∧ decode .api 0x41 = .ok .lockIsr ∧ decode .api 0x42 = .ok .unlock :=
  ⟨rfl, rfl, rfl, rfl, rfl, rfl, rfl, rfl, rfl, rfl, rfl⟩

/-- R114. -/
theorem test_decode_agent_steps :
    decode .agent 0x1050 = .ok (.evtTclk 0x10) ∧ decode .agent 0x0051 = .ok .evtTick ∧
    decode .agent 0x0552 = .ok (.evtInput true false true false) := ⟨rfl, rfl, rfl⟩

/-- Numbers no row lists (R113, R114) and a stray operand bit (log 14). -/
theorem test_decode_refuses_other_numbers :
    decode .api 0x50 = .error .noSuchOperation ∧ decode .agent 0x40 = .error .noSuchOperation ∧
    decode .api 0x0120 = .error .strayBits := ⟨rfl, rfl, rfl⟩

/-- The table's own numbering of a row's bits. -/
theorem test_decode_table_words :
    decodeTableWord 32 0xA0001200 = some .rdFifo32 ∧ decodeTableWord 32 0xFFFFFFFF = some .recEmpty ∧
    decodeTableWord 16 0x00FF = some .swReset ∧ decodeTableWord 8 0x51 = some .evtTick ∧
    decodeTableWord 16 0x000A = none := by decide

/-! ### A small module for the vectors -/

def testCfg : Config where
  csBase := 0x1000
  evBase := 0x2000
  addrWidth := 24
  csSize := 0x8C
  evSize := 0x1204
  fifoDepth := 4
  selOffset := 1
  byteOrder := .big
  statusClearOnRead := false
  emptyReadValue := 0xFFFFFFFF
  captureRule := .routed
  threshRule := .crossing
  clearAlsoFlushes := false
  ttHighBitsStored := true
  confirmRule := .standard

/-- TCLK present and enabled, every other flag clear, the table and the FIFO empty, threshold 2. -/
def calm : Hw where
  ctrl := 0x0001
  tclkEnabled := true
  mdatEnabled := false
  mdatAutoBufEn := false
  mdatBuf0En := false
  mdatBuf1En := false
  mdatBufSel := false
  mdatParityErr := false
  fifoUnderflow := false
  fifoOverflow := false
  fifoThreshold := false
  tclkParityErr := false
  tclkPresent := true
  mdatPresent := false
  mdatIntType := 0x00
  mdatBufSwitch := 0x00
  tsResetLo := 0x0000
  tsResetHi := 0x0000
  wrTrigSel := 0x00
  clrTrigSel := 0x00
  threshold := 0x0002
  tsCounter := 0x000A2B
  tt := Vector.replicate 256 0
  fifo := []
  fifoPhase := .idle
  idHi := 0xBB
  idLo := 0x15

def succeeds : BusOutcome := { ok := true, took := false, popped := false, flagged := false }

def fails : BusOutcome := { ok := false, took := false, popped := false, flagged := false }

/-- Task 1 on the hardware `hw`, with the given lock and driver state, every transaction successful, draws 0. -/
def module (hw : Hw) (lock : Lock) (drv : DriverState) : State where
  cfg := testCfg
  hw := hw
  host := { lock := lock, drv := drv, log := [], current := .task 1, blocked := [], returns := [] }
  refused := false
  history := []
  env := { schedule := [], gaps := [], bus := { given := List.replicate 4 succeeds, used := 0 },
           draws := { given := List.replicate 8 0, used := 0 } }

/-- Task 1 holds the lock. -/
def holding (hw : Hw) : State := module hw (.held (.task 1)) .collecting

/-- Task 1 may call a public operation. -/
def ready (hw : Hw) : State := module hw .free .collecting

/-- The state after an instruction. -/
def after (i : Instr) (s : State) : State :=
  match exec i s with
  | .next t => t
  | .fault _ => s
  | .refused _ => s

/-- The last result. -/
def result (s : State) : Option (HostContext × Result) := s.host.returns.getLast?

/-- `calm` with one table entry. -/
def routed (c : Byte) (m : Half) : Hw := { calm with tt := ttReplace calm.tt c m }

/-! ### Register facade (95, 2.3) -/

/-- R156's example. -/
theorem test_status_read : result (after .rdStatus (holding calm)) = some (.task 1, .word 0x0105) := by decide

/-- Vector F5. -/
theorem test_status_write_clears_written_bits :
    (after (.wrStatus 0x0800) (holding { calm with fifoOverflow := true, fifoThreshold := true })).hw.fifoOverflow
      = false ∧
    (after (.wrStatus 0x0800) (holding { calm with fifoOverflow := true, fifoThreshold := true })).hw.fifoThreshold
      = true := by decide

/-- Vector F8. -/
theorem test_enable_tclk :
    (after .enableTclk (holding { calm with tclkEnabled := false })).hw.tclkEnabled = true ∧
    (after .enableTclk (holding calm)).hw.ctrl = 0x0001 := by decide

/-- R188. -/
theorem test_disable_tclk :
    (after .disableTclk (holding { calm with fifo := [1] })).hw.tclkEnabled = false ∧
    (after .disableTclk (holding { calm with fifo := [1] })).hw.fifo = [1] := by decide

/-- R189, R190, R193, R194: which bit each enable sets. -/
theorem test_mdat_enables :
    (after .enableMdat (holding calm)).hw.mdatEnabled = true ∧
    (after .enableMdatBufAuto (holding calm)).hw.mdatAutoBufEn = true ∧
    (after .disableMdat (holding { calm with mdatEnabled := true })).hw.mdatEnabled = false ∧
    (after .disableMdatBufAuto (holding { calm with mdatAutoBufEn := true })).hw.mdatAutoBufEn = false := by decide

/-- Vector F9. -/
theorem test_software_reset :
    (after .swReset (holding { calm with fifoPhase := .highRead, fifo := [1] })).hw.ctrl = 0x00FF ∧
    (after .swReset (holding { calm with fifoPhase := .highRead, fifo := [1] })).hw.fifoPhase = .idle ∧
    (after .swReset (holding calm)).hw.idLo = 0x15 := by decide

/-- Vector F10. -/
theorem test_software_interrupt : (after .swInterrupt (holding calm)).history = [.irqSoftware] := by decide

/-- Vector F11. -/
theorem test_reserved_command :
    result (after (.wrCtrl 0x000A) (holding calm)) = some (.task 1, .refused .reservedCommand) ∧
    (after (.wrCtrl 0x000A) (holding calm)).refused = true ∧
    (after (.wrCtrl 0x000A) (holding calm)).hw.ctrl = 0x0001 := by decide

/-- Vector F12, and R161's corner case. -/
theorem test_pair_read :
    result (after .rdW4a (holding { calm with wrTrigSel := 0x04, clrTrigSel := 0x02 }))
      = some (.task 1, .word 0x0402) ∧
    result (after .rdW4a { holding { calm with wrTrigSel := 0x04, clrTrigSel := 0x02 } with
      cfg := { testCfg with byteOrder := .little } }) = some (.task 1, .word 0x0204) := by decide

/-- Vector F13. -/
theorem test_pair_write :
    (after (.wrW44 0x0301) (holding calm)).hw.mdatIntType = 0x03 ∧
    (after (.wrW44 0x0301) (holding calm)).hw.mdatBufSwitch = 0x01 := by decide

/-- R174's example. -/
theorem test_selector_pair_write :
    (after (.wrW4a 0x0402) (holding calm)).hw.wrTrigSel = 0x04 ∧
    (after (.wrW4a 0x0402) (holding calm)).hw.clrTrigSel = 0x02 := by decide

/-- Vector F14. -/
theorem test_timestamp_reset_write :
    (after (.wrTsrstLo 0x1234) (holding calm)).hw.tsResetLo = 0x1234 ∧
    (after (.wrTsrstHi 0x00AB) (holding calm)).hw.tsResetHi = 0x00AB := by decide

/-- R177, R178: a genuine module. -/
theorem test_identification :
    result (after .rdIdHi (holding calm)) = some (.task 1, .word 0xBB) ∧
    result (after .rdIdLo (holding calm)) = some (.task 1, .word 0x15) := by decide

/-- A bus whose next transactions have the given outcomes. -/
def onBus (outcomes : List BusOutcome) (s : State) : State :=
  { s with env := { s.env with bus := { given := outcomes, used := 0 } } }

/-- Vector F1, first half; and R153: a failed high half read may advance the phase and still lose the only record. -/
theorem test_high_half :
    result (after .rdFifoHi (holding { calm with fifo := [0x000A2B37] })) = some (.task 1, .word 0x000A) ∧
    (after .rdFifoHi (holding { calm with fifo := [0x000A2B37] })).hw.fifoPhase = .highRead ∧
    (after .rdFifoHi (onBus [{ fails with took := true, popped := true }] (holding { calm with fifo := [1] }))).hw.fifoPhase
      = .highRead ∧
    (after .rdFifoHi (onBus [{ fails with took := true, popped := true }] (holding { calm with fifo := [1] }))).hw.fifo
      = [] := by decide

/-- Vector F1, second half. -/
theorem test_low_half :
    result (after .rdFifoLo (holding { calm with fifo := [0x000A2B37, 7], fifoPhase := .highRead }))
      = some (.task 1, .word 0x2B37) ∧
    (after .rdFifoLo (holding { calm with fifo := [0x000A2B37, 7], fifoPhase := .highRead })).hw.fifo = [7] := by decide

/-- Vector F2. -/
theorem test_paired_read_of_empty_fifo :
    result (after .rdFifo32 (holding calm)) = some (.task 1, .word 0xFFFFFFFF) ∧
    (after .rdFifo32 (holding calm)).hw.fifoUnderflow = true := by decide

/-- A state whose next gaps hold the given agents' steps. -/
def withGaps (gaps : List (List GapStep)) (s : State) : State := s.setGaps gaps

/-- R183's example; and R357: no second interrupt-context step between the halves that the interrupt context reads. -/
theorem test_paired_read :
    result (after .rdFifo32 (holding { calm with fifo := [0x000A2B37] })) = some (.task 1, .word 0x000A2B37) ∧
    (after .rdFifo32 (holding { calm with fifo := [0x000A2B37] })).hw.fifo = [] ∧
    (after .rdFifo32 (withGaps [[.lockIsr]] ((module { calm with fifo := [7] } (.held .isr) .collecting).setCurrent
      .isr))).host.returns = [(.isr, .word 7)] := by decide

/-- Vectors F3, F4. -/
theorem test_half_read_order :
    result (after .rdFifoLo (holding calm)) = some (.task 1, .refused .fifoHalfOrder) ∧
    result (after .rdFifoHi (holding { calm with fifo := [1], fifoPhase := .highRead }))
      = some (.task 1, .refused .fifoHalfOrder) := by decide

/-- R179, R180: the examples on entry 0x10, and entry 0xFF at the table's end. -/
theorem test_table_entry :
    result (after (.rdTt 0x10) (holding (routed 0x10 0x0008))) = some (.task 1, .word 0x0008) ∧
    ttEntry (after (.wrTt 0xFF 0x0080) (holding calm)).hw.tt 0xFF = 0x0080 := by decide

/-- Vector F15: only bits 7..0 of an entry whose high bits are not stored are fixed. -/
theorem test_table_entry_high_bits :
    (readEntry false 0xA5F0 0x00).getLsbD 7 = true ∧ routingMask (readEntry false 0xA5F0 0x3C) = 0xF0 := by decide

/-- Vector K7. -/
theorem test_no_lock : result (after .rdStatus (ready calm)) = some (.task 1, .refused .noLock) := by decide

/-- R153: a failed read returns BusAccessFailure and is logged. -/
theorem test_failed_read :
    result (after .rdCtrl (onBus [fails] (holding calm))) = some (.task 1, .error .busAccessFailure) := by decide

/-- R350: the four codes; LOCK_ISR's Busy is a result, a refusal is none. -/
theorem test_result_codes :
    resultCode .done = some 0 ∧ resultCode .busy = some 0 ∧ resultCode (.error .deviceNotFound) = some 1 ∧
    resultCode (.error .invalidParameter) = some 2 ∧ resultCode (.error .busAccessFailure) = some 3 ∧
    resultCode (.refused .noLock) = none := by decide

/-! ### Codec and status decoder (95, 2.1 and 2.6) -/

/-- Vectors V1, V3, V7. -/
theorem test_decode_record :
    result (after (.decodeRec 0) (ready calm)) = some (.task 1, .event 0x00 0x000000) ∧
    result (after (.decodeRec 0xFFFFFFFE) (ready calm)) = some (.task 1, .event 0xFE 0xFFFFFF) ∧
    result (after (.decodeRec 0x80000000) (ready calm)) = some (.task 1, .event 0x00 0x800000) := by decide

/-- Vectors V9, V10, V11. -/
theorem test_encode_and_valid :
    result (after (.encodeRec 0xAB 0x123456) (ready calm)) = some (.task 1, .word 0x123456AB) ∧
    result (after (.validRec 0xFFFFFFFF) (ready calm)) = some (.task 1, .truth false) ∧
    decodeRecord (encodeRecord 0xFF 0xFFFFFF) = none := by decide

/-- Vectors S-1 and S-4, in three of the flags. -/
theorem test_decode_status :
    (statusFlags 0x0B05).fifoOverflow = true ∧ (statusFlags 0x0B05).fifoEmpty = true ∧
    (statusFlags 0x0B05).fifoUnderflow = false ∧ statusFlags 0x8000 = statusFlags 0x0000 := by decide

/-! ### Trigger table (95, 2.4) -/

/-- Vector T1. -/
theorem test_set_trigger :
    ttEntry (after (.setTrigger 0x10 3 true) (ready calm)).hw.tt 0x10 = 0x0008 ∧
    (after (.setTrigger 0x10 3 true) (ready calm)).host.log =
      [okTxn 0x90000020 0x0000, okTxn 0xD0000020 0x0008, okTxn 0x90000020 0x0008] := by decide

/-- Bits 15..8 of the table not stored, with the given draws for what they read as. -/
def unstored (draws : List Nat) (s : State) : State :=
  { s with cfg := { testCfg with ttHighBitsStored := false },
           env := { s.env with draws := { given := draws, used := 0 } } }

/-- Vectors T3, T5, T6; and R152: a confirm read that differs from the word written is a bad confirm-write. -/
theorem test_set_trigger_corners :
    result (after (.setTrigger 0x10 8 true) (ready calm)) = some (.task 1, .error .invalidParameter) ∧
    ttEntry (after (.setTrigger 0x00 0 true) (ready (routed 0x00 0xA500))).hw.tt 0x00 = 0xA501 ∧
    ttEntry (after (.setTrigger 0xFF 7 false) (ready (routed 0xFF 0x00FF))).hw.tt 0xFF = 0x007F ∧
    result (after (.setTrigger 0x10 3 true) (unstored [0, 1] (ready calm))) = some (.task 1, .error .busAccessFailure) ∧
    result (after (.setTrigger 0x10 3 true) (unstored [1, 1] (ready calm))) = some (.task 1, .done) := by decide

/-- Vector T2. -/
theorem test_get_trigger :
    result (after (.getTrigger 0x10 3) (ready (routed 0x10 0x0008))) = some (.task 1, .truth true) ∧
    result (after (.getTrigger 0x10 2) (ready (routed 0x10 0x0008))) = some (.task 1, .truth false) := by decide

/-! ### Construction (95, 2.5) -/

/-- Vector Q3. -/
theorem test_construct_on_wrong_module :
    result (after .construct (module { calm with idHi := 0x15, idLo := 0xBB } .free .uninitialized))
      = some (.task 1, .error .deviceNotFound) ∧
    (after .construct (module { calm with idHi := 0x15, idLo := 0xBB } .free .uninitialized)).host.log =
      [okTxn 0x00000089 0x15, okTxn 0x0000008B 0xBB] := by decide

/-- Vector Q6. -/
theorem test_construct_twice :
    result (after .construct (ready calm)) = some (.task 1, .refused .notUninitialized) := by decide

/-- Vector Q4. -/
theorem test_probe_bus_failure :
    result (after .probe (onBus [succeeds, fails] (module calm (.held (.task 1)) .probing)))
      = some (.task 1, .error .busAccessFailure) := by decide

/-- R235, R238. -/
theorem test_reset_and_start :
    (after .resetModule (module calm (.held (.task 1)) .resetting)).host.drv = .configuringTriggers ∧
    (after .startCollecting (module calm (.held (.task 1)) .configuringTriggers)).host.drv = .collecting := by decide

/-- R240: where the confirm of EnableTCLK fails, what `tclkEnabled` is then is a draw (here 0). -/
theorem test_start_confirm_failure :
    (after .startCollecting (onBus [succeeds, fails] (module calm (.held (.task 1)) .configuringTriggers))).host.drv
      = .failed ∧
    (after .startCollecting (onBus [succeeds, fails] (module calm (.held (.task 1)) .configuringTriggers))).hw.tclkEnabled
      = false := by decide

/-! ### FIFO operations (95, 2.6) -/

/-- Vector R-1. -/
theorem test_read_status :
    (after .readStatus (ready { calm with fifoOverflow := true, fifoThreshold := true })).host.log =
      [okTxn 0x10000042 0x0B05, okTxn 0x50000042 0x0B05, okTxn 0x10000042 0x0105] := by decide

/-- Vector D1. -/
theorem test_drain_empty :
    (after .drainOneEvent (ready calm)).host.log = [okTxn 0x10000042 0x0105] ∧
    result (after .drainOneEvent (ready calm)) = some (.task 1, .empty) := by decide

/-- Vector D2. -/
theorem test_drain_one :
    result (after .drainOneEvent (ready { calm with fifo := [0x000A2B37] })) = some (.task 1, .event 0x37 0x000A2B) ∧
    (after .drainOneEvent (ready { calm with fifo := [0x000A2B37] })).host.log =
      [okTxn 0x10000042 0x0005, okTxn 0x90001200 0x000A, okTxn 0x90001202 0x2B37] := by decide

/-- Vectors H1, H3. -/
theorem test_set_fifo_threshold :
    result (after (.setFifoThreshold 0) (ready calm)) = some (.task 1, .error .invalidParameter) ∧
    (after (.setFifoThreshold 255) (ready calm)).hw.threshold = 0x00FF := by decide

/-- Vectors W1, W3. -/
theorem test_set_write_trigger :
    result (after (.setWriteTrigger 8) (ready calm)) = some (.task 1, .error .invalidParameter) ∧
    (after (.setWriteTrigger 7) (ready calm)).host.log = [okTxn 0x4000004A 0x08, okTxn 0x0000004A 0x08] := by decide

/-- Vector W4. -/
theorem test_set_reset_timestamp_trigger :
    (after (.setResetTimestampTrigger 3) (ready calm)).host.log =
      [okTxn 0x4000004B 0x04, okTxn 0x0000004B 0x04] := by decide

/-- The occupancy table of 95, steps 2, 5 and 8 (and 8 under the other rule). -/
theorem test_occupancy_machine :
    (enqueue testCfg 1 false { calm with fifo := [1] }).fifoThreshold = true ∧
    (enqueue testCfg 1 false { calm with fifo := [1, 2, 3, 4] }).fifoOverflow = true ∧
    (enqueue testCfg 1 false { calm with fifo := [1, 2, 3] }).fifoThreshold = false ∧
    (enqueue { testCfg with threshRule := .atOrAbove } 1 false { calm with fifo := [1, 2, 3] }).fifoThreshold = true := by
  decide

/-! ### Event capture (95, 2.7) -/

/-- Vector A1. -/
theorem test_event_captured :
    (after (.evtTclk 0x10) (ready { routed 0x10 0x0008 with wrTrigSel := 0x04 })).hw.fifo = [0x000A2B10] ∧
    (after (.evtTclk 0x10) (ready { routed 0x10 0x0008 with wrTrigSel := 0x04 })).history = [.trig 0x10 0x08] := by
  decide

/-- Vectors A5 (one draw) and A11. -/
theorem test_event_resets_counter :
    (after (.evtTclk 0x40) (ready { routed 0x40 0x000A with
      wrTrigSel := 0x04, clrTrigSel := 0x02, tsCounter := 0x000009 })).hw.fifo = [0x00000940] ∧
    (after (.evtTclk 0x40) { ready { routed 0x40 0x0002 with
      clrTrigSel := 0x02, fifo := [1, 2], fifoPhase := .highRead } with
        cfg := { testCfg with clearAlsoFlushes := true } }).hw.fifoPhase = .highReadEmpty := by decide

/-- Vector A7. -/
theorem test_tick_wraps : (after .evtTick (ready { calm with tsCounter := 0xFFFFFF })).hw.tsCounter = 0 := by decide

/-- Vector A10. -/
theorem test_input_changes :
    statusWord 4 (after (.evtInput true false true false) (ready { calm with tclkPresent := false })).hw false
      = 0x0185 := by decide

/-! ### The lock (95, 2.8) -/

/-- Vectors K1, K2. -/
theorem test_lock_task :
    (after .lockTask (ready calm)).host.lock = .held (.task 1) ∧
    ((after .lockTask ((holding calm).setCurrent (.task 2))).waits 2) = true := by decide

/-- Vector K3. -/
theorem test_lock_isr : result (after .lockIsr (holding calm)) = some (.isr, .busy) := by decide

/-- R333's example and vector K6. -/
theorem test_unlock :
    (after .unlock (holding calm)).host.lock = .free ∧
    result (after .unlock ((holding calm).setCurrent (.task 2))) = some (.task 2, .refused .notLockHolder) := by decide

/-! ### A step from reset (log 1) -/

/-- The state after one step. -/
def stepped (s : State) : State :=
  match step s with
  | .next t => t
  | .fault _ => s
  | .refused _ => s

/-- R12, R335: right after power-on nobody holds the lock, so a scheduled read is refused and marks the state. -/
theorem test_step_from_reset :
    (stepped (State.reset.withFetchWord 32 0x10000040)).refused = true ∧
    (stepped (State.reset.withFetchWord 32 0x10000040)).host.log = [] := by decide

/-! ### Witnesses: for each obligation with hypotheses, a state and operands that meet them -/

/-- A state with turns scheduled. -/
def scheduled (ts : List Turn) (s : State) : State := withSchedule ts s

/-- Task 2 waits for the lock with an operation. -/
def waiting (op : Instr) (s : State) : State := s.block 2 op

/-- A bus that succeeds `n` times. -/
def patient (n : Nat) (s : State) : State :=
  { s with env := { s.env with bus := { given := List.replicate n succeeds, used := 0 } } }

theorem patient_ok (n : Nat) (s : State) : BusOk n (patient n s) := by
  intro j hj
  simp [patient, BusStream.at, List.getD_eq_getElem?_getD, hj, succeeds]

theorem testCfg_valid : testCfg.Valid := by decide

theorem witness_DecodeInvertsEncode : WellFormed (.recEvent 0xFFFFFF 0xFE) = true := by decide

theorem witness_EncodeInvertsDecode : decode .txn 0x000010000040 = .ok .rdCtrl := rfl

theorem witness_ReservedWordsAreRejected :
    (¬ ((0x000A : Half) ≤ 0x0009 ∨ (0x000A : Half) = 0x00FF)) ∧ (¬ ((0x00FE : Half) ≤ 0x0009 ∨ (0x00FE : Half) = 0x00FF)) ∧
    ((0x0009 : Half) ≤ 0x0009) ∧ (0x00010000 : CodeWord).extractLsb' 16 12 ≠ 0 ∧
    (0x30000040 : CodeWord).extractLsb' 28 2 = 3 ∧
    (0xA0001202 : CodeWord).extractLsb' 28 2 = 2 ∧ (0xA0001202 : CodeWord).extractLsb' 0 32 ≠ (0xA0001200 : Word) := by
  decide

theorem witness_StepRunsDecodedInstruction :
    (scheduled [.issue (.task 1) .txn 0x10000040] (holding calm)).env.schedule = [.issue (.task 1) .txn 0x10000040] ∧
    decode .txn 0x10000040 = .ok .rdCtrl ∧ (scheduled [.issue (.task 1) .txn 0x10000040] (holding calm)).waits 1 = false ∧
    (scheduled [.issue .isr .agent 0x51] (holding calm)).env.schedule = [.issue .isr .agent 0x51] ∧
    decode .agent 0x51 = .ok .evtTick := ⟨rfl, rfl, rfl, rfl, rfl⟩

theorem witness_WaitingTaskHasNoStepOfItsOwn :
    (scheduled [.issue (.task 2) .txn 0x10000040] (waiting .readStatus (holding calm))).env.schedule
      = [.issue (.task 2) .txn 0x10000040] ∧
    (scheduled [.issue (.task 2) .txn 0x10000040] (waiting .readStatus (holding calm))).waits 2 = true ∧
    (scheduled [.resume 2] (waiting .readStatus (holding calm))).env.schedule = [.resume 2] ∧
    waitingOp 2 (scheduled [.resume 2] (waiting .readStatus (holding calm))) = some .readStatus ∧
    (holding calm).env.schedule = [] := ⟨rfl, rfl, rfl, rfl, rfl⟩

theorem witness_UnmappedKeyMarksTheState :
    (scheduled [.issue (.task 1) .txn 0x90000200] (holding calm)).env.schedule = [.issue (.task 1) .txn 0x90000200] ∧
    (scheduled [.issue (.task 1) .txn 0x90000200] (holding calm)).waits 1 = false ∧
    decode .txn 0x90000200 = .error .unmappedKey ∧
    (scheduled [.issue (.task 1) .cmd 0x000A] (ready calm)).env.schedule = [.issue (.task 1) .cmd 0x000A] ∧
    (scheduled [.issue (.task 1) .cmd 0x000A] (ready calm)).waits 1 = false ∧
    decode .cmd 0x000A = .error .reservedCommand :=
  ⟨rfl, rfl, rfl, rfl, rfl, rfl⟩

theorem calm_inv (ts : List Turn) : Inv (scheduled ts (holding calm)) where
  cfgValid := testCfg_valid
  fifoBounded := Nat.zero_le _
  halfRead := fun _ h => nomatch h
  failedFree := fun h => nomatch h
  waitOnce := List.nodup_nil

/-- A step that the hypotheses `step s = .next t` are met by: EVT_TICK. -/
theorem tick_steps : step (scheduled [.issue .isr .agent 0x51] (holding calm)) =
    .next { holding calm with hw := tickCounter calm } := rfl

theorem witness_StepKeepsInvariant : Inv (scheduled [.issue .isr .agent 0x51] (holding calm)) ∧
    ∃ t, step (scheduled [.issue .isr .agent 0x51] (holding calm)) = .next t := ⟨calm_inv _, _, tick_steps⟩

theorem witness_ConfigurationAndIdentificationAreConstant :
    ∃ s t, step s = .next t := ⟨_, _, tick_steps⟩

theorem witness_MarkIsStickyAndRecordsOnlyGrow : ∃ s t, s.refused = true ∧ step s = .next t :=
  ⟨{ holding calm with refused := true }, _, rfl, rfl⟩

theorem witness_DriverMovesAreTheListedOnes :
    (∃ s t, s.host.drv = .collecting ∧ step s = .next t) ∧ (∃ s t, s.host.drv = .failed ∧ step s = .next t) :=
  ⟨⟨holding calm, _, rfl, rfl⟩, ⟨module calm .free .failed, _, rfl, rfl⟩⟩

theorem witness_StuckTaskStaysStuck :
    ((holding calm).host.current = .task 1 ∧ (holding calm).host.lock = .held (.task 1) ∧
      (holding calm).host.drv ≠ .failed) ∧
    (StuckOn 1 .lockTask ((holding calm).block 1 .lockTask) ∧
      ∃ t, step ((holding calm).block 1 .lockTask) = .next t) :=
  ⟨⟨rfl, rfl, by decide⟩, ⟨rfl, rfl, .inl ⟨rfl, by decide⟩⟩, _, rfl⟩

theorem witness_OnlyTheHolderActs :
    ∃ t, isAgentStep .rdCtrl = false ∧ (module calm (.held .isr) .collecting).host.lock = .held .isr ∧
      (module calm (.held .isr) .collecting).host.current ≠ .isr ∧
      exec .rdCtrl (module calm (.held .isr) .collecting) = .next t := ⟨_, rfl, rfl, by decide, rfl⟩

theorem witness_AgentsLeaveTheHostAlone : ∃ t, isAgentStep .evtTick = true ∧ exec .evtTick (holding calm) = .next t :=
  ⟨_, rfl, rfl⟩

theorem witness_FailedDriverIsTerminal :
    ∃ t, isAgentStep .drainOneEvent = false ∧ (module calm .free .failed).host.drv = .failed ∧
      (module calm .free .failed).host.lock = .free ∧ exec .drainOneEvent (module calm .free .failed) = .next t :=
  ⟨_, rfl, rfl, rfl, rfl⟩

theorem witness_RecordRowsAreClassified :
    (¬ ((0xFF : Byte) = 0xFF ∧ (0xFFFFFE : Stamp) = 0xFFFFFF)) ∧
    decode .record (keyWord 0xFFFFFFFF) = .ok .recEmpty ∧
    decode .record (keyWord 0x123456AB) = .ok (.recEvent 0x123456 0xAB) := ⟨by decide, rfl, rfl⟩

theorem witness_RecordCodecRoundTrips :
    (0xFFFFFFFE : Word) ≠ 0xFFFFFFFF ∧ ¬ ((0xFF : Byte) = 0xFF ∧ (0xFFFFFE : Stamp) = 0xFFFFFF) := by decide

theorem witness_StatusNeverEmptyAndFull :
    1 ≤ 1 ∧ testCfg.Valid ∧ Admitted .cs 0x42 (holding calm) ∧ ((holding calm).env.bus.at 0).ok = true := by decide

/-- Every control/status offset, the last at the end of the smallest window. -/
theorem witness_PlainReadsReturnTheirRegister :
    (∀ off ∈ [0x40, 0x44, 0x45, 0x46, 0x48, 0x4A, 0x4B, 0x4C, 0x89, 0x8B], Admitted .cs off (holding calm)) ∧
    ((holding calm).env.bus.at 0).ok = true := by decide

theorem witness_StatusWriteClearsWrittenEdgeFlags :
    Admitted .cs 0x42 (holding calm) ∧ ((holding calm).env.bus.at 0).ok = true := by decide

theorem witness_StatusReadReturnsTheWord :
    Admitted .cs 0x42 (holding calm) ∧ ((holding calm).env.bus.at 0).ok = true := by decide

theorem witness_MdatWritesStoreTheirValue :
    Admitted .cs 0x44 (holding calm) ∧ Admitted .cs 0x45 (holding calm) ∧ ((holding calm).env.bus.at 0).ok = true := by
  decide

theorem witness_TimestampAndThresholdWrites :
    Admitted .cs 0x46 (holding calm) ∧ Admitted .cs 0x48 (holding calm) ∧ Admitted .cs 0x4C (holding calm) ∧
    ((holding calm).env.bus.at 0).ok = true := by decide

theorem witness_SelectorWritesStoreTheirValue :
    Admitted .cs 0x4A (holding calm) ∧ Admitted .cs 0x4B (holding calm) ∧ ((holding calm).env.bus.at 0).ok = true := by
  decide

theorem witness_TriggerTableTransactions :
    Admitted .ev (2 * (0x00 : Byte).toNat) (holding calm) ∧ Admitted .ev (2 * (0xFF : Byte).toNat) (holding calm) ∧
    ((holding calm).env.bus.at 0).ok = true := by decide

theorem witness_CommandsSetTheirEnable :
    Admitted .cs 0x40 (holding calm) ∧ ((holding calm).env.bus.at 0).ok = true := by decide

theorem witness_BufferAndInterruptCommands :
    Admitted .cs 0x40 (holding calm) ∧ ((holding calm).env.bus.at 0).ok = true := by decide

theorem witness_SoftwareResetLeavesSpecValues :
    Admitted .cs 0x40 (holding calm) ∧ ((holding calm).env.bus.at 0).ok = true := by decide

theorem witness_UnadmittedTransactionsAreRefused :
    (txnPlace .rdIdLo = some (.cs, 0x8B) ∧ 0x8B < (ready calm).cfg.windowSize .cs ∧
      (ready calm).host.lock ≠ .held (ready calm).host.current) ∧
    (txnPlace .rdIdLo = some (.cs, 0x8B) ∧
      { ready calm with cfg := { testCfg with csSize := 0x8B } }.cfg.windowSize .cs ≤ 0x8B) ∧
    (Admitted .cs 0x40 (holding calm) ∧ ¬ ((0x000A : Half) ≤ 0x0009 ∨ (0x000A : Half) = 0x00FF)) := by decide

/-- A bus whose next transaction fails without trace. -/
def failing (s : State) : State := onBus [fails] s

theorem witness_FailedTransactionReturnsBusAccessFailure :
    txnPlace .rdFifoLo = some (.ev, 0x1202) ∧ Admitted .ev 0x1202 (failing (holding { calm with fifoPhase := .highRead })) ∧
    ((failing (holding { calm with fifoPhase := .highRead })).env.bus.at 0).ok = false ∧
    (failing (holding { calm with fifoPhase := .highRead })).hw.fifoPhase ≠ .idle ∧
    ((failing (holding { calm with fifoPhase := .highRead })).env.bus.at 0).took = false := by decide

theorem witness_InstructionsChangeOnlyWhatTheirRuleNames : ∃ t, exec .rdStatus (holding calm) = .next t := ⟨_, rfl⟩

theorem witness_HalfReadsDeliverTheHeadRecord :
    Admitted .ev 0x1200 (holding calm) ∧ Admitted .ev 0x1202 (holding calm) ∧
    ((holding calm).env.bus.at 0).ok = true ∧
    (holding { calm with fifo := [1, 2] }).hw.fifoPhase = .idle ∧ (holding { calm with fifo := [1, 2] }).hw.fifo = [1, 2] ∧
    (holding calm).hw.fifo = [] ∧
    (holding { calm with fifo := [1], fifoPhase := .highRead }).hw.fifoPhase = .highRead ∧
    (holding { calm with fifoPhase := .highRead }).hw.fifoPhase = .highRead ∧
    (holding { calm with fifoPhase := .highRead }).hw.fifo = [] ∧
    (holding { calm with fifoPhase := .highReadEmpty }).hw.fifoPhase = .highReadEmpty := by decide

theorem witness_HalfReadsOutOfOrderAreRefused :
    (Admitted .ev 0x1200 (holding { calm with fifoPhase := .highRead }) ∧
      (holding { calm with fifoPhase := .highRead }).hw.fifoPhase ≠ .idle) ∧
    (Admitted .ev 0x1202 (holding calm) ∧ (holding calm).hw.fifoPhase = .idle) := by decide

theorem witness_PairedReadReturnsTheHeadRecord :
    testCfg.Valid ∧ (holding calm).host.lock = .held (holding calm).host.current ∧
    BusOk 2 (patient 2 (holding { calm with fifo := [1, 2] })) ∧
    (holding { calm with fifo := [1, 2] }).hw.fifo = [1, 2] ∧ testCfg.clearAlsoFlushes = false ∧
    (patient 2 (holding { calm with fifo := [1, 2] })).env.gaps = [] ∧
    { testCfg with clearAlsoFlushes := true }.clearAlsoFlushes = true ∧
    (holding calm).hw.fifo = [] ∧ (holding calm).hw.fifoPhase = .idle :=
  ⟨testCfg_valid, rfl, patient_ok _ _, rfl, rfl, rfl, rfl, rfl, rfl⟩

/-- The first operand out of range on each side. -/
theorem witness_InvalidParametersTouchNothing :
    (∀ i ∈ [Instr.setTrigger 0 8 true, .getTrigger 0 255, .setResetTimestampTrigger 0, .setResetTimestampTrigger 8,
      .setWriteTrigger 0, .setWriteTrigger 8, .setFifoThreshold 0], isCollectingCall i = true ∧ paramsOk i = false) ∧
    (ready calm).host.current = .task 1 ∧ (ready calm).host.drv = .collecting := by decide

theorem witness_CallsOutsideTheirDriverStateAreRefused :
    (isCollectingCall .readStatus = true ∧ (module calm .free .failed).host.current = .task 1 ∧
      (module calm .free .failed).host.drv ≠ .collecting) ∧
    ((ready calm).host.drv ≠ .uninitialized) ∧
    (subStepState .probe = some .probing ∧ (ready calm).host.drv ≠ .probing) ∧
    ((module calm .free .probing).host.current = .task 1 ∧ (module calm .free .probing).host.drv = .probing ∧
      (module calm .free .probing).host.lock ≠ .held (.task 1)) ∧
    (((ready calm).setCurrent .isr).host.current = .isr ∧ (subStepState .probe).isSome = true) := by decide

theorem witness_CallsWaitForTheLock :
    ((holding calm).host.current = .task 1 ∧ (holding calm).host.lock = .held (.task 1) ∧
      isCollectingCall (.setTrigger 0 7 true) = true ∧ paramsOk (.setTrigger 0 7 true) = true ∧
      (holding calm).host.drv = .collecting) ∧
    ((module calm (.held .isr) .uninitialized).host.lock = .held .isr ∧
      (module calm (.held .isr) .uninitialized).host.drv = .uninitialized) := by decide

theorem witness_CallsReleaseTheLock :
    (∀ i ∈ [Instr.setTrigger 0 7 true, .getTrigger 0 0, .setResetTimestampTrigger 1, .setWriteTrigger 7,
      .setFifoThreshold 255, .readStatus, .drainOneEvent], isCollectingCall i = true ∧ paramsOk i = true) ∧
    ReadyToCall 1 (ready calm) ∧
    (after .readStatus (onBus [succeeds, fails] (ready calm))).host.log =
      [okTxn 0x10000042 0x0105, { key := 0x50000042, value := some 0x0105, ok := false }] := by decide

theorem witness_SetTriggerChangesOneBit :
    ReadyToCall 1 (patient 3 (ready calm)) ∧ (7 : Byte).toNat ≤ 7 ∧ testCfg.Valid ∧
    (testCfg.ttHighBitsStored = true ∧ testCfg.confirmRule = .standard ∧ BusOk 3 (patient 3 (ready calm))) ∧
    (BusOk 3 (patient 3 (unstored [0, 1] (ready calm))) ∧ { testCfg with confirmRule := .other }.confirmRule = .other) ∧
    ((onBus [fails] (ready calm)).env.bus.at 0).ok = false ∧
    (BusOk 2 (onBus [succeeds, succeeds, fails] (ready calm)) ∧
      ((onBus [succeeds, succeeds, fails] (ready calm)).env.bus.at 2).ok = false) :=
  ⟨by decide, by decide, testCfg_valid, ⟨rfl, rfl, patient_ok _ _⟩, ⟨patient_ok _ _, rfl⟩, rfl, by decide, rfl⟩

theorem witness_GetTriggerReturnsTheBit :
    ReadyToCall 1 (patient 1 (ready calm)) ∧ (7 : Byte).toNat ≤ 7 ∧ testCfg.Valid ∧ BusOk 1 (patient 1 (ready calm)) :=
  ⟨by decide, by decide, testCfg_valid, patient_ok _ _⟩

theorem witness_SetThenGetRoundTrips :
    ReadyToCall 1 (patient 4 (ready calm)) ∧ (7 : Byte).toNat ≤ 7 ∧ testCfg.Valid ∧
    testCfg.ttHighBitsStored = true ∧ testCfg.confirmRule = .standard ∧ BusOk 4 (patient 4 (ready calm)) :=
  ⟨by decide, by decide, testCfg_valid, rfl, rfl, patient_ok _ _⟩

theorem witness_SelectorAndThresholdOperations :
    ReadyToCall 1 (patient 2 (ready calm)) ∧ 1 ≤ (1 : Byte).toNat ∧ (7 : Byte).toNat ≤ 7 ∧ testCfg.Valid ∧
    testCfg.confirmRule = .standard ∧ testCfg.selOffset = 1 ∧ BusOk 2 (patient 2 (ready calm)) ∧
    (∀ f ∈ edgeFlags, f { calm with
      mdatParityErr := true, fifoUnderflow := true, fifoOverflow := true, fifoThreshold := true, tclkParityErr := true }
      = true) :=
  ⟨by decide, by decide, by decide, testCfg_valid, rfl, rfl, patient_ok _ _, by simp [edgeFlags]⟩

/-- No agent step; and a parity error and an overflow that arrive between the snapshot and the write-back. -/
theorem witness_ReadStatusReturnsAndClears :
    ReadyToCall 1 (patient 3 (ready calm)) ∧ testCfg.Valid ∧ testCfg.confirmRule = .standard ∧
    BusOk 3 (patient 3 (ready calm)) ∧ (patient 3 (ready calm)).env.gaps = [] ∧ testCfg.statusClearOnRead = false ∧
    (withGaps [[], [.input true false true false]] (ready calm)).env.gaps = [] :: [.input true false true false] :: [] ∧
    calm.tclkParityErr = false ∧
    Hw.tclkParityErr (snapshotState 1 (withGaps [[], [.input true false true false]] (ready calm))).hw = false ∧
    Hw.tclkParityErr (writeBackState 1 (withGaps [[], [.input true false true false]] (ready calm))).hw = true :=
  ⟨by decide, testCfg_valid, rfl, patient_ok _ _, rfl, rfl, rfl, rfl, by decide, by decide⟩

theorem witness_DrainReturnsTheOldestRecord :
    (ReadyToCall 1 (patient 3 (ready { calm with fifo := [1, 2] })) ∧ testCfg.Valid ∧ testCfg.clearAlsoFlushes = false ∧
      BusOk 3 (patient 3 (ready { calm with fifo := [1, 2] })) ∧
      (ready { calm with fifo := [1, 2] }).hw.fifoPhase = .idle ∧ (ready { calm with fifo := [1, 2] }).hw.fifo = [1, 2] ∧
      (patient 3 (ready { calm with fifo := [1, 2] })).env.gaps = []) ∧
    (BusOk 1 (patient 1 (ready calm)) ∧ (patient 1 (ready calm)).env.gaps = [] ∧ (ready calm).hw.fifo = [] ∧
      testCfg.statusClearOnRead = false) :=
  ⟨⟨by decide, testCfg_valid, rfl, patient_ok _ _, rfl, rfl, rfl⟩, patient_ok _ _, rfl, rfl, rfl⟩

theorem witness_ConstructionSubStepsComplete :
    testCfg.Valid ∧ testCfg.confirmRule = .standard ∧
    BusOk 2 (patient 2 (module calm (.held (.task 1)) .probing)) ∧
    InsideConstruct 1 .probing (module calm (.held (.task 1)) .probing) ∧ calm.idHi = 0xBB ∧ calm.idLo = 0x15 ∧
    ¬ ({ calm with idLo := 0x16 }.idHi = 0xBB ∧ { calm with idLo := 0x16 }.idLo = 0x15) ∧
    InsideConstruct 1 .resetting (module calm (.held (.task 1)) .resetting) ∧
    InsideConstruct 1 .configuringTriggers (module calm (.held (.task 1)) .configuringTriggers) :=
  ⟨testCfg_valid, rfl, patient_ok _ _, by decide, rfl, rfl, by decide, by decide, by decide⟩

theorem witness_TableIsClearedEntryByEntry :
    testCfg.Valid ∧ testCfg.confirmRule = .standard ∧ testCfg.ttHighBitsStored = true ∧
    InsideConstruct 1 .configuringTriggers (module calm (.held (.task 1)) .configuringTriggers) ∧
    BusOk 512 (patient 512 (module calm (.held (.task 1)) .configuringTriggers)) ∧
    BusOk 516 (patient 516 (module calm (.held (.task 1)) .configuringTriggers)) :=
  ⟨testCfg_valid, rfl, rfl, by decide, patient_ok _ _, patient_ok _ _⟩

theorem witness_ConstructionSucceeds :
    (module calm .free .uninitialized).host.current = .task 1 ∧ (module calm .free .uninitialized).host.drv = .uninitialized ∧
    (module calm .free .uninitialized).host.lock = .free ∧ testCfg.Valid ∧ testCfg.confirmRule = .standard ∧
    testCfg.ttHighBitsStored = true ∧ calm.idHi = 0xBB ∧ calm.idLo = 0x15 ∧
    BusOk 522 (patient 522 (module calm .free .uninitialized)) :=
  ⟨rfl, rfl, rfl, testCfg_valid, rfl, rfl, rfl, rfl, patient_ok _ _⟩

theorem witness_WrongModuleIsLeftUntouched :
    (module { calm with idLo := 0x16 } .free .uninitialized).host.drv = .uninitialized ∧
    ¬ ({ calm with idLo := 0x16 }.idHi = 0xBB ∧ { calm with idLo := 0x16 }.idLo = 0x15) ∧ testCfg.Valid ∧
    BusOk 2 (patient 2 (module { calm with idLo := 0x16 } .free .uninitialized)) :=
  ⟨rfl, by decide, testCfg_valid, patient_ok _ _⟩

theorem witness_ConstructionEndsOneWayOrTheOther :
    (module calm .free .uninitialized).host.current = .task 1 ∧ (module calm .free .uninitialized).host.drv = .uninitialized ∧
    (module calm .free .uninitialized).host.lock = .free ∧ testCfg.Valid := by decide

theorem witness_LockOperations :
    ((ready calm).host.current = .task 1 ∧ (ready calm).host.drv ≠ .failed ∧ (ready calm).host.lock = .free) ∧
    ((holding calm).host.drv ≠ .failed ∧ (holding calm).host.lock = .held (.task 1) ∧
      (holding calm).host.lock = .held (holding calm).host.current) ∧
    (((ready calm).setCurrent .isr).host.current = .isr) ∧
    ((module calm .free .failed).host.current = .task 1 ∧ (module calm .free .failed).host.drv = .failed) ∧
    ((ready calm).host.lock ≠ .held (ready calm).host.current) := by decide

theorem witness_DisabledTclkEventChangesNothing :
    (holding { calm with tclkEnabled := false }).hw.tclkEnabled = false := rfl

/-- Entry 0x10 on line 0, and on line 7, with the write selector naming that line. -/
theorem routed_on_line :
    OnLine testCfg 0x01 (ttEntry (routed 0x10 0x0001).tt 0x10) ∧ OnLine testCfg 0x08 (ttEntry (routed 0x10 0x0080).tt 0x10) ∧
    OffLine testCfg 0x00 (ttEntry (routed 0x10 0x00FF).tt 0x10) ∧ OffLine testCfg 0x08 (ttEntry (routed 0x10 0x007F).tt 0x10) :=
  ⟨⟨0, by decide⟩, ⟨7, by decide⟩, .inl rfl, .inr ⟨7, by decide⟩⟩

/-- A FIFO one short of full, the threshold at both ends of its range and just outside, the selector at both ends. -/
theorem witness_CapturedEventIsAppended :
    calm.tclkEnabled = true ∧ calm.clrTrigSel = 0 ∧ { testCfg with captureRule := .any }.captureRule = .any ∧
    SurelyCaptured 0x10 (ready { routed 0x10 0x0080 with wrTrigSel := 0x08 }) ∧
    SurelyPassed 0x10 (ready { routed 0x10 0x007F with wrTrigSel := 0x08 }) ∧
    SurelyPassed 0x10 (ready (routed 0x10 0x00FF)) ∧
    { calm with fifo := [1, 2, 3] }.fifo.length ≠ testCfg.fifoDepth ∧
    (1 ≤ { calm with threshold := 1 }.threshold.toNat ∧ { calm with threshold := 4 }.threshold.toNat ≤ testCfg.fifoDepth ∧
      testCfg.threshRule = .crossing ∧ { testCfg with threshRule := .atOrAbove }.threshRule = .atOrAbove) ∧
    ({ calm with threshold := 0 }.threshold.toNat = 0 ∧ testCfg.fifoDepth < { calm with threshold := 5 }.threshold.toNat ∧
      { calm with fifoThreshold := true }.fifoThreshold = true) :=
  ⟨rfl, rfl, rfl, .inr ⟨rfl, routed_on_line.2.1⟩, ⟨rfl, routed_on_line.2.2.2⟩, ⟨rfl, routed_on_line.2.2.1⟩, by decide,
    by decide, by decide⟩

theorem witness_EventsOnlyAppend :
    calm.tclkEnabled = true ∧ OffLine testCfg calm.clrTrigSel 0x00FF ∧
    OnLine testCfg 0x08 (ttEntry (routed 0x10 0x0080).tt 0x10) ∧ testCfg.clearAlsoFlushes = false ∧
    ({ testCfg with clearAlsoFlushes := true } : Config).clearAlsoFlushes = true ∧
    SurelyCaptured 0x10 (ready { routed 0x10 0x0001 with wrTrigSel := 0x01 }) ∧
    SurelyPassed 0x10 (ready { routed 0x10 0x007F with wrTrigSel := 0x08 }) ∧
    { calm with fifo := [1, 2, 3, 4] }.fifo.length = testCfg.fifoDepth ∧ calm.fifo.length ≠ testCfg.fifoDepth ∧
    { calm with fifoOverflow := true }.fifoOverflow = true ∧ { calm with fifoThreshold := true }.fifoThreshold = true :=
  ⟨rfl, .inl rfl, routed_on_line.2.1, rfl, rfl, .inr ⟨rfl, routed_on_line.1⟩, ⟨rfl, routed_on_line.2.2.2⟩, by decide,
    by decide, rfl, rfl⟩

theorem witness_TimebaseAndInputSteps : { calm with mdatAutoBufEn := false }.mdatAutoBufEn = false := rfl

end Sys2Proof.Tests
end

/-! ### What every step of the machine keeps -/

namespace Sys2Proof.Machine

/-- A relation between the states before and after that every elementary change of a state keeps: the effects of single
transactions, the agents' steps, and the host's own bookkeeping. -/
structure Durable (R : State → State → Prop) : Prop extends Closed R where
  agent    : ∀ s t, AgentKeeps s t → R s t
  returned : ∀ s k r, R s (s.returnTo k r)
  marked   : ∀ s k r, R s (s.refuseTo k r)
  lock     : ∀ s l, R s (s.setLock l)
  drv      : ∀ s d, R s (s.setDrv d)
  current  : ∀ s k, R s (s.setCurrent k)
  waits    : ∀ s n op, R s (s.block n op)
  resumes  : ∀ s n, R s (s.unblock n)
  turn     : ∀ s ts, R s (withSchedule ts s)

/-- A host operation that took the lock ends as a transaction does, once the lock is released (R333). -/
theorem endCall_eq (r : Except Stop Result × State) : endCall r = endTxn (r.1, r.2.setLock .free) := by
  match r with
  | (.ok v, t) => rfl
  | (.error (.error e), t) => rfl
  | (.error (.refused c), t) => rfl

theorem exec_case_of {i : Instr} {s t : State} (h : exec i s = .next t) : ExecCase i s t := by
  obtain ⟨u, hu, hc⟩ := exec_case i s
  cases h.symm.trans hu
  exact hc

section Durable

variable {R : State → State → Prop} (du : Durable R)

include du

theorem Durable.endTxn {s : State} {r : Except Stop Result × State} (h : R s r.2) : R s (endTxn r) := by
  match r with
  | (.ok v, t) => exact du.trans _ _ _ h (du.returned ..)
  | (.error (.error e), t) => exact du.trans _ _ _ h (du.returned ..)
  | (.error (.refused c), t) => exact du.trans _ _ _ h (du.marked ..)

theorem Durable.endCall {s : State} {r : Except Stop Result × State} (h : R s r.2) : R s (endCall r) := by
  rw [endCall_eq]
  exact du.endTxn (du.trans _ _ _ h (du.lock ..))

theorem Durable.endSubStep {s : State} {next : DriverState} {r : Except Stop Unit × State} (h : R s r.2) :
    R s (endSubStep next r) := by
  match r with
  | (.ok _, t) => exact du.trans _ _ _ h (du.trans _ _ _ (du.drv t next) (du.returned ..))
  | (.error (.error e), t) =>
    exact du.trans _ _ _ h (du.trans _ _ _ (du.drv t .failed) (du.trans _ _ _ (du.lock ..) (du.returned ..)))
  | (.error (.refused c), t) =>
    exact du.trans _ _ _ h (du.trans _ _ _ (du.drv t .failed) (du.trans _ _ _ (du.lock ..) (du.marked ..)))

theorem Durable.execCase {i : Instr} {s t : State} (h : ExecCase i s t) : R s t := by
  cases h with
  | marked r => exact du.marked ..
  | returned r => exact du.returned ..
  | waits n k hk hl => exact du.waits ..
  | txn op hb hl => exact du.endTxn (hb R du.toClosed s)
  | call n op hb hk hl hd =>
    exact du.endCall (du.trans _ _ _ (du.lock s (.held (.task n))) (hb R du.toClosed _))
  | construct n hk hl hd =>
    exact du.endCall (du.trans _ _ _ (du.lock s (.held (.task n))) (du.toClosed.constructBody du.drv _))
  | sub n d next op hb hs hm hf hn hc => exact du.endSubStep (hb R du.toClosed s)
  | agent t hk hh hl hf => exact du.agent _ _ hk
  | again n k hk hl => exact du.waits ..
  | unlock hl => exact du.trans _ _ _ (du.lock ..) (du.returned ..)

theorem Durable.exec {i : Instr} {s t : State} (h : exec i s = .next t) : R s t := du.execCase (exec_case_of h)

/-- What every elementary change keeps, every step of the machine keeps. -/
theorem Durable.step {s t : State} (h : step s = .next t) : R s t := by
  cases step_case h with
  | idle => exact du.refl s
  | passes ts => exact du.turn s ts
  | rejected ts k r => exact du.trans _ _ _ (du.turn s ts) (du.trans _ _ _ (du.current _ k) (du.marked ..))
  | host ts k i t hk h => exact du.trans _ _ _ (du.turn s ts) (du.trans _ _ _ (du.current _ k) (du.exec h))
  | agent ts i t ha h => exact du.trans _ _ _ (du.turn s ts) (du.exec h)
  | resume ts n op t hw h =>
    exact du.trans _ _ _ (du.turn s ts) (du.trans _ _ _ (du.resumes _ n)
      (du.trans _ _ _ (du.current _ (.task n)) (du.exec h)))

end Durable

/-! ### The invariant -/

/-- The invariant but for its clause on the lock, which CONSTRUCT's body breaks between entering Failed and the release
of the lock (R231, R333). -/
structure BaseInv (s : State) : Prop where
  cfgValid    : s.cfg.Valid
  fifoBounded : s.hw.fifo.length ≤ s.cfg.fifoDepth
  halfRead    : s.host.log.any failedHalf = false → s.hw.fifoPhase = .highRead → s.hw.fifo ≠ []
  waitOnce    : (s.host.blocked.map Prod.fst).Nodup

/-- A failed driver holds no lock (R231, R239). -/
def FailedFree (s : State) : Prop := s.host.drv = .failed → s.host.lock = .free

theorem inv_iff {s : State} : Inv s ↔ BaseInv s ∧ FailedFree s :=
  ⟨fun h => ⟨⟨h.cfgValid, h.fifoBounded, h.halfRead, h.waitOnce⟩, h.failedFree⟩,
    fun ⟨h, hf⟩ => ⟨h.cfgValid, h.fifoBounded, h.halfRead, hf, h.waitOnce⟩⟩

theorem BaseInv.ofAgent {s t : State} (h : AgentKeeps s t) (hs : BaseInv s) : BaseInv t where
  cfgValid := h.cfg ▸ hs.cfgValid
  fifoBounded := h.cfg ▸ h.hw.bounded hs.fifoBounded
  halfRead hl := h.hw.halfRead (hs.halfRead (h.log ▸ hl))
  waitOnce := h.waitOnce hs.waitOnce

theorem BaseInv.ofEffect {s t : State} (h : HwStep s t) (hs : BaseInv s) : BaseInv t where
  cfgValid := h.cfg ▸ hs.cfgValid
  fifoBounded := h.cfg ▸ h.bounded hs.fifoBounded
  halfRead hl := h.halfRead (hs.halfRead (h.host ▸ hl))
  waitOnce := h.host ▸ hs.waitOnce

/-- A failed half read may lose the record; its log entry lifts the clause on the record half read (R153). -/
theorem BaseInv.ofFailedHalf {s t : State} {e : Txn} (h : HwTrace s t) (he : failedHalf e = true) (hs : BaseInv s) :
    BaseInv (t.logTxn e) where
  cfgValid := h.cfg ▸ hs.cfgValid
  fifoBounded := h.cfg ▸ h.bounded hs.fifoBounded
  halfRead hl := by simp [he] at hl
  waitOnce := by simpa [h.host] using hs.waitOnce

theorem BaseInv.logged {s : State} (e : Txn) (hs : BaseInv s) : BaseInv (s.logTxn e) where
  cfgValid := hs.cfgValid
  fifoBounded := hs.fifoBounded
  halfRead hl := hs.halfRead (by simp_all)
  waitOnce := hs.waitOnce

theorem BaseInv.blocks {s : State} (n : Nat) (op : Instr) (hs : BaseInv s) : BaseInv (s.block n op) where
  cfgValid := hs.cfgValid
  fifoBounded := hs.fifoBounded
  halfRead := hs.halfRead
  waitOnce := block_waitOnce n op s hs.waitOnce

theorem BaseInv.unblocks {s : State} (n : Nat) (hs : BaseInv s) : BaseInv (s.unblock n) where
  cfgValid := hs.cfgValid
  fifoBounded := hs.fifoBounded
  halfRead := hs.halfRead
  waitOnce := hs.waitOnce.sublist (List.filter_sublist.map _)

/-- The base invariant reads only the configuration, the hardware, the log and the list of waiting tasks. -/
theorem BaseInv.congr {s t : State} (hc : t.cfg = s.cfg) (hh : t.hw = s.hw) (hl : t.host.log = s.host.log)
    (hb : t.host.blocked = s.host.blocked) (hs : BaseInv s) : BaseInv t where
  cfgValid := hc ▸ hs.cfgValid
  fifoBounded := hc ▸ hh ▸ hs.fifoBounded
  halfRead := hl ▸ hh ▸ hs.halfRead
  waitOnce := hb ▸ hs.waitOnce

theorem baseInv_durable : Durable fun s t => BaseInv s → BaseInv t where
  refl _ := id
  trans _ _ _ x y := y ∘ x
  gap s := .ofAgent (runGap_keeps s)
  bus _ := .congr rfl rfl rfl rfl
  log _ e := .logged e
  effect _ _ := .ofEffect
  lost _ _ _ := .ofFailedHalf
  agent _ _ := .ofAgent
  returned _ _ _ := .congr rfl rfl rfl rfl
  marked _ _ _ := .congr rfl rfl rfl rfl
  lock _ _ := .congr rfl rfl rfl rfl
  drv _ _ := .congr rfl rfl rfl rfl
  current _ _ := .congr rfl rfl rfl rfl
  waits _ n op := .blocks n op
  resumes _ n := .unblocks n
  turn _ _ := .congr rfl rfl rfl rfl

/-! ### A failed driver holds no lock -/

/-- No transaction and no gap moves the driver (R230). -/
theorem sameDriver_closed : Closed fun s t => t.host.drv = s.host.drv where
  refl _ := rfl
  trans _ _ _ x y := y.trans x
  gap s := (runGap_keeps s).drv
  bus _ := rfl
  log _ _ := rfl
  effect _ _ h := by rw [h.host]
  lost _ _ _ h _ := by simp [h.host]

@[simp] theorem endTxn_drv (r : Except Stop Result × State) : (endTxn r).host.drv = r.2.host.drv := by
  match r with
  | (.ok v, t) => rfl
  | (.error (.error e), t) => rfl
  | (.error (.refused c), t) => rfl

@[simp] theorem endTxn_lock (r : Except Stop Result × State) : (endTxn r).host.lock = r.2.host.lock := by
  match r with
  | (.ok v, t) => rfl
  | (.error (.error e), t) => rfl
  | (.error (.refused c), t) => rfl

/-- R333: the lock is released on every path. -/
@[simp] theorem endCall_lock (r : Except Stop Result × State) : (endCall r).host.lock = .free := by
  simp [endCall_eq]

theorem endSubStep_failedFree {next : DriverState} (hn : next ≠ .failed) (r : Except Stop Unit × State) :
    FailedFree (endSubStep next r) := by
  match r with
  | (.ok _, t) => exact fun hd => absurd hd hn
  | (.error (.error e), t) => exact fun _ => rfl
  | (.error (.refused c), t) => exact fun _ => rfl

theorem ExecCase.failedFree {i : Instr} {s t : State} (h : ExecCase i s t) (hs : FailedFree s) : FailedFree t := by
  cases h with
  | marked r => exact hs
  | returned r => exact hs
  | waits n k hk hl => exact hs
  | txn op hb hl =>
    intro hd
    rw [endTxn_drv, hb _ sameDriver_closed s] at hd
    exact nomatch hl.symm.trans (hs hd)
  | call n op hb hk hl hd => exact fun _ => endCall_lock _
  | construct n hk hl hd => exact fun _ => endCall_lock _
  | sub n d next op hb hi hm hf hn hc => exact endSubStep_failedFree hn _
  | agent t hk hh hl hf =>
    intro hd
    have hd' : s.host.drv = .failed := hk.drv.symm.trans hd
    exact (hk.failed hd').trans (hs hd')
  | again n k hk hl => exact hs
  | unlock hl => exact fun _ => rfl

theorem exec_keeps_failedFree {i : Instr} {s t : State} (h : exec i s = .next t) (hs : FailedFree s) :
    FailedFree t := (exec_case_of h).failedFree hs

theorem step_keeps_failedFree {s t : State} (h : step s = .next t) (hs : FailedFree s) : FailedFree t := by
  cases step_case h with
  | idle => exact hs
  | passes ts => exact hs
  | rejected ts k r => exact hs
  | host ts k i t hk h => exact exec_keeps_failedFree h hs
  | agent ts i t ha h => exact exec_keeps_failedFree h hs
  | resume ts n op t hw h => exact exec_keeps_failedFree h hs

/-- Settles O10: the clause on the lock by the cases of a step, the others because every elementary change keeps them. -/
theorem stepKeepsInvariant : Obligations.StepKeepsInvariant := by
  intro s t hs h
  obtain ⟨hb, hf⟩ := inv_iff.mp hs
  exact inv_iff.mpr ⟨baseInv_durable.step h hb, step_keeps_failedFree h hf⟩

theorem initial_valid : Config.initial.Valid :=
  ⟨Nat.le_add_left .., Nat.le_add_left .., Nat.le_add_left .., Nat.le_add_left ..⟩

/-- Settles O9: the FIFO drawn at power-on is no longer than the depth, and its phase is Idle. -/
theorem resetMeetsInvariant : Obligations.ResetMeetsInvariant where
  cfgValid := initial_valid
  fifoBounded := drawnFifo_length ..
  halfRead _ hp := nomatch hp
  failedFree hd := nomatch hd
  waitOnce := .nil

/-! ### The mark and the records -/

/-- The mark stays and the records only grow from `s` to `t` (R12, R50; log 9). -/
structure Grows (s t : State) : Prop where
  mark    : s.refused = true → t.refused = true
  log     : s.host.log <+: t.host.log
  history : s.history <+: t.history
  returns : s.host.returns <+: t.host.returns

theorem Grows.same {s t : State} (hm : t.refused = s.refused) (hl : t.host.log = s.host.log)
    (hh : t.history = s.history) (hr : t.host.returns = s.host.returns) : Grows s t where
  mark := hm ▸ id
  log := hl ▸ List.prefix_rfl
  history := hh ▸ List.prefix_rfl
  returns := hr ▸ List.prefix_rfl

theorem Grows.refl (s : State) : Grows s s := .same rfl rfl rfl rfl

theorem Grows.trans {a b c : State} (x : Grows a b) (y : Grows b c) : Grows a c where
  mark := y.mark ∘ x.mark
  log := x.log.trans y.log
  history := x.history.trans y.history
  returns := x.returns.trans y.returns

theorem Grows.logged (s : State) (e : Txn) : Grows s (s.logTxn e) :=
  { Grows.refl s with log := List.prefix_append _ _ }

theorem Grows.returned (s : State) (k : HostContext) (r : Result) : Grows s (s.returnTo k r) :=
  { Grows.refl s with returns := List.prefix_append _ _ }

theorem Grows.ofAgent {s t : State} (h : AgentKeeps s t) : Grows s t where
  mark := h.mark
  log := h.log ▸ List.prefix_rfl
  history := h.history
  returns := h.returns

theorem Grows.ofTrace {s t : State} (h : HwTrace s t) : Grows s t where
  mark := h.refused ▸ id
  log := h.host ▸ List.prefix_rfl
  history := h.history
  returns := h.host ▸ List.prefix_rfl

theorem grows_durable : Durable Grows where
  refl := .refl
  trans _ _ _ := .trans
  gap s := .ofAgent (runGap_keeps s)
  bus _ := .same rfl rfl rfl rfl
  log := .logged
  effect _ _ h := .ofTrace h.toHwTrace
  lost _ _ e h _ := (Grows.ofTrace h).trans (.logged _ e)
  agent _ _ := .ofAgent
  returned := .returned
  marked s k r := { Grows.returned s k (.refused r) with mark := fun _ => rfl }
  lock _ _ := .same rfl rfl rfl rfl
  drv _ _ := .same rfl rfl rfl rfl
  current _ _ := .same rfl rfl rfl rfl
  waits _ _ _ := .same rfl rfl rfl rfl
  resumes _ _ := .same rfl rfl rfl rfl
  turn _ _ := .same rfl rfl rfl rfl

/-- Settles O12: every elementary change keeps the mark and only appends to the records. -/
theorem markIsStickyAndRecordsOnlyGrow : Obligations.MarkIsStickyAndRecordsOnlyGrow := by
  intro s t h
  have g := grows_durable.step h
  exact ⟨g.mark, g.log, g.history, g.returns⟩

/-! ### The turn at the head of the schedule -/

theorem isHostFormat_of_ne {f : Format} (h : f ≠ .agent) : isHostFormat f = true := by
  cases f with
  | agent => exact absurd rfl h
  | txn | cmd | record | api => rfl

theorem hasNoStep_false {k : HostContext} {s : State} (h : ∀ n, k = .task n → s.waits n = false) :
    hasNoStep k s = false := by
  cases k with
  | task n => exact h n rfl
  | isr => rfl

theorem step_head {s : State} {t : Turn} {ts : List Turn} (hs : s.env.schedule = t :: ts) :
    step s = runTurn t (withSchedule ts s) := by
  simp [step, stepTurn, hs]

/-- A turn of format AGENT has no context (R14). -/
theorem step_agentTurn {s : State} {k : HostContext} {x : CodeWord} {ts : List Turn}
    (hs : s.env.schedule = .issue k .agent x :: ts) : step s = runWord .agent x (withSchedule ts s) :=
  step_head hs

/-- A host turn runs in its context, which does not wait for the lock (R14, R331). -/
theorem step_hostTurn {s : State} {k : HostContext} {f : Format} {x : CodeWord} {ts : List Turn}
    (hs : s.env.schedule = .issue k f x :: ts) (hf : f ≠ .agent) (hk : ∀ n, k = .task n → s.waits n = false) :
    step s = runWord f x ((withSchedule ts s).setCurrent k) := by
  have hn : hasNoStep k (withSchedule ts s) = false := hasNoStep_false hk
  rw [step_head hs]
  simp [runTurn, inContext, isHostFormat_of_ne hf, hn]

theorem runWord_ok {f : Format} {x : CodeWord} {i : Instr} (h : decode f x = .ok i) (s : State) :
    runWord f x s = exec i s := by
  simp [runWord, h]

theorem runWord_error {f : Format} {x : CodeWord} {r : Reject} (h : decode f x = .error r) (s : State) :
    runWord f x s = runRejected r s := by
  simp [runWord, h]

/-- Settles O5: the turn of an agent as it is, a host turn in its context. -/
theorem stepRunsDecodedInstruction : Obligations.StepRunsDecodedInstruction := by
  intro s k f x ts i hs hd
  refine ⟨?_, fun hf hk => ?_⟩
  · rintro rfl
    rw [step_agentTurn hs, runWord_ok hd]
  · rw [step_hostTurn hs hf hk, runWord_ok hd]

/-- Settles O7: the decoder's two rejections that are refused with the mark, each with its own reason. -/
theorem unmappedKeyMarksTheState : Obligations.UnmappedKeyMarksTheState := by
  intro s k f x ts r hs hk hd hr
  rcases hr with ⟨rfl, rfl⟩ | ⟨rfl, rfl⟩
  · rw [step_hostTurn hs (by decide) hk, runWord_error hd]
    rfl
  · rw [step_hostTurn hs (by decide) hk, runWord_error hd]
    rfl

end Sys2Proof.Machine

/-! ### Values the state specification fixes (R42, R60) -/

namespace Sys2Proof.Machine

/-- Settles O21: R42's constants, by evaluating the masks. -/
theorem edgeAndLevelMasks : Obligations.EdgeAndLevelMasks := ⟨rfl, rfl, rfl, rfl⟩

/-- Settles O8: R60's values stand in the reset state, and the FIFO drawn at power-on is no longer than the depth. -/
theorem resetLeavesSpecValues : Obligations.ResetLeavesSpecValues :=
  ⟨rfl, rfl, rfl, drawnFifo_length .., rfl, rfl, rfl, rfl⟩

/-! ### The configuration and the identification bytes -/

/-- `s` and `t` are states of one module: same configuration, same identification bytes (R30, R44). -/
structure SameModule (s t : State) : Prop where
  cfg  : t.cfg = s.cfg
  idHi : t.hw.idHi = s.hw.idHi
  idLo : t.hw.idLo = s.hw.idLo

theorem SameModule.refl (s : State) : SameModule s s := ⟨rfl, rfl, rfl⟩

theorem SameModule.trans {a b c : State} (x : SameModule a b) (y : SameModule b c) : SameModule a c where
  cfg := y.cfg.trans x.cfg
  idHi := y.idHi.trans x.idHi
  idLo := y.idLo.trans x.idLo

/-- The identification bytes are among the registers, which no agent writes (R300). -/
theorem SameModule.ofAgent {s t : State} (h : AgentKeeps s t) : SameModule s t where
  cfg := h.cfg
  idHi := congrArg Registers.idHi h.hw.registers
  idLo := congrArg Registers.idLo h.hw.registers

theorem SameModule.ofTrace {s t : State} (h : HwTrace s t) : SameModule s t := ⟨h.cfg, h.idHi, h.idLo⟩

theorem sameModule_durable : Durable SameModule where
  refl := .refl
  trans _ _ _ := .trans
  gap s := .ofAgent (runGap_keeps s)
  bus _ := ⟨rfl, rfl, rfl⟩
  log _ _ := ⟨rfl, rfl, rfl⟩
  effect _ _ h := .ofTrace h.toHwTrace
  lost _ _ _ h _ := (SameModule.ofTrace h).trans ⟨rfl, rfl, rfl⟩
  agent _ _ := .ofAgent
  returned _ _ _ := ⟨rfl, rfl, rfl⟩
  marked _ _ _ := ⟨rfl, rfl, rfl⟩
  lock _ _ := ⟨rfl, rfl, rfl⟩
  drv _ _ := ⟨rfl, rfl, rfl⟩
  current _ _ := ⟨rfl, rfl, rfl⟩
  waits _ _ _ := ⟨rfl, rfl, rfl⟩
  resumes _ _ := ⟨rfl, rfl, rfl⟩
  turn _ _ := ⟨rfl, rfl, rfl⟩

/-- Settles O11: no elementary change writes the configuration or an identification byte. -/
theorem configurationAndIdentificationAreConstant : Obligations.ConfigurationAndIdentificationAreConstant := by
  intro s t h
  have m := sameModule_durable.step h
  exact ⟨m.cfg, m.idHi, m.idLo⟩

/-! ### The status word and its decoding -/

/-- DECODE_STATUS names bit 14 down to bit 0 of its word (R260). -/
theorem statusFlags_eq_bits (w : Half) :
    statusFlags w =
      { mdatParityError := w.getLsbD 14, mdatBuffer0_1 := w.getLsbD 13, fifoUnderflow := w.getLsbD 12,
        fifoOverflow := w.getLsbD 11, fifoFull := w.getLsbD 10, fifoThreshold := w.getLsbD 9,
        fifoEmpty := w.getLsbD 8, tclkParityError := w.getLsbD 7, mdatBuffer1Enabled := w.getLsbD 6,
        mdatBuffer0Enabled := w.getLsbD 5, mdatAutoBufferEnabled := w.getLsbD 4, mdatEnabled := w.getLsbD 3,
        tclkEnabled := w.getLsbD 2, mdatPresent := w.getLsbD 1, tclkPresent := w.getLsbD 0 } := by
  have bit {n : Nat} (hn : n < 16) : w.getLsbD n = (w &&& BitVec.twoPow 16 n != 0) := (and_twoPow_ne_zero w hn).symm
  simp only [bit, Nat.reduceLT]
  rfl

theorem fifoIsFull_eq_decide (depth : Nat) (hw : Hw) : fifoIsFull depth hw = decide (hw.fifo.length = depth) := rfl

theorem fifoIsEmpty_eq_decide (hw : Hw) : fifoIsEmpty hw = decide (hw.fifo = []) :=
  decide_eq_decide.mpr List.length_eq_zero_iff

/-- Settles O22: the decoder reads bit by bit, and each bit of the composed word is the flag that R41 puts there. -/
theorem statusWordDecodesToItsFlags : Obligations.StatusWordDecodesToItsFlags := by
  intro depth hw bit15
  constructor
  · simp only [statusFlags_eq_bits, statusWord_getLsbD, Nat.reduceLT, ← fifoIsFull_eq_decide, ← fifoIsEmpty_eq_decide]
    rfl
  · exact statusWord_getLsbD depth hw bit15 (k := 15) (by decide)

/-! ### SW_Reset -/

/-- A write transaction of the lock's holder that succeeds: its effect, its log entry, and the result (R151, R356). -/
theorem runTxn_write_ok {key : Word} {w : Window} {off : Nat} {cond : State → Option RefusalReason} {v : Half}
    {eff : State → State} {s : State} (ha : Admitted w off s) (hc : cond s = none)
    (hb : (s.env.bus.at 0).ok = true) :
    runTxn (asDone (busWrite key w off cond v eff)) s =
      .next (((eff s.nextBus).logTxn (okTxn key v)).giveReturn .done) := by
  rw [runTxn, asDone, opThen_ok (busWrite_ok (refusal_none ha hc) hb)]
  rfl

/-- The command row by itself is the control write of its word (log 15). -/
theorem exec_swReset_eq_wrCtrl (s : State) : exec .swReset s = exec (.wrCtrl 0x00FF) s := rfl

/-- R61, R196: the reset draws every field afresh, so nothing of the stored command word but its own value is left. -/
theorem controlEffect_swReset (s : State) : controlEffect 0x00FF s = softwareReset s := rfl

theorem exec_wrCtrl_swReset {s : State} (ha : Admitted .cs 0x40 s) (hb : (s.env.bus.at 0).ok = true) :
    exec (.wrCtrl 0x00FF) s =
      .next (((softwareReset s.nextBus).logTxn (okTxn 0x50000040 0x00FF)).giveReturn .done) := by
  rw [← controlEffect_swReset]
  exact runTxn_write_ok ha rfl hb

/-- Settles O34: both rows are the control write of 0x00FF, whose effect redraws the hardware but for R61's values. -/
theorem softwareResetLeavesSpecValues : Obligations.SoftwareResetLeavesSpecValues := by
  intro s ha hb i hi
  have he : exec i s = exec (.wrCtrl 0x00FF) s := by
    rcases List.mem_pair.mp hi with rfl | rfl
    · exact exec_swReset_eq_wrCtrl s
    · rfl
  rw [he, exec_wrCtrl_swReset ha hb]
  exact ⟨_, rfl, rfl, rfl, rfl, rfl, drawnFifo_length .., rfl, rfl, rfl⟩

end Sys2Proof.Machine

/-! ### The frame of one transaction (R81, R153 to R196) -/

namespace Sys2Proof.Machine

/-- A frame that admits no change and the write's effect holds of the write, done, failed or refused (R153). -/
theorem write_frame {i : Instr} {key : Word} {w : Window} {off : Nat} {cond : State → Option RefusalReason} {v : Half}
    {eff : State → State} {s t : State} (h : runTxn (asDone (busWrite key w off cond v eff)) s = .next t)
    (same : HwFrame i s.hw s.hw) (done : HwFrame i s.hw (eff s.nextBus).hw) : HwFrame i s.hw t.hw := by
  rcases write_hw h with e | ⟨e, -⟩
  · exact e ▸ same
  · exact e ▸ done

/-- The same for a read, whose failure may leave a trace of its own (R153). -/
theorem read_frame {i : Instr} {key : Word} {w : Window} {off : Nat} {cond : State → Option RefusalReason}
    {eff : State → Half × State} {trace : BusOutcome → State → State} {s t : State}
    (h : runTxn (asWord (busRead key w off cond eff trace)) s = .next t) (same : HwFrame i s.hw s.hw)
    (done : HwFrame i s.hw (eff s.nextBus).2.hw) (lost : ∀ b, HwFrame i s.hw (trace b s.nextBus).hw) :
    HwFrame i s.hw t.hw := by
  rcases read_hw h with e | e | ⟨b, e⟩
  · exact e ▸ same
  · exact e ▸ done
  · exact e ▸ lost b

/-- R81: a read without side effect. -/
theorem plainRead_hw {key : Word} {w : Window} {off : Nat} {cond : State → Option RefusalReason}
    {eff : State → Half × State} {s t : State} (h : runTxn (asWord (busRead key w off cond eff noTrace)) s = .next t)
    (he : (eff s.nextBus).2.hw = s.hw) : t.hw = s.hw := by
  rcases read_hw h with e | e | ⟨b, e⟩
  · exact e
  · exact e.trans he
  · exact e

theorem statusRead_frame (s : State) : HwFrame .rdStatus s.hw (statusRead s).2.hw := by
  unfold statusRead
  extract_lets w t
  dsimp only
  split <;> exact ⟨_, _, _, _, _, rfl⟩

theorem statusTrace_frame (b : BusOutcome) (s : State) : HwFrame .rdStatus s.hw (statusTrace b s).hw := by
  unfold statusTrace
  split
  · exact statusRead_frame s
  · exact ⟨_, _, _, _, _, rfl⟩

theorem readHigh_frame (s : State) : HwFrame .rdFifoHi s.hw (readHigh s).2.hw := by
  unfold readHigh
  split <;> exact ⟨_, _, _, rfl, .inl rfl⟩

theorem readLow_frame (s : State) : HwFrame .rdFifoLo s.hw (readLow s).2.hw := by
  unfold readLow
  split
  · rename_i r rest _ hf
    exact ⟨_, _, rfl, .inr (by rw [hf]; rfl)⟩
  · exact ⟨_, _, rfl, .inl rfl⟩
  · exact ⟨_, _, rfl, .inl rfl⟩

/-! ### The control write (R185) -/

/-- The word of a command (R104). -/
def Command.word : Command → Half
  | .noOp => 0x0000
  | .enableTclk => 0x0001
  | .disableTclk => 0x0002
  | .enableMdat => 0x0003
  | .disableMdat => 0x0004
  | .mdatBuf0 => 0x0005
  | .mdatBuf1 => 0x0006
  | .enableMdatBufAuto => 0x0007
  | .disableMdatBufAuto => 0x0008
  | .swInterrupt => 0x0009
  | .swReset => 0x00FF

/-- A row of a table read from the top: it answers, or the rows below it do. -/
theorem some_or_rest {α : Type} {p : Prop} [Decidable p] {a b : α} {rest : Option α}
    (h : (if p then some a else rest) = some b) : (p ∧ a = b) ∨ rest = some b := by
  split at h
  · exact .inl ⟨‹p›, Option.some.inj h⟩
  · exact .inr h

/-- R104: a word names a command only as that command's word. -/
theorem commandOf_some {v : Half} {c : Command} (h : commandOf v = some c) : v = c.word := by
  unfold commandOf at h
  iterate 11
    rcases some_or_rest h with ⟨hv, rfl⟩ | h
    · exact hv
  exact nomatch h

/-- Each command's own clause of the frame: its word is a literal, so the clause is found by computation. -/
theorem performCommand_frame (c : Command) (s : State) :
    CtrlFrame c.word s.hw (performCommand c (s.mapHw fun hw => { hw with ctrl := c.word })).hw := by
  refine .inr ?_
  cases c with
  | noOp | swInterrupt => exact rfl
  | enableTclk | disableTclk | enableMdat | disableMdat | enableMdatBufAuto | disableMdatBufAuto =>
    exact Exists.intro _ rfl
  | mdatBuf0 | mdatBuf1 => exact Exists.intro _ (Exists.intro _ (Exists.intro _ rfl))
  | swReset => exact And.intro rfl ⟨rfl, rfl, rfl, rfl⟩

theorem controlEffect_frame (v : Half) (s : State) : CtrlFrame v s.hw (controlEffect v s).hw := by
  unfold controlEffect
  split
  · rename_i c hc
    rw [commandOf_some hc]
    exact performCommand_frame c s
  · exact .inl rfl

theorem txnWrCtrl_frame {v : Half} {s t : State} (h : runTxn (asDone (txnWrCtrl v)) s = .next t) :
    CtrlFrame v s.hw t.hw :=
  write_frame (i := .wrCtrl v) h (.inl rfl) (controlEffect_frame v _)

/-! ### The frame of a TCLK event (R301) -/

/-- The fields a TCLK event may change. -/
def EventFrame (h h' : Hw) : Prop :=
  ∃ n q p a b, h' = { h with tsCounter := n, fifo := q, fifoPhase := p, fifoOverflow := a, fifoThreshold := b }

theorem EventFrame.refl (h : Hw) : EventFrame h h := ⟨_, _, _, _, _, rfl⟩

theorem EventFrame.trans {a b c : Hw} (x : EventFrame a b) (y : EventFrame b c) : EventFrame a c := by
  obtain ⟨_, _, _, _, _, rfl⟩ := x
  obtain ⟨_, _, _, _, _, rfl⟩ := y
  exact ⟨_, _, _, _, _, rfl⟩

theorem enqueue_frame (cfg : Config) (r : Word) (b : Bool) (h : Hw) : EventFrame h (enqueue cfg r b h) := by
  unfold enqueue
  split <;> exact ⟨_, _, _, _, _, rfl⟩

theorem resetCounter_frame (cfg : Config) (h : Hw) : EventFrame h (resetCounter cfg h) := by
  unfold resetCounter
  split <;> exact ⟨_, _, _, _, _, rfl⟩

theorem captureEvent_frame (cfg : Config) (code : Byte) (d : EventDraws) (h : Hw) :
    EventFrame h (captureEvent cfg code d h) := by
  have opt {p : Bool} {g g' : Hw} (x : EventFrame g g') : EventFrame g (if p then g' else g) := by
    split
    · exact x
    · exact .refl g
  unfold captureEvent
  exact (opt (resetCounter_frame ..)).trans ((opt (enqueue_frame ..)).trans (opt (resetCounter_frame ..)))

theorem tclkStep_frame (code : Byte) (s : State) : EventFrame s.hw (tclkStep code s).hw := by
  unfold tclkStep
  split
  · exact captureEvent_frame ..
  · exact .refl _

theorem inputStep_frame (tp mp tpe mpe : Bool) (s : State) :
    HwFrame (.evtInput tp mp tpe mpe) s.hw (inputStep tp mp tpe mpe s).hw := by
  unfold inputStep
  extract_lets t
  split <;> exact ⟨_, _, _, _, _, rfl⟩

/-! ### The lock operations (R331 to R333) -/

theorem lockTaskStep_hw (i : Nat) (s : State) : (lockTaskStep i s).hw = s.hw := by
  unfold lockTaskStep
  split
  · rfl
  · split <;> rfl

theorem lockIsrStep_hw (s : State) : (lockIsrStep s).hw = s.hw := by
  unfold lockIsrStep
  split
  · rfl
  · split <;> rfl

theorem unlockStep_hw (k : HostContext) (s : State) : (unlockStep k s).hw = s.hw := by
  unfold unlockStep
  split <;> rfl

theorem execLockTask_hw {s t : State} (h : execLockTask s = .next t) : t.hw = s.hw := by
  unfold execLockTask at h
  split at h
  · cases h; rfl
  · cases h; exact lockTaskStep_hw ..

/-! ### Registers through an operation of several transactions (log 6) -/

@[simp] theorem endTxn_hw (r : Except Stop Result × State) : (endTxn r).hw = r.2.hw := by
  match r with
  | (.ok v, t) => rfl
  | (.error (.error e), t) => rfl
  | (.error (.refused c), t) => rfl

theorem runTxn_registers {Q : Registers → Registers → Prop} {op : Op Result} {s t : State}
    (hb : OpKeeps (OnRegisters Q) op) (h : runTxn op s = .next t) : OnRegisters Q s t := by
  cases h
  simpa [OnRegisters] using hb s

section

variable {Q : Registers → Registers → Prop} (rel : RegRel Q)

include rel

theorem RegRel.asDone {m : Op Unit} (hm : OpKeeps (OnRegisters Q) m) : OpKeeps (OnRegisters Q) (asDone m) :=
  .andThen rel.steady hm fun _ => .pure rel.steady _

theorem RegRel.getTriggerBody (code b : Byte) : OpKeeps (OnRegisters Q) (getTriggerBody code b) :=
  .andThen rel.steady (.afterGap rel.steady (rel.txnRdTt code)) fun _ => .pure rel.steady _

theorem RegRel.probeBody : OpKeeps (OnRegisters Q) probeBody := by
  refine .andThen rel.steady (.afterGap rel.steady (rel.readReg _ _ _ _)) fun _ =>
    .andThen rel.steady (.afterGap rel.steady (rel.readReg _ _ _ _)) fun _ => ?_
  split
  · exact .pure rel.steady _
  · exact .error rel.steady _

theorem RegRel.readStatusBody : OpKeeps (OnRegisters Q) readStatusBody :=
  .andThen rel.steady (.afterGap rel.steady rel.txnRdStatus) fun w =>
    .andThen rel.steady (.confirm rel.steady (rel.txnWrStatus w) rel.txnRdStatus) fun _ => .pure rel.steady _

theorem RegRel.drainBody : OpKeeps (OnRegisters Q) drainBody := by
  refine .andThen rel.steady (.afterGap rel.steady rel.txnRdStatus) fun w => ?_
  split
  · exact .pure rel.steady _
  · exact .andThen rel.steady (.afterGap rel.steady rel.pairedRead) fun _ => .pure rel.steady _

theorem RegRel.confirmTt {c : Byte} (ht : ∀ r x, Q r { r with tt := ttReplace r.tt c x }) (v : Half) :
    OpKeeps (OnRegisters Q) (confirmTt c v) :=
  .confirm rel.steady (.write rel.steady fun _ => ht _ _) (rel.txnRdTt c)

theorem RegRel.setTriggerBody {code : Byte} (ht : ∀ r x, Q r { r with tt := ttReplace r.tt code x }) (b : Byte)
    (enabled : Bool) : OpKeeps (OnRegisters Q) (setTriggerBody code b enabled) :=
  .andThen rel.steady (.afterGap rel.steady (rel.txnRdTt code)) fun _ =>
    .andThen rel.steady (rel.confirmTt ht _) fun _ => .pure rel.steady _

theorem RegRel.clearEntries (ht : ∀ r c x, Q r { r with tt := ttReplace r.tt c x }) (cs : List Byte) :
    OpKeeps (OnRegisters Q) (clearEntries cs) := by
  induction cs with
  | nil => exact .pure rel.steady _
  | cons c cs ih => exact .andThen rel.steady (rel.confirmTt (fun r => ht r c) _) fun _ => ih

theorem RegRel.confirmWrtrig (hw : ∀ r x, Q r { r with wrTrigSel := x }) (v : Byte) :
    OpKeeps (OnRegisters Q) (confirmWrtrig v) :=
  .confirm rel.steady (.write rel.steady fun _ => hw _ v) (rel.readReg _ _ _ _)

theorem RegRel.confirmClrtrig (hc : ∀ r x, Q r { r with clrTrigSel := x }) (v : Byte) :
    OpKeeps (OnRegisters Q) (confirmClrtrig v) :=
  .confirm rel.steady (.write rel.steady fun _ => hc _ v) (rel.readReg _ _ _ _)

theorem RegRel.setResetTimestampBody (hc : ∀ r x, Q r { r with clrTrigSel := x }) (t : Byte) :
    OpKeeps (OnRegisters Q) (setResetTimestampBody t) := fun s => rel.asDone (rel.confirmClrtrig hc _) s

theorem RegRel.setWriteTriggerBody (hw : ∀ r x, Q r { r with wrTrigSel := x }) (t : Byte) :
    OpKeeps (OnRegisters Q) (setWriteTriggerBody t) := fun s => rel.asDone (rel.confirmWrtrig hw _) s

theorem RegRel.configureBody (hw : ∀ r x, Q r { r with wrTrigSel := x }) (hc : ∀ r x, Q r { r with clrTrigSel := x })
    (ht : ∀ r c x, Q r { r with tt := ttReplace r.tt c x }) : OpKeeps (OnRegisters Q) configureBody :=
  .andThen rel.steady (rel.confirmWrtrig hw _) fun _ =>
    .andThen rel.steady (rel.confirmClrtrig hc _) fun _ => rel.clearEntries ht _

theorem RegRel.setFifoThresholdBody (ht : ∀ r x, Q r { r with threshold := x }) (level : Byte) :
    OpKeeps (OnRegisters Q) (setFifoThresholdBody level) :=
  rel.asDone (.confirm rel.steady (.write rel.steady fun _ => ht _ (byteValue level)) (rel.readReg _ _ _ _))

/-- R238, R240: EnableTCLK, or a draw of the enable where it failed. -/
theorem RegRel.startBody (hs : ∀ r x b, Q r { r with ctrl := x, tclkEnabled := b }) :
    OpKeeps (OnRegisters Q) startBody :=
  .start rel.steady
    (.confirm rel.steady (.write rel.steady fun _ => hs _ 0x0001 true) (rel.readReg _ _ _ _))
    fun s => hs _ s.hw.ctrl (s.env.draws.bool 0)

end

/-! ### What the operations change of the registers (R203 to R205, R236, R238, R263 to R265) -/

/-- `b` is `a` but for the fields that `pick` takes from its first argument. -/
def ChangesOnly (pick : Registers → Registers → Registers) (a b : Registers) : Prop := b = pick b a

theorem RegRel.changesOnly {pick : Registers → Registers → Registers} (same : ∀ r, pick r r = r)
    (last : ∀ a b c, pick c (pick b a) = pick c a) : RegRel (ChangesOnly pick) where
  refl r := (same r).symm
  trans a b c x y := y.trans ((congrArg (pick c) x).trans (last a b c))

theorem tableOnly : RegRel (ChangesOnly fun b a => { a with tt := b.tt }) :=
  .changesOnly (fun _ => rfl) fun _ _ _ => rfl

theorem clearSelectorOnly : RegRel (ChangesOnly fun b a => { a with clrTrigSel := b.clrTrigSel }) :=
  .changesOnly (fun _ => rfl) fun _ _ _ => rfl

theorem writeSelectorOnly : RegRel (ChangesOnly fun b a => { a with wrTrigSel := b.wrTrigSel }) :=
  .changesOnly (fun _ => rfl) fun _ _ _ => rfl

theorem selectorsAndTableOnly :
    RegRel (ChangesOnly fun b a => { a with wrTrigSel := b.wrTrigSel, clrTrigSel := b.clrTrigSel, tt := b.tt }) :=
  .changesOnly (fun _ => rfl) fun _ _ _ => rfl

theorem thresholdOnly : RegRel (ChangesOnly fun b a => { a with threshold := b.threshold }) :=
  .changesOnly (fun _ => rfl) fun _ _ _ => rfl

theorem controlAndTclkOnly : RegRel (ChangesOnly fun b a => { a with ctrl := b.ctrl, tclkEnabled := b.tclkEnabled }) :=
  .changesOnly (fun _ => rfl) fun _ _ _ => rfl

/-- Of the registers the table alone changes, and of the table the entry `code` alone (R203). -/
def EntryOnly (code : Byte) (a b : Registers) : Prop :=
  ChangesOnly (fun b a => { a with tt := b.tt }) a b ∧ ∀ c, c ≠ code → ttEntry b.tt c = ttEntry a.tt c

theorem entryOnly (code : Byte) : RegRel (EntryOnly code) where
  refl _ := ⟨rfl, fun _ _ => rfl⟩
  trans _ _ _ := fun ⟨x, xe⟩ ⟨y, ye⟩ => ⟨tableOnly.trans _ _ _ x y, fun c hc => (ye c hc).trans (xe c hc)⟩

theorem execRdFifo32_registers {s t : State} (h : execRdFifo32 s = .next t) : t.hw.registers = s.hw.registers := by
  have st := sameRegisters.steady
  exact runTxn_registers (Q := fun a b => b = a) (.andThen st sameRegisters.pairedRead fun _ => .pure st _) h

/-- Settles O37: one transaction leaves the hardware as it was, with its effect or with a failure's trace; an operation
of several keeps every relation between registers that its own writes keep, for no agent writes one. -/
theorem instructionsChangeOnlyWhatTheirRuleNames : Obligations.InstructionsChangeOnlyWhatTheirRuleNames := by
  intro i s t h
  cases i with
  | rdCtrl | rdMdatItype | rdMdatBufsw | rdW44 | rdTsrstLo | rdTsrstHi | rdWrtrig | rdClrtrig | rdW4a | rdThresh
  | rdIdHi | rdIdLo => exact plainRead_hw h rfl
  | rdTt c => exact plainRead_hw h (by split <;> rfl)
  | wrCtrl | noOp | enableTclk | disableTclk | enableMdat | disableMdat | mdatBuf0 | mdatBuf1 | enableMdatBufAuto
  | disableMdatBufAuto | swInterrupt | swReset => exact txnWrCtrl_frame h
  | rdStatus =>
    exact read_frame h ⟨_, _, _, _, _, rfl⟩ (statusRead_frame s.nextBus) fun b => statusTrace_frame b s.nextBus
  | wrStatus v => exact write_frame h ⟨_, _, _, _, _, rfl⟩ ⟨_, _, _, _, _, rfl⟩
  | wrMdatItype v =>
    exact write_frame h ⟨_, _, _, _, _, _, _, rfl, fun _ _ => rfl, fun _ => nofun⟩
      ⟨_, _, _, _, _, _, _, rfl, fun _ _ => rfl, fun _ => nofun⟩
  | wrMdatBufsw v =>
    exact write_frame h ⟨_, _, _, _, _, _, _, rfl, fun _ => nofun, fun _ _ => rfl⟩
      ⟨_, _, _, _, _, _, _, rfl, fun _ => nofun, fun _ _ => rfl⟩
  | wrW44 v =>
    exact write_frame h ⟨_, _, _, _, _, _, _, rfl, fun _ => nofun, fun _ => nofun⟩
      ⟨_, _, _, _, _, _, _, rfl, fun _ => nofun, fun _ => nofun⟩
  | wrTsrstLo | wrTsrstHi | wrW4a | wrThresh => exact write_frame h ⟨_, _, rfl⟩ ⟨_, _, rfl⟩
  | wrWrtrig | wrClrtrig => exact write_frame h ⟨_, rfl⟩ ⟨_, rfl⟩
  | wrTt c v => exact write_frame h ⟨_, rfl, fun _ _ => rfl⟩ ⟨_, rfl, ttReplace_other _ _ _⟩
  | rdFifoHi =>
    exact read_frame h ⟨_, _, _, rfl, .inl rfl⟩ (readHigh_frame s.nextBus) fun b => ⟨_, _, _, rfl, lossyFifo_cases b _⟩
  | rdFifoLo =>
    exact read_frame h ⟨_, _, rfl, .inl rfl⟩ (readLow_frame s.nextBus) fun b => ⟨_, _, rfl, lossyFifo_cases b _⟩
  | rdFifo32 => exact execRdFifo32_registers h
  | recEmpty | recEvent | decodeRec | encodeRec | validRec | decodeStatus => cases h; exact rfl
  | setTrigger code b e =>
    have rel := entryOnly code
    exact rel.hostCall (rel.setTriggerBody (fun r x => ⟨rfl, ttReplace_other r.tt code x⟩) b e) h
  | getTrigger code b => exact sameRegisters.hostCall (sameRegisters.getTriggerBody code b) h
  | clearTriggerTable => exact tableOnly.subStep (tableOnly.clearEntries (fun _ _ _ => rfl) _) h
  | construct | resetModule =>
    have m := sameModule_durable.exec h
    exact ⟨m.idHi, m.idLo⟩
  | probe => exact sameRegisters.subStep sameRegisters.probeBody h
  | configureTriggers =>
    have rel := selectorsAndTableOnly
    exact ⟨_, _, rel.subStep (rel.configureBody (fun _ _ => rfl) (fun _ _ => rfl) fun _ _ _ => rfl) h⟩
  | startCollecting => exact ⟨_, _, controlAndTclkOnly.subStep (controlAndTclkOnly.startBody fun _ _ _ => rfl) h⟩
  | setResetTimestampTrigger n =>
    exact ⟨_, clearSelectorOnly.hostCall (clearSelectorOnly.setResetTimestampBody (fun _ _ => rfl) n) h⟩
  | setWriteTrigger n =>
    exact ⟨_, writeSelectorOnly.hostCall (writeSelectorOnly.setWriteTriggerBody (fun _ _ => rfl) n) h⟩
  | setFifoThreshold level =>
    exact ⟨_, thresholdOnly.hostCall (thresholdOnly.setFifoThresholdBody (fun _ _ => rfl) level) h⟩
  | readStatus => exact sameRegisters.hostCall sameRegisters.readStatusBody h
  | drainOneEvent => exact sameRegisters.hostCall sameRegisters.drainBody h
  | lockTask => exact execLockTask_hw h
  | lockIsr => cases h; exact lockIsrStep_hw s
  | unlock => cases h; exact unlockStep_hw _ s
  | evtTclk code => cases h; exact tclkStep_frame code s
  | evtTick => cases h; exact rfl
  | evtInput tp mp tpe mpe => cases h; exact inputStep_frame tp mp tpe mpe s

end Sys2Proof.Machine

/-! ### The decoder and the encoder (R101 to R117) -/

namespace Sys2Proof

/-! ### The layout of a code word (log 14) -/

/-- No bit from `lo` upwards is set where the field up to the word's end is zero. -/
theorem shift_eq_zero_iff {x : CodeWord} {lo : Nat} : x >>> lo = 0 ↔ bitsAt x lo (48 - lo) = 0 := by
  constructor
  · intro h
    exact BitVec.setWidth_ushiftRight_eq_extractLsb.symm.trans (h ▸ BitVec.setWidth_zero _ _)
  · intro h
    refine BitVec.eq_of_getLsbD_eq fun i _ => ?_
    rw [BitVec.getLsbD_ushiftRight]
    by_cases hi : lo + i < 48
    · simpa [show i < 48 - lo by omega] using congrArg (fun y => y.getLsbD i) h
    · simp [BitVec.getLsbD_of_ge x (lo + i) (by omega)]

theorem ifClear_of_zero {x : CodeWord} {lo : Nat} (h : bitsAt x lo (48 - lo) = 0) (i : Instr) :
    ifClear x lo i = .ok i := by
  rw [ifClear, if_pos (shift_eq_zero_iff.mpr h)]

/-- A word is two words side by side where its upper and its lower field are those. -/
theorem append_eq_iff (m w : Nat) {y : BitVec (m + w)} {a : BitVec m} {b : BitVec w} :
    a ++ b = y ↔ y.extractLsb' w m = a ∧ y.extractLsb' 0 w = b := by
  constructor
  · rintro rfl
    exact ⟨BitVec.extractLsb'_append_eq_left, BitVec.extractLsb'_append_eq_right⟩
  · rintro ⟨rfl, rfl⟩
    exact BitVec.extractLsb'_append_extractLsb'

theorem bitsAt_bitsAt (x : CodeWord) (lo len start w : Nat) (h : start + w ≤ len) :
    (bitsAt x lo len).extractLsb' start w = bitsAt x (lo + start) w := by
  refine BitVec.eq_of_getLsbD_eq fun i hi => ?_
  simp [hi, show start + i < len by omega, Nat.add_assoc]

/-- The same of a field of a code word. -/
theorem bitsAt_eq_append (lo m w : Nat) {x : CodeWord} {a : BitVec m} {b : BitVec w} :
    bitsAt x lo (m + w) = a ++ b ↔ bitsAt x (lo + w) m = a ∧ bitsAt x lo w = b := by
  rw [eq_comm, append_eq_iff, bitsAt_bitsAt _ _ _ _ _ (by omega), bitsAt_bitsAt _ _ _ _ _ (by omega), Nat.add_zero]

theorem bit_eq_iff {x : CodeWord} {i : Nat} {b : Bool} : bitsAt x i 1 = BitVec.ofBool b ↔ x.getLsbD i = b := by
  rw [BitVec.getLsbD_eq_extractLsb']
  rcases BitVec.eq_zero_or_eq_one (bitsAt x i 1) with h | h <;> cases b <;> simp [h]

/-! The words of the operations and of the agents' steps, one lemma per shape of the operands. -/

section Layouts

variable {n : Byte} {x : CodeWord}

theorem numWord_eq_iff {y : BitVec 40} : numWord n y = x ↔ bitsAt x 8 40 = y ∧ bitsAt x 0 8 = n :=
  append_eq_iff 40 8

theorem numWord_byte {a : Byte} : numWord n ((0 : BitVec 32) ++ a) = x ↔
    (bitsAt x 16 32 = 0 ∧ bitsAt x 8 8 = a) ∧ bitsAt x 0 8 = n :=
  numWord_eq_iff.trans (and_congr_left' (bitsAt_eq_append 8 32 8))

theorem numWord_half {a : Half} : numWord n ((0 : BitVec 24) ++ a) = x ↔
    (bitsAt x 24 24 = 0 ∧ bitsAt x 8 16 = a) ∧ bitsAt x 0 8 = n :=
  numWord_eq_iff.trans (and_congr_left' (bitsAt_eq_append 8 24 16))

theorem numWord_word {a : Word} : numWord n ((0 : BitVec 8) ++ a) = x ↔
    (bitsAt x 40 8 = 0 ∧ bitsAt x 8 32 = a) ∧ bitsAt x 0 8 = n :=
  numWord_eq_iff.trans (and_congr_left' (bitsAt_eq_append 8 8 32))

theorem numWord_bytes {a b : Byte} : numWord n ((0 : BitVec 24) ++ b ++ a) = x ↔
    ((bitsAt x 24 24 = 0 ∧ bitsAt x 16 8 = b) ∧ bitsAt x 8 8 = a) ∧ bitsAt x 0 8 = n :=
  numWord_eq_iff.trans (and_congr_left' ((bitsAt_eq_append 8 32 8).trans (and_congr_left' (bitsAt_eq_append 16 24 8))))

theorem numWord_record {ts : Stamp} {a : Byte} : numWord n ((0 : BitVec 8) ++ ts ++ a) = x ↔
    ((bitsAt x 40 8 = 0 ∧ bitsAt x 16 24 = ts) ∧ bitsAt x 8 8 = a) ∧ bitsAt x 0 8 = n :=
  numWord_eq_iff.trans (and_congr_left' ((bitsAt_eq_append 8 32 8).trans (and_congr_left' (bitsAt_eq_append 16 8 24))))

theorem numWord_trigger {a b : Byte} {e : Bool} : numWord n ((0 : BitVec 23) ++ BitVec.ofBool e ++ b ++ a) = x ↔
    (((bitsAt x 25 23 = 0 ∧ x.getLsbD 24 = e) ∧ bitsAt x 16 8 = b) ∧ bitsAt x 8 8 = a) ∧ bitsAt x 0 8 = n := by
  rw [← bit_eq_iff]
  exact numWord_eq_iff.trans (and_congr_left' ((bitsAt_eq_append 8 32 8).trans (and_congr_left'
    ((bitsAt_eq_append 16 24 8).trans (and_congr_left' (bitsAt_eq_append 24 23 1))))))

theorem numWord_inputs {a b c d : Bool} :
    numWord n ((0 : BitVec 36) ++ BitVec.ofBool d ++ BitVec.ofBool c ++ BitVec.ofBool b ++ BitVec.ofBool a) = x ↔
    ((((bitsAt x 12 36 = 0 ∧ x.getLsbD 11 = d) ∧ x.getLsbD 10 = c) ∧ x.getLsbD 9 = b) ∧ x.getLsbD 8 = a) ∧
      bitsAt x 0 8 = n := by
  simp only [← bit_eq_iff]
  exact numWord_eq_iff.trans (and_congr_left' ((bitsAt_eq_append 8 39 1).trans (and_congr_left'
    ((bitsAt_eq_append 9 38 1).trans (and_congr_left' ((bitsAt_eq_append 10 37 1).trans (and_congr_left'
      (bitsAt_eq_append 11 36 1))))))))

end Layouts

/-! ### Keys of the trigger table and record words (R103, R201) -/

/-- A literal is the key of an entry where its fixed bits and its code are the key's. -/
theorem ttKey_eq_iff {base : BitVec 23} {c : Byte} {k : Word} :
    ttKey base c = k ↔ k &&& 0xFFFFFE01 = base ++ (0 : BitVec 9) ∧ k.extractLsb' 1 8 = c := by
  constructor
  · rintro rfl
    exact ⟨ttKey_bits base c, ttKey_code base c⟩
  · rintro ⟨hb, rfl⟩
    exact (eq_ttKey hb).symm

/-- The fixed bits of an entry's key, with the mask as `simp` writes it. -/
theorem ttKey_masked (base : BitVec 23) (c : Byte) : ttKey base c &&& 4294966785#32 = base ++ 0#9 := ttKey_bits base c

theorem keyWord_code (base : BitVec 23) (c : Byte) : bitsAt (keyWord (ttKey base c)) 1 8 = c := by
  rw [bitsAt_key _ 1 8 (by decide), keyWord_key, ttKey_code]

theorem keyWord16_code (base : BitVec 23) (c : Byte) (v : Half) : bitsAt (keyWord16 (ttKey base c) v) 1 8 = c := by
  rw [bitsAt_key _ 1 8 (by decide), keyWord16_key, ttKey_code]

theorem recordWord_eq_iff {ts : Stamp} {code : Byte} {raw : Word} :
    recordWord ts code = raw ↔ raw.extractLsb' 8 24 = ts ∧ raw.extractLsb' 0 8 = code := append_eq_iff 24 8

/-- R117: the sentinel first, then every other word. -/
theorem decodeRecordWord_keyWord (raw : Word) :
    decodeRecordWord (keyWord raw) =
      .ok (if raw = Config.sentinel then .recEmpty else .recEvent (raw.extractLsb' 8 24) (raw.extractLsb' 0 8)) := by
  simp only [decodeRecordWord, bitsAt_key (keyWord raw) 8 24 (by decide), bitsAt_key (keyWord raw) 0 8 (by decide),
    keyWord_key, ifClear_keyWord]
  split <;> rfl

/-! ### Decoding an encoding (R101 to R104, R113, R114) -/

/-- Settles O1: the fields of the encoding are its key, command word or number, zeros above the operands, and the
operands, so the decoder's chain stops at the instruction's row and answers it. For the words with a number these fields
are facts about a word `x` that the layout lemmas give. -/
theorem decodeInvertsEncode : Obligations.DecodeInvertsEncode := by
  intro i hw
  obtain ⟨x, hx⟩ : ∃ x, (encode i).2 = x := ⟨_, rfl⟩
  rw [hx]
  cases i with
  | rdTt c => simp [← hx, decode, encode, decodeTxn, ttKey_eq_iff, keyWord_code, ttKey_masked]
  | wrTt c v => simp [← hx, decode, encode, decodeTxn, ttKey_eq_iff, keyWord16_code, ttKey_masked]
  | rdCtrl | wrCtrl | rdStatus | wrStatus | rdMdatItype | wrMdatItype | rdMdatBufsw | wrMdatBufsw | rdW44 | wrW44
  | rdTsrstLo | wrTsrstLo | rdTsrstHi | wrTsrstHi | rdWrtrig | wrWrtrig | rdClrtrig | wrClrtrig | rdW4a | wrW4a
  | rdThresh | wrThresh | rdIdHi | rdIdLo | rdFifoHi | rdFifoLo | rdFifo32 =>
    simp [← hx, decode, encode, decodeTxn]
  | noOp | enableTclk | disableTclk | enableMdat | disableMdat | mdatBuf0 | mdatBuf1 | enableMdatBufAuto
  | disableMdatBufAuto | swInterrupt | swReset => simp [← hx, decode, encode, decodeCmd]
  | recEmpty => exact hx ▸ decodeRecordWord_keyWord _
  | recEvent ts code =>
    obtain ⟨hts, hcode⟩ := recordWord_eq_iff.mp (Eq.refl (recordWord ts code))
    refine hx ▸ (decodeRecordWord_keyWord _).trans ?_
    rw [if_neg (by simpa [WellFormed] using hw), hts, hcode]
  | decodeRec | validRec =>
    obtain ⟨⟨hc, ha⟩, hn⟩ := numWord_word.mp hx
    simp [decode, encode, decodeApi, ifClear_of_zero, hc, ha, hn]
  | encodeRec =>
    obtain ⟨⟨⟨hc, hts⟩, hcode⟩, hn⟩ := numWord_record.mp hx
    simp [decode, encode, decodeApi, ifClear_of_zero, hc, hts, hcode, hn]
  | setTrigger =>
    obtain ⟨⟨⟨⟨hc, he⟩, hb⟩, ha⟩, hn⟩ := numWord_trigger.mp hx
    simp only [decode, encode, decodeApi, hn, ha, hb, he]
    simp [ifClear_of_zero, hc]
  | getTrigger =>
    obtain ⟨⟨⟨hc, hb⟩, ha⟩, hn⟩ := numWord_bytes.mp hx
    simp [decode, encode, decodeApi, ifClear_of_zero, hc, hb, ha, hn]
  | clearTriggerTable | construct | probe | resetModule | configureTriggers | startCollecting | readStatus
  | drainOneEvent | lockTask | lockIsr | unlock =>
    obtain ⟨hc, hn⟩ := numWord_eq_iff.mp hx
    simp [decode, encode, decodeApi, ifClear_of_zero, hc, hn]
  | setResetTimestampTrigger | setWriteTrigger | setFifoThreshold =>
    obtain ⟨⟨hc, ha⟩, hn⟩ := numWord_byte.mp hx
    simp [decode, encode, decodeApi, ifClear_of_zero, hc, ha, hn]
  | decodeStatus =>
    obtain ⟨⟨hc, ha⟩, hn⟩ := numWord_half.mp hx
    simp [decode, encode, decodeApi, ifClear_of_zero, hc, ha, hn]
  | evtTclk =>
    obtain ⟨⟨hc, ha⟩, hn⟩ := numWord_byte.mp hx
    simp [decode, encode, decodeAgent, ifClear_of_zero, hc, ha, hn]
  | evtTick =>
    obtain ⟨hc, hn⟩ := numWord_eq_iff.mp hx
    simp [decode, encode, decodeAgent, ifClear_of_zero, hc, hn]
  | evtInput =>
    obtain ⟨⟨⟨⟨⟨hc, hmpe⟩, htpe⟩, hmp⟩, htp⟩, hn⟩ := numWord_inputs.mp hx
    simp only [decode, encode, decodeAgent, hn, hmpe, htpe, hmp, htp]
    simp [ifClear_of_zero, hc]

/-! ### What an accepted word says (R115) -/

/-- Whatever instruction `r` answers for the word `x` of format `f` is well-formed and encoded as that word. -/
def ReadsBack (f : Format) (x : CodeWord) (r : Except Reject Instr) : Prop :=
  ∀ i, r = .ok i → WellFormed i = true ∧ encode i = (f, x)

namespace ReadsBack

variable {f : Format} {x : CodeWord}

theorem error (r : Reject) : ReadsBack f x (.error r) := nofun

theorem ok {i : Instr} (hw : WellFormed i = true) (he : encode i = (f, x)) : ReadsBack f x (.ok i) := by
  rintro _ ⟨⟩
  exact ⟨hw, he⟩

/-- One row of a decoder's chain. -/
theorem row {c : Prop} [Decidable c] {a b : Except Reject Instr} (ha : c → ReadsBack f x a) (hb : ReadsBack f x b) :
    ReadsBack f x (if c then a else b) := by
  split
  · exact ha ‹c›
  · exact hb

/-- A row whose operands end below bit `lo`. -/
theorem clear {i : Instr} {lo : Nat} (hw : WellFormed i = true) (he : bitsAt x lo (48 - lo) = 0 → encode i = (f, x)) :
    ReadsBack f x (ifClear x lo i) := by
  intro j hj
  obtain ⟨hc, rfl⟩ := ifClear_ok hj
  exact ⟨hw, he (shift_eq_zero_iff.mp hc)⟩

end ReadsBack

/-! One lemma per shape of a row: its fixed field is the row's, and the rest of the word is its operand or zero. -/

section Rows

variable {x : CodeWord}

/-- A read row: the key alone (R102). -/
theorem readsBack_read {i : Instr} {key : Word} (hw : WellFormed i = true) (he : encode i = (.txn, keyWord key))
    (hk : bitsAt x 0 32 = key) : ReadsBack .txn x (ifClear x 32 i) :=
  .clear hw fun hc => by rw [he, ← hk, ← eq_keyWord (shift_eq_zero_iff.mpr hc)]

/-- A row that writes a byte. -/
theorem readsBack_write8 {i : Instr} {key : Word} (hw : WellFormed i = true)
    (he : encode i = (.txn, keyWord8 key (bitsAt x 32 8))) (hk : bitsAt x 0 32 = key) :
    ReadsBack .txn x (ifClear x 40 i) :=
  .clear hw fun hc => by rw [he, ← hk, ← eq_keyWord8 (shift_eq_zero_iff.mpr hc)]

/-- A row that writes a bus word: no bit is left over. -/
theorem readsBack_write16 {i : Instr} {key : Word} (hw : WellFormed i = true)
    (he : encode i = (.txn, keyWord16 key (bitsAt x 32 16))) (hk : bitsAt x 0 32 = key) :
    ReadsBack .txn x (.ok i) :=
  .ok hw (by rw [he, ← hk, ← eq_keyWord16])

theorem readsBack_command {i : Instr} {word : Half} (hw : WellFormed i = true) (he : encode i = (.cmd, cmdWord word))
    (hk : bitsAt x 0 16 = word) : ReadsBack .cmd x (ifClear x 16 i) :=
  .clear hw fun hc => by rw [he, ← hk, ← eq_cmdWord (shift_eq_zero_iff.mpr hc)]

/-- An operation without operands. -/
theorem readsBack_bare {f : Format} {i : Instr} {n : Byte} (hw : WellFormed i = true) (he : encode i = (f, numWord n 0))
    (hn : bitsAt x 0 8 = n) : ReadsBack f x (ifClear x 8 i) :=
  .clear hw fun hc => he.trans (congrArg (Prod.mk f) (numWord_eq_iff.mpr ⟨hc, hn⟩))

theorem readsBack_byte {f : Format} {i : Instr} {n : Byte} (hw : WellFormed i = true)
    (he : encode i = (f, numWord n ((0 : BitVec 32) ++ bitsAt x 8 8))) (hn : bitsAt x 0 8 = n) :
    ReadsBack f x (ifClear x 16 i) :=
  .clear hw fun hc => he.trans (congrArg (Prod.mk f) (numWord_byte.mpr ⟨⟨hc, rfl⟩, hn⟩))

theorem readsBack_word {i : Instr} {n : Byte} (hw : WellFormed i = true)
    (he : encode i = (.api, numWord n ((0 : BitVec 8) ++ bitsAt x 8 32))) (hn : bitsAt x 0 8 = n) :
    ReadsBack .api x (ifClear x 40 i) :=
  .clear hw fun hc => he.trans (congrArg (Prod.mk _) (numWord_word.mpr ⟨⟨hc, rfl⟩, hn⟩))

end Rows

/-- The key of a table entry from its fixed bits and its code, a field of the word. -/
theorem key_of_masked {x : CodeWord} {base : BitVec 23} (h : bitsAt x 0 32 &&& 0xFFFFFE01 = base ++ (0 : BitVec 9)) :
    bitsAt x 0 32 = ttKey base (bitsAt x 1 8) := by
  rw [bitsAt_key x 1 8 (by decide)]
  exact eq_ttKey h

/-- R102 in the decoder's order: the rows of the control/status window, the trigger table, the FIFO. -/
theorem decodeTxn_readsBack (x : CodeWord) : ReadsBack .txn x (decodeTxn x) := by
  unfold decodeTxn
  exact
    .row (readsBack_read rfl rfl) <| .row (readsBack_write16 rfl rfl) <|
    .row (readsBack_read rfl rfl) <| .row (readsBack_write16 rfl rfl) <|
    .row (readsBack_read rfl rfl) <| .row (readsBack_write8 rfl rfl) <|
    .row (readsBack_read rfl rfl) <| .row (readsBack_write8 rfl rfl) <|
    .row (readsBack_read rfl rfl) <| .row (readsBack_write16 rfl rfl) <|
    .row (readsBack_read rfl rfl) <| .row (readsBack_write16 rfl rfl) <|
    .row (readsBack_read rfl rfl) <| .row (readsBack_write16 rfl rfl) <|
    .row (readsBack_read rfl rfl) <| .row (readsBack_write8 rfl rfl) <|
    .row (readsBack_read rfl rfl) <| .row (readsBack_write8 rfl rfl) <|
    .row (readsBack_read rfl rfl) <| .row (readsBack_write16 rfl rfl) <|
    .row (readsBack_read rfl rfl) <| .row (readsBack_write16 rfl rfl) <|
    .row (readsBack_read rfl rfl) <| .row (readsBack_read rfl rfl) <|
    .row (fun hk => readsBack_read rfl rfl (key_of_masked hk)) <|
    .row (fun hk => readsBack_write16 rfl rfl (key_of_masked hk)) <|
    .row (readsBack_read rfl rfl) <| .row (readsBack_read rfl rfl) <| .row (readsBack_read rfl rfl) <|
    .error _

theorem decodeCmd_readsBack (x : CodeWord) : ReadsBack .cmd x (decodeCmd x) := by
  unfold decodeCmd
  iterate 11 refine .row (readsBack_command rfl rfl) ?_
  exact .error _

/-- R117: the sentinel's row has no operand, the other row's two fields make up its word. -/
theorem decodeRecordWord_readsBack (x : CodeWord) : ReadsBack .record x (decodeRecordWord x) := by
  have word (hc : bitsAt x 32 16 = 0) : keyWord (bitsAt x 0 32) = x := (eq_keyWord (shift_eq_zero_iff.mpr hc)).symm
  have hr : recordWord (bitsAt x 8 24) (bitsAt x 0 8) = bitsAt x 0 32 :=
    recordWord_eq_iff.mpr ⟨(bitsAt_key x 8 24 (by decide)).symm, (bitsAt_key x 0 8 (by decide)).symm⟩
  unfold decodeRecordWord
  split
  · rename_i hs
    exact .clear rfl fun hc => congrArg (Prod.mk _) (show keyWord Config.sentinel = x from hs ▸ word hc)
  · rename_i hs
    exact .clear (by simpa [WellFormed, hr] using hs) fun hc => congrArg (Prod.mk _) (hr.symm ▸ word hc)

/-- R113 in the decoder's order: codec, trigger table, construction, selectors and status, lock. -/
theorem decodeApi_readsBack (x : CodeWord) : ReadsBack .api x (decodeApi x) := by
  unfold decodeApi
  exact
    .row (readsBack_word rfl rfl) <|
    .row (fun hn => .clear rfl fun hc => congrArg _ (numWord_record.mpr ⟨⟨⟨hc, rfl⟩, rfl⟩, hn⟩)) <|
    .row (readsBack_word rfl rfl) <|
    .row (fun hn => .clear rfl fun hc => congrArg _ (numWord_trigger.mpr ⟨⟨⟨⟨hc, rfl⟩, rfl⟩, rfl⟩, hn⟩)) <|
    .row (fun hn => .clear rfl fun hc => congrArg _ (numWord_bytes.mpr ⟨⟨⟨hc, rfl⟩, rfl⟩, hn⟩)) <|
    .row (readsBack_bare rfl rfl) <|
    .row (readsBack_bare rfl rfl) <| .row (readsBack_bare rfl rfl) <| .row (readsBack_bare rfl rfl) <|
    .row (readsBack_bare rfl rfl) <| .row (readsBack_bare rfl rfl) <|
    .row (readsBack_byte rfl rfl) <| .row (readsBack_byte rfl rfl) <| .row (readsBack_byte rfl rfl) <|
    .row (readsBack_bare rfl rfl) <| .row (readsBack_bare rfl rfl) <|
    .row (fun hn => .clear rfl fun hc => congrArg _ (numWord_half.mpr ⟨⟨hc, rfl⟩, hn⟩)) <|
    .row (readsBack_bare rfl rfl) <| .row (readsBack_bare rfl rfl) <| .row (readsBack_bare rfl rfl) <|
    .error _

theorem decodeAgent_readsBack (x : CodeWord) : ReadsBack .agent x (decodeAgent x) := by
  unfold decodeAgent
  exact
    .row (readsBack_byte rfl rfl) <|
    .row (readsBack_bare rfl rfl) <|
    .row (fun hn => .clear rfl fun hc =>
      congrArg _ (numWord_inputs.mpr ⟨⟨⟨⟨⟨hc, rfl⟩, rfl⟩, rfl⟩, rfl⟩, hn⟩)) <|
    .error _

/-- Settles O2: every row of each format's chain reads back. -/
theorem encodeInvertsDecode : Obligations.EncodeInvertsDecode := by
  intro f x i h
  cases f with
  | txn => exact decodeTxn_readsBack x i h
  | cmd => exact decodeCmd_readsBack x i h
  | record => exact decodeRecordWord_readsBack x i h
  | api => exact decodeApi_readsBack x i h
  | agent => exact decodeAgent_readsBack x i h

/-! ### Reserved words (R104, R105, R115) -/

/-- The command words of R104. -/
abbrev IsCommandWord (v : Half) : Prop := v ≤ 0x0009 ∨ v = 0x00FF

theorem commandWord_cases {v : Half} (h : v ≤ 0x0009 ∨ v = 0x00FF) :
    v = 0 ∨ v = 1 ∨ v = 2 ∨ v = 3 ∨ v = 4 ∨ v = 5 ∨ v = 6 ∨ v = 7 ∨ v = 8 ∨ v = 9 ∨ v = 0x00FF := by
  bv_omega

/-- Every word of R104 is the encoding of its command. -/
theorem exists_encode_eq_cmdWord {v : Half} (h : IsCommandWord v) :
    ∃ i, WellFormed i = true ∧ encode i = (.cmd, cmdWord v) := by
  rcases commandWord_cases h with rfl | rfl | rfl | rfl | rfl | rfl | rfl | rfl | rfl | rfl | rfl
  · exact ⟨.noOp, rfl, rfl⟩
  · exact ⟨.enableTclk, rfl, rfl⟩
  · exact ⟨.disableTclk, rfl, rfl⟩
  · exact ⟨.enableMdat, rfl, rfl⟩
  · exact ⟨.disableMdat, rfl, rfl⟩
  · exact ⟨.mdatBuf0, rfl, rfl⟩
  · exact ⟨.mdatBuf1, rfl, rfl⟩
  · exact ⟨.enableMdatBufAuto, rfl, rfl⟩
  · exact ⟨.disableMdatBufAuto, rfl, rfl⟩
  · exact ⟨.swInterrupt, rfl, rfl⟩
  · exact ⟨.swReset, rfl, rfl⟩

theorem decode_commandWord {v : Half} (h : IsCommandWord v) : ∃ i, decode .cmd (cmdWord v) = .ok i := by
  obtain ⟨i, hw, he⟩ := exists_encode_eq_cmdWord h
  exact ⟨i, by simpa [he] using decodeInvertsEncode i hw⟩

/-- R105: a word of no command passes every row of the chain. -/
theorem decode_reservedCommand {v : Half} (h : ¬ IsCommandWord v) :
    decode .cmd (cmdWord v) = .error .reservedCommand := by
  have row (k : Half) (hk : IsCommandWord k) : (v = k) = False := eq_false fun e => h (e ▸ hk)
  simp (disch := decide) only [decode, decodeCmd, cmdWord_word, row, if_false]

/-- What the fields of a key that names an access keep to (R101, R102, R105). -/
abbrev KeyFields (k : Word) : Prop :=
  k.extractLsb' 16 12 = 0 ∧ k.extractLsb' 28 2 ≠ 3 ∧ (k.extractLsb' 28 2 = 2 → k = 0xA0001200)

/-- The fields of a key whose table-entry bits are masked out. -/
theorem masked_fields (k : Word) : (k &&& 0xFFFFFE01).extractLsb' 16 12 = k.extractLsb' 16 12 ∧
    (k &&& 0xFFFFFE01).extractLsb' 28 2 = k.extractLsb' 28 2 := by
  rw [BitVec.extractLsb'_and, BitVec.extractLsb'_and]
  exact ⟨BitVec.and_allOnes, BitVec.and_allOnes⟩

/-- A table entry's key has its fixed bits from a 16-bit access (R101, R201). -/
theorem keyFields_of_masked {k p : Word} (h : k &&& 0xFFFFFE01 = p)
    (hp : p.extractLsb' 16 12 = 0 ∧ p.extractLsb' 28 2 = 1) : KeyFields k := by
  obtain ⟨hzero, hsize⟩ := masked_fields k
  rw [h, hp.1] at hzero
  rw [h, hp.2] at hsize
  exact ⟨hzero.symm, by simp [← hsize], by simp [← hsize]⟩

/-- A key that breaks a rule of the fields passes every row of the chain. -/
theorem decodeTxn_unmapped {x : CodeWord} (h : ¬ KeyFields (bitsAt x 0 32)) : decodeTxn x = .error .unmappedKey := by
  have row (k : Word) (hk : KeyFields k) : (bitsAt x 0 32 = k) = False := eq_false fun e => h (e ▸ hk)
  have entry (p : Word) (hp : p.extractLsb' 16 12 = 0 ∧ p.extractLsb' 28 2 = 1) :
      (bitsAt x 0 32 &&& 0xFFFFFE01 = p) = False := eq_false fun e => h (keyFields_of_masked e hp)
  simp (disch := decide) only [decodeTxn, row, entry, if_false]

/-- Settles O3: a word of no command, and a key whose fields no row has, run through the whole chain. -/
theorem reservedWordsAreRejected : Obligations.ReservedWordsAreRejected := by
  refine ⟨fun v => ⟨⟨fun he h => ?_, decode_reservedCommand⟩, decode_commandWord⟩, fun x => ?_⟩
  · obtain ⟨i, hi⟩ := decode_commandWord h
    exact nomatch he.symm.trans hi
  · have hzero : x.extractLsb' 16 12 = (bitsAt x 0 32).extractLsb' 16 12 := bitsAt_key x 16 12 (by decide)
    have hsize : x.extractLsb' 28 2 = (bitsAt x 0 32).extractLsb' 28 2 := bitsAt_key x 28 2 (by decide)
    rw [hzero, hsize]
    exact ⟨fun h => decodeTxn_unmapped fun ⟨hz, _, _⟩ => h hz,
      fun h => decodeTxn_unmapped fun ⟨_, hs, _⟩ => hs h,
      fun h hk => decodeTxn_unmapped fun ⟨_, _, hp⟩ => hk (hp h)⟩

/-- Settles O4, by running the decoder on each word. -/
theorem specWordsDecode : Obligations.SpecWordsDecode :=
  ⟨rfl, rfl, rfl, rfl, rfl, rfl, rfl, rfl, rfl, rfl, rfl, rfl⟩

end Sys2Proof

namespace Sys2Proof.Machine

/-! ### The record rows (R103, R117, R130; log 15) -/

/-- DECODE reads the two fields of the record word (R103). -/
theorem decodeRecord_eq (raw : Word) :
    decodeRecord raw = if raw = Config.sentinel then none else some (raw.extractLsb' 0 8, raw.extractLsb' 8 24) := by
  have code : (raw &&& 0xFF).setWidth 8 = raw.extractLsb' 0 8 := by
    rw [BitVec.setWidth_and, BitVec.setWidth_eq_extractLsb' (x := raw) (by decide)]
    exact BitVec.and_allOnes
  rw [decodeRecord, code, BitVec.setWidth_ushiftRight_eq_extractLsb]

theorem recordResult_recordWord {ts : Stamp} {code : Byte} (h : recordWord ts code ≠ Config.sentinel) :
    recordResult (recordWord ts code) = .event code ts := by
  obtain ⟨hts, hcode⟩ := recordWord_eq_iff.mp (Eq.refl (recordWord ts code))
  rw [recordResult, decodeRecord_eq, if_neg h, hts, hcode]

theorem recordWord_eq_sentinel_iff {ts : Stamp} {code : Byte} :
    recordWord ts code = Config.sentinel ↔ code = 0xFF ∧ ts = 0xFFFFFF := by
  rw [recordWord_eq_iff, and_comm, eq_comm, eq_comm (b := ts)]
  rfl

/-- Settles O19: the row the decoder reads from a record word holds the fields that DECODE reads from it. -/
theorem recordRowsAreClassified : Obligations.RecordRowsAreClassified := by
  refine ⟨fun s => rfl, fun s code ts h => ?_, fun s raw i h => ?_⟩
  · show pureCall (recordResult (recordWord ts code)) s = _
    rw [recordResult_recordWord (mt recordWord_eq_sentinel_iff.mp h)]
    rfl
  · cases (decodeRecordWord_keyWord raw).symm.trans h
    split
    · rename_i hs
      exact hs ▸ rfl
    · show pureCall (recordResult (recordWord _ _)) s = _
      rw [recordWord_eq_iff.mpr ⟨rfl, rfl⟩]
      rfl

/-! ### Confirmed operations on one register (R111, R263 to R265) -/

/-- Every edge flag set in `s` is set in `t` (R42). -/
def KeepsFlags (s t : State) : Prop := ∀ f ∈ edgeFlags, f s.hw = true → f t.hw = true

theorem keepsFlags_steady : Steady KeepsFlags where
  refl _ _ _ := id
  trans _ _ _ x y f hf h := y f hf (x f hf h)
  gap s := (runGap_keeps s).hw.flags
  bus _ _ _ := id
  log _ _ _ _ := id

/-- A confirmed write clears no edge flag when its effect clears none, for the agents only raise them (R300). -/
theorem confirmReg_keepsFlags {wkey rkey : Word} {w : Window} {off : Nat} {cond : State → Option RefusalReason}
    {v : Half} {eff : State → State} {get : Hw → Half} (he : ∀ s, KeepsFlags s (eff s)) :
    OpKeeps KeepsFlags (confirmWrite w off v (busWrite wkey w off cond v eff) (readReg rkey w off get)) :=
  have st := keepsFlags_steady
  .confirm st (.write st he) (.read st st.refl fun _ => st.refl)

theorem writeThreshold_keepsFlags (v : Half) (s : State) : KeepsFlags s (writeThreshold v s) :=
  flags_raised id id id (fun h => by simp [writeThreshold, State.mapHw, State.skipDraws, h]) id

/-- Task `n`'s call in `s` ended in `t` with success, the registers at `r` and `l` appended to the log. -/
def CallDone (n : Nat) (r : Registers) (l : List Txn) (s t : State) : Prop :=
  Returned (.task n) .done t ∧ t.hw.registers = r ∧ KeepsFlags s t ∧ t.host.lock = .free ∧
    t.host.drv = .collecting ∧ t.host.log = s.host.log ++ l

/-- A public operation whose body, run from `u` with the lock taken, is a write `m` that succeeds. -/
theorem hostCall_done {self : Instr} {ok : Bool} {body : Op Result} {m : Op Unit} {n k : Nat} {l : List Txn}
    {r : Registers} {s u : State} (hr : ReadyToCall n s) (hok : ok = true) (hu : s.setLock (.held (.task n)) = u)
    (hbody : body u = asDone m u) (hm : ∃ t, m u = (.ok (), t) ∧ Ran k l u t ∧ t.hw.registers = r)
    (hf : OpKeeps KeepsFlags m) :
    ∃ t, hostCall self onlyCollecting ok body s = .next t ∧ CallDone n r l s t := by
  subst hu
  obtain ⟨hk, hd, hl⟩ := hr
  obtain ⟨t, hrun, hran, hreg⟩ := hm
  have hkept := hf (s.setLock (.held (.task n)))
  rw [hrun] at hkept
  refine ⟨_, hostCall_runs hk (if_pos hd) hok hl, ?_⟩
  rw [endCall_ok (hbody.trans (opThen_ok hrun))]
  exact ⟨giveReturn_returned (hran.current.trans hk), hreg, hkept, rfl, hran.drv.trans hd, hran.log⟩

/-- A confirmed write of the FIFO threshold (R176, R265). -/
theorem confirmThresh_run {s : State} (v : Half) (hv : s.cfg.Valid) (hl : s.host.lock = .held s.host.current)
    (hb : BusOk 2 s) (hstd : s.cfg.confirmRule = .standard) :
    ∃ t, confirmWrite .cs 0x4C v (txnWrThresh v) txnRdThresh s = (.ok (), t) ∧
      Ran 2 [okTxn 0x5000004C v, okTxn 0x1000004C v] s t ∧ t.hw.registers = { s.hw.registers with threshold := v } := by
  obtain ⟨_, t, he, hr, hg, _, _⟩ := confirmReg_run (wkey := 0x5000004C) (rkey := 0x1000004C) (w := .cs) (off := 0x4C)
    (v := v) (cond := noCondition) (eff := writeThreshold v) (get := Hw.threshold) (fun r => { r with threshold := v })
    ⟨cs_inside hv (by decide), hl⟩ hb (fun _ => rfl) (fun _ => ⟨rfl, rfl, rfl⟩) (fun _ => rfl)
    (fun _ _ e => congrArg Registers.threshold e) (fun _ => rfl) hstd
  exact ⟨t, he, hr, hg⟩

/-- The value that a selector operation logs (R263, R264). -/
theorem byteValue_selectorRaw (off : Nat) (v : Byte) :
    byteValue (selectorRaw off v) = BitVec.ofNat 16 ((v.toNat + off) % 256) := by
  apply BitVec.eq_of_toNat_eq
  simp [byteValue, selectorRaw]

/-- R108: with the default offset a line 1 to 7 has a selector value of its own. -/
theorem selLine_selectorRaw {v : Byte} (h : v.toNat ≤ 7) : selLine 1 (selectorRaw 1 v) = .line v.toNat := by
  have hr : (selectorRaw 1 v).toNat = v.toNat + 1 := by
    simp only [selectorRaw, BitVec.toNat_ofNat]
    omega
  have h0 : selectorRaw 1 v ≠ 0 := fun e => by simp [e] at hr
  rw [selLine, if_neg h0, if_pos (by omega), hr, Nat.add_sub_cancel]

/-- Settles O48: each operation is one confirmed write of one register, whose effect clears no edge flag. -/
theorem selectorAndThresholdOperations : Obligations.SelectorAndThresholdOperations := by
  intro n v s hr h1 hv hstd hb
  have line (h7 : v.toNat ≤ 7) : selectorLineOk v = true := decide_eq_true ⟨h1, h7⟩
  have level : levelOk v = true := bne_iff_ne.mpr fun e => by simp [e] at h1
  have hl := ReadyToCall.inside hr.1
  rw [← byteValue_selectorRaw]
  refine ⟨fun h7 => ?_, fun h7 => ?_, fun h7 ho => ho ▸ selLine_selectorRaw h7, ?_⟩
  · exact hostCall_done hr (line h7) rfl rfl (confirmClrtrig_run _ hv hl hb hstd)
      (confirmReg_keepsFlags fun _ => flags_raised id id id id id)
  · exact hostCall_done hr (line h7) rfl rfl (confirmWrtrig_run _ hv hl hb hstd)
      (confirmReg_keepsFlags fun _ => flags_raised id id id id id)
  · exact hostCall_done hr level rfl rfl (confirmThresh_run _ hv hl hb hstd)
      (confirmReg_keepsFlags (writeThreshold_keepsFlags _))

end Sys2Proof.Machine

namespace Sys2Proof.Machine

/-! ### The record codec (R130 to R133) -/

/-- ENCODE sets the timestamp beside the event code, as the layout of a record has them (R103, R132). -/
theorem encodeRecord_eq (code : Byte) (ts : Stamp) : encodeRecord code ts = recordWord ts code := by
  rw [recordWord, BitVec.append_def, BitVec.shiftLeftZeroExtend_eq]
  rfl

theorem recordWord_toNat (ts : Stamp) (code : Byte) : (recordWord ts code).toNat = ts.toNat * 256 + code.toNat := by
  rw [recordWord, BitVec.toNat_append, ← Nat.shiftLeft_add_eq_or_of_lt code.isLt, Nat.shiftLeft_eq]

theorem encodeRecord_eq_ofNat (code : Byte) (ts : Stamp) :
    encodeRecord code ts = BitVec.ofNat 32 (ts.toNat * 256 + code.toNat) := by
  rw [encodeRecord_eq, ← recordWord_toNat, BitVec.ofNat_toNat, BitVec.setWidth_eq]

/-- The fields of a record word as quotient and remainder, from the word that they make up. -/
theorem recordFields_toNat (raw : Word) :
    (raw.extractLsb' 0 8).toNat = raw.toNat % 256 ∧ (raw.extractLsb' 8 24).toNat = raw.toNat / 256 := by
  have whole := recordWord_toNat (raw.extractLsb' 8 24) (raw.extractLsb' 0 8)
  rw [recordWord_eq_iff.mpr ⟨rfl, rfl⟩] at whole
  have hcode := (raw.extractLsb' 0 8).isLt
  omega

theorem recordResult_eq (raw : Word) :
    recordResult raw = if raw = Config.sentinel then .empty
      else .event (BitVec.ofNat 8 (raw.toNat % 256)) (BitVec.ofNat 24 (raw.toNat / 256)) := by
  obtain ⟨hcode, hts⟩ := recordFields_toNat raw
  rw [recordResult, decodeRecord_eq, ← hcode, ← hts, BitVec.ofNat_toNat, BitVec.ofNat_toNat, BitVec.setWidth_eq,
    BitVec.setWidth_eq]
  split_ifs <;> rfl

theorem validRecord_eq (raw : Word) : validRecord raw = decide (raw ≠ Config.sentinel) :=
  decide_not.symm

/-- Settles O18: each operation returns its codec function's value, read as arithmetic. -/
theorem codecOperationsReturnTheirValue : Obligations.CodecOperationsReturnTheirValue := by
  intro s raw code ts
  exact ⟨congrArg (pureCall · s) (recordResult_eq raw),
    congrArg (pureCall · s) (congrArg Result.truth (validRecord_eq raw)),
    congrArg (pureCall · s) (congrArg Result.word (encodeRecord_eq_ofNat code ts))⟩

/-- Settles O20: DECODE reads the two fields of a record word, and ENCODE joins them. -/
theorem recordCodecRoundTrips : Obligations.RecordCodecRoundTrips := by
  refine ⟨fun raw h => ⟨_, _, (decodeRecord_eq raw).trans (if_neg h), ?_, recordFields_toNat raw⟩, fun raw => ?_,
    fun code ts h => ?_⟩
  · rw [encodeRecord_eq]
    exact recordWord_eq_iff.mpr ⟨rfl, rfl⟩
  · rw [decodeRecord_eq, ite_eq_left_iff, imp_iff_not (Option.some_ne_none _), not_not]
    rfl
  · obtain ⟨hts, hcode⟩ := recordWord_eq_iff.mp (encodeRecord_eq code ts).symm
    have hne : encodeRecord code ts ≠ Config.sentinel := encodeRecord_eq code ts ▸ mt recordWord_eq_sentinel_iff.mp h
    rw [decodeRecord_eq, if_neg hne, hts, hcode]

end Sys2Proof.Machine

/-! ### One transaction that succeeds (R151, R153, R356) -/

namespace Sys2Proof.Machine

/-- A read transaction of the lock's holder that succeeds: its effect, its log entry, and the value. -/
theorem runTxn_read_ok {key : Word} {w : Window} {off : Nat} {cond : State → Option RefusalReason}
    {eff : State → Half × State} {trace : BusOutcome → State → State} {s : State} (ha : Admitted w off s)
    (hc : cond s = none) (hb : (s.env.bus.at 0).ok = true) :
    runTxn (asWord (busRead key w off cond eff trace)) s =
      .next (((eff s.nextBus).2.logTxn (okTxn key (eff s.nextBus).1)).giveReturn
        (.word ((eff s.nextBus).1.setWidth 32))) := by
  rw [runTxn, asWord, opThen_ok (busRead_ok (refusal_none ha hc) hb)]
  rfl

/-- A read of `key` in `s` ended in `t` with value `v` returned and logged, and the hardware at `hw'`. -/
structure ReadEnds (key : Word) (v : Half) (hw' : Hw) (s t : State) : Prop where
  hw       : t.hw = hw'
  returned : Returned s.host.current (.word (v.setWidth 32)) t
  log      : t.host.log = s.host.log ++ [okTxn key v]

/-- What a read row's success says, from the value and the state that its effect gives. -/
theorem read_done {i : Instr} {key : Word} {w : Window} {off : Nat} {cond : State → Option RefusalReason}
    {eff : State → Half × State} {trace : BusOutcome → State → State} {s u : State} {v : Half}
    (hx : exec i s = runTxn (asWord (busRead key w off cond eff trace)) s) (ha : Admitted w off s)
    (hc : cond s = none) (hb : (s.env.bus.at 0).ok = true) (he : eff s.nextBus = (v, u)) (hu : u.host = s.host) :
    ∃ t, exec i s = .next t ∧ ReadEnds key v u.hw s t := by
  rw [hx, runTxn_read_ok ha hc hb, he]
  exact ⟨_, rfl, rfl, giveReturn_returned (by rw [State.logTxn_host_current, hu]),
    by rw [State.giveReturn_host_log, State.logTxn_host_log, hu]⟩

/-- What a write row's success says, from an effect that makes no history event. -/
theorem write_done {i : Instr} {key : Word} {w : Window} {off : Nat} {cond : State → Option RefusalReason} {v : Half}
    {eff : State → State} {s : State} (hx : exec i s = runTxn (asDone (busWrite key w off cond v eff)) s)
    (ha : Admitted w off s) (hc : cond s = none) (hb : (s.env.bus.at 0).ok = true)
    (he : HwStep s.nextBus (eff s.nextBus)) (hh : (eff s.nextBus).history = s.history) {hw' : Hw}
    (hw : (eff s.nextBus).hw = hw') : WriteDone i w off key v s hw' := by
  refine ⟨_, hx.trans (runTxn_write_ok ha hc hb), hw, ?_, he.cfg, he.refused, hh, he.schedule, ha.1⟩
  rw [State.giveReturn, State.returnTo, State.logTxn, he.host]
  rfl

/-! ### Reads without side effect -/

/-- A row that is one read of `value`, which the bus oracle does not change (R81). -/
theorem plainRead_of_exec {i : Instr} {off : Nat} {key : Word} {value : State → Half}
    (hx : ∀ s, exec i s = runTxn (asWord (busRead key .cs off noCondition (fun u => (value u, u)) noTrace)) s)
    (hv : ∀ s, value s.nextBus = value s) : PlainRead i off key value := by
  intro s ha hb
  rw [hx, runTxn_read_ok ha rfl hb, hv]

/-- Settles O25: each of the twelve rows is one plain read of its register. -/
theorem plainReadsReturnTheirRegister : Obligations.PlainReadsReturnTheirRegister := by
  refine ⟨?_, ?_, ?_, ?_, ?_, ?_, ?_, ?_, ?_, ?_, ?_, ?_⟩ <;> exact plainRead_of_exec (fun _ => rfl) fun _ => rfl

/-! ### The status register -/

/-- R155: a flag whose bit is written as 1 is cleared. -/
theorem clearEdgeFlags_eq_ite (v : Half) (hw : Hw) :
    clearEdgeFlags v hw =
      { hw with
        mdatParityErr := if v.getLsbD 14 then false else hw.mdatParityErr
        fifoUnderflow := if v.getLsbD 12 then false else hw.fifoUnderflow
        fifoOverflow  := if v.getLsbD 11 then false else hw.fifoOverflow
        fifoThreshold := if v.getLsbD 9 then false else hw.fifoThreshold
        tclkParityErr := if v.getLsbD 7 then false else hw.tclkParityErr } := by
  have flag (b c : Bool) : (b && !c) = if c then false else b := by cases c <;> simp
  simp only [clearEdgeFlags, flag]

/-- Settles O26: the write's effect is the clearing of the written flags. -/
theorem statusWriteClearsWrittenEdgeFlags : Obligations.StatusWriteClearsWrittenEdgeFlags := by
  intro s v ha hb
  rw [← clearEdgeFlags_eq_ite]
  exact write_done rfl ha rfl hb (mapHw_step _ _ ⟨rfl, rfl, rfl, rfl⟩) rfl rfl

/-- Writing the status word back clears every edge flag, for the word shows each one that is set (R41, R155). -/
theorem clearEdgeFlags_statusWord (depth : Nat) (hw : Hw) (bit15 : Bool) :
    clearEdgeFlags (statusWord depth hw bit15) hw =
      { hw with mdatParityErr := false, fifoUnderflow := false, fifoOverflow := false, fifoThreshold := false,
                tclkParityErr := false } := by
  simp only [clearEdgeFlags, statusWord_getLsbD, Nat.reduceLT]
  simp

theorem statusRead_hw (s : State) :
    (statusRead s).2.hw = if s.cfg.statusClearOnRead then
      { s.hw with mdatParityErr := false, fifoUnderflow := false, fifoOverflow := false, fifoThreshold := false,
                  tclkParityErr := false } else s.hw := by
  rw [← clearEdgeFlags_statusWord s.cfg.fifoDepth s.hw (s.env.draws.bool 0)]
  unfold statusRead
  extract_lets w t
  dsimp only
  split <;> rfl

/-- Settles O27: the read's value is the status word with bit 15 drawn, and what it leaves of the hardware is known. -/
theorem statusReadReturnsTheWord : Obligations.StatusReadReturnsTheWord := by
  intro s ha hb
  obtain ⟨t, hx, hw, hret, hlog⟩ := read_done (i := .rdStatus) rfl ha rfl hb rfl (statusRead_step s.nextBus).host
  exact ⟨t, s.env.draws.bool 0, hx, hret, hlog, hw.trans (statusRead_hw s.nextBus)⟩

/-! ### Writes of byte registers and their pairs (R75, R158 to R163, R170 to R174) -/

/-- The halves of a word of two bytes. -/
theorem append_high_low (hi lo : Byte) :
    ((hi ++ lo : Half) >>> 8).setWidth 8 = hi ∧ (hi ++ lo : Half).setWidth 8 = lo :=
  ⟨BitVec.setWidth_ushiftRight_eq_extractLsb.trans BitVec.extractLsb'_append_eq_left, BitVec.setWidth_append_eq_right⟩

theorem evenByte_append (o : ByteOrder) (hi lo : Byte) :
    evenByte o (hi ++ lo) = match o with | .big => hi | .little => lo := by
  obtain ⟨hhi, hlo⟩ := append_high_low hi lo
  cases o
  · exact hhi
  · exact hlo

theorem oddByte_append (o : ByteOrder) (hi lo : Byte) :
    oddByte o (hi ++ lo) = match o with | .big => lo | .little => hi := by
  obtain ⟨hhi, hlo⟩ := append_high_low hi lo
  cases o
  · exact hlo
  · exact hhi

/-- A pair of byte registers after a word write, whatever function `f` of the two bytes makes up the hardware. -/
theorem pair_written {α : Type} (f : Byte → Byte → α) (o : ByteOrder) (hi lo : Byte) :
    f (evenByte o (hi ++ lo)) (oddByte o (hi ++ lo)) =
      f (match o with | .big => hi | .little => lo) (match o with | .big => lo | .little => hi) :=
  congrArg₂ f (evenByte_append o hi lo) (oddByte_append o hi lo)

/-- Settles O28: each write stores its bytes and redraws the five state bits. -/
theorem mdatWritesStoreTheirValue : Obligations.MdatWritesStoreTheirValue := by
  refine ⟨fun s v ha hb => ?_, fun s v ha hb => ?_, fun s hi lo ha hb => ?_⟩
  · exact ⟨_, _, _, _, _, write_done rfl ha rfl hb (redrawMdat_step _ _ ⟨rfl, rfl, rfl, rfl⟩) rfl rfl⟩
  · exact ⟨_, _, _, _, _, write_done rfl ha rfl hb (redrawMdat_step _ _ ⟨rfl, rfl, rfl, rfl⟩) rfl rfl⟩
  · have stored := pair_written (fun x y => { s.hw with mdatIntType := x, mdatBufSwitch := y }) s.cfg.byteOrder hi lo
    exact ⟨_, _, _, _, _, write_done rfl ha rfl hb (redrawMdat_step _ _ ⟨rfl, rfl, rfl, rfl⟩) rfl
      (congrArg (fun hw => (redrawMdat { s.nextBus with hw := hw }).hw) stored)⟩

/-- Settles O29: a write to a timestamp register redraws the counter, one to the threshold may raise its flag. -/
theorem timestampAndThresholdWrites : Obligations.TimestampAndThresholdWrites := by
  intro s v hb
  refine ⟨fun ha => ?_, fun ha => ?_, fun ha => ?_⟩
  · exact ⟨_, write_done rfl ha rfl hb (redrawCounter_step _ _ ⟨rfl, rfl, rfl, rfl⟩) rfl rfl⟩
  · exact ⟨_, write_done rfl ha rfl hb (redrawCounter_step _ _ ⟨rfl, rfl, rfl, rfl⟩) rfl rfl⟩
  · exact ⟨_, write_done rfl ha rfl hb (writeThreshold_step v s.nextBus) rfl rfl⟩

/-- Settles O30: the write's effect is the selectors at their bytes. -/
theorem selectorWritesStoreTheirValue : Obligations.SelectorWritesStoreTheirValue := by
  intro s hi lo hb
  refine ⟨fun ha => ?_, fun ha => ?_, fun ha => ?_⟩
  · exact write_done rfl ha rfl hb (mapHw_step _ _ ⟨rfl, rfl, rfl, rfl⟩) rfl rfl
  · exact write_done rfl ha rfl hb (mapHw_step _ _ ⟨rfl, rfl, rfl, rfl⟩) rfl rfl
  · exact write_done rfl ha rfl hb (mapHw_step _ _ ⟨rfl, rfl, rfl, rfl⟩) rfl
      (pair_written (fun x y => { s.hw with wrTrigSel := x, clrTrigSel := y }) s.cfg.byteOrder hi lo)

/-! ### The trigger table (R179, R180, R201) -/

theorem routingMask_getLsbD (entry : Half) {n : Nat} (hn : n < 8) :
    (routingMask entry).getLsbD n = entry.getLsbD n := by
  simp [routingMask, hn]

/-- A read delivers bits 7..0 of its entry, and a write stores them, whether the high bits are stored or not. -/
theorem routingMask_readEntry (highBits : Bool) (entry : Half) (drawn : Byte) :
    routingMask (readEntry highBits entry drawn) = routingMask entry := by
  cases highBits
  · exact (append_high_low drawn (routingMask entry)).2
  · rfl

theorem routingMask_storedEntry (highBits : Bool) (old v : Half) :
    routingMask (storedEntry highBits old v) = routingMask v := by
  cases highBits
  · show ((old &&& 0xFF00) ||| (v &&& 0x00FF)).setWidth 8 = v.setWidth 8
    rw [BitVec.setWidth_or, BitVec.setWidth_and, BitVec.setWidth_and]
    show (_ &&& 0#8) ||| (_ &&& BitVec.allOnes 8) = _
    rw [BitVec.and_zero, BitVec.zero_or, BitVec.and_allOnes]
  · rfl

/-- RD_TT's effect (R179): the entry with bits 15..8 drawn where they are not stored. -/
def ttRead (c : Byte) (s : State) : Half × State :=
  (readEntry s.cfg.ttHighBitsStored (ttEntry s.hw.tt c) (BitVec.ofNat 8 (s.env.draws.at 0)),
    if s.cfg.ttHighBitsStored then s else s.skipDraws 1)

/-- WR_TT's effect on the table (R180). -/
def ttWrite (c : Byte) (v : Half) (s : State) : State :=
  s.mapHw fun hw => { hw with tt := ttReplace hw.tt c (storedEntry s.cfg.ttHighBitsStored (ttEntry hw.tt c) v) }

theorem exec_rdTt (c : Byte) (s : State) :
    exec (.rdTt c) s = runTxn (asWord (busRead (0x90000000 + BitVec.ofNat 32 (2 * c.toNat)) .ev (2 * c.toNat)
      noCondition (ttRead c) noTrace)) s := by
  have eff : ttRead c = fun s => if s.cfg.ttHighBitsStored then (ttEntry s.hw.tt c, s)
      else (readEntry false (ttEntry s.hw.tt c) (BitVec.ofNat 8 (s.env.draws.at 0)), s.skipDraws 1) := by
    funext u
    unfold ttRead
    cases u.cfg.ttHighBitsStored <;> rfl
  rw [← rdTtKey_eq, eff]
  rfl

theorem exec_wrTt (c : Byte) (v : Half) (s : State) :
    exec (.wrTt c v) s = runTxn (asDone (busWrite (0xD0000000 + BitVec.ofNat 32 (2 * c.toNat)) .ev (2 * c.toNat)
      noCondition v (ttWrite c v))) s := by
  rw [← wrTtKey_eq]
  rfl

theorem ttRead_keeps (c : Byte) (s : State) : (ttRead c s).2.hw = s.hw ∧ (ttRead c s).2.host = s.host := by
  unfold ttRead
  dsimp only
  split <;> exact ⟨rfl, rfl⟩

/-- Settles O31: the write replaces one entry by the stored one, the read delivers the entry. -/
theorem triggerTableTransactions : Obligations.TriggerTableTransactions := by
  intro s c v ha hb
  constructor
  · refine ⟨_, write_done (exec_wrTt c v s) ha rfl hb (mapHw_step _ _ ⟨rfl, rfl, rfl, rfl⟩) rfl rfl, rfl,
      ttReplace_other _ _ _, fun hs => ?_, fun n hn => ?_⟩
    · exact (ttReplace_same ..).trans (if_pos hs)
    · rw [← routingMask_getLsbD _ hn, ← routingMask_getLsbD v hn]
      exact congrArg (BitVec.getLsbD · n) ((congrArg routingMask (ttReplace_same ..)).trans (routingMask_storedEntry ..))
  · obtain ⟨hkept, hhost⟩ := ttRead_keeps c s.nextBus
    obtain ⟨t, hx, hw, hret, hlog⟩ := read_done (exec_rdTt c s) ha rfl hb rfl hhost
    refine ⟨t, _, hx, hw.trans hkept, hret, hlog, fun hs => if_pos hs, fun n hn => ?_⟩
    rw [← routingMask_getLsbD _ hn, ← routingMask_getLsbD (ttEntry _ _) hn]
    exact congrArg (BitVec.getLsbD · n) (routingMask_readEntry ..)

/-! ### The control commands (R104, R185 to R195; log 15) -/

/-- The row of a command (R104). -/
def Command.row : Command → Instr
  | .noOp => .noOp
  | .enableTclk => .enableTclk
  | .disableTclk => .disableTclk
  | .enableMdat => .enableMdat
  | .disableMdat => .disableMdat
  | .mdatBuf0 => .mdatBuf0
  | .mdatBuf1 => .mdatBuf1
  | .enableMdatBufAuto => .enableMdatBufAuto
  | .disableMdatBufAuto => .disableMdatBufAuto
  | .swInterrupt => .swInterrupt
  | .swReset => .swReset

theorem commandOf_word (c : Command) : commandOf c.word = some c := by
  cases c <;> rfl

theorem commandCondition_word (c : Command) (s : State) : commandCondition c.word s = none := by
  rw [commandCondition, commandOf_word]

theorem controlEffect_word (c : Command) (s : State) :
    controlEffect c.word s = performCommand c (s.mapHw fun hw => { hw with ctrl := c.word }) := by
  rw [controlEffect, commandOf_word]

/-- A command's two forms, its row and its word written by WR_CTRL, are one control write (log 15). -/
theorem exec_command {c : Command} {i : Instr} (hi : i ∈ [c.row, .wrCtrl c.word]) (s : State) :
    exec i s = runTxn (asDone (txnWrCtrl c.word)) s := by
  rcases List.mem_pair.mp hi with rfl | rfl
  · cases c <;> rfl
  · rfl

/-- What a command that makes no event leaves of the hardware: its word stored, then its own effect. -/
theorem command_done (c : Command) {s : State} (ha : Admitted .cs 0x40 s) (hb : (s.env.bus.at 0).ok = true)
    (hh : (controlEffect c.word s.nextBus).history = s.history) :
    ∀ i ∈ [c.row, .wrCtrl c.word], WriteDone i .cs 0x40 0x50000040 c.word s
      (performCommand c (s.nextBus.mapHw fun hw => { hw with ctrl := c.word })).hw := by
  intro i hi
  rw [← controlEffect_word]
  exact write_done (exec_command hi s) ha (commandCondition_word c s) hb (controlEffect_step ..) hh rfl

/-- Settles O32: each of the seven is a command whose effect is its one enable. -/
theorem commandsSetTheirEnable : Obligations.CommandsSetTheirEnable := by
  intro s ha hb
  exact ⟨command_done .noOp ha hb rfl, command_done .enableTclk ha hb rfl, command_done .disableTclk ha hb rfl,
    command_done .enableMdat ha hb rfl, command_done .disableMdat ha hb rfl, command_done .enableMdatBufAuto ha hb rfl,
    command_done .disableMdatBufAuto ha hb rfl⟩

/-- Settles O33: the buffer commands redraw the three buffer bits, SW_Interrupt only makes its event. -/
theorem bufferAndInterruptCommands : Obligations.BufferAndInterruptCommands := by
  intro s ha hb
  refine ⟨fun i hi => ?_, fun i hi => ?_, fun i hi => ?_⟩
  · exact ⟨_, _, _, command_done .mdatBuf0 ha hb rfl i hi⟩
  · exact ⟨_, _, _, command_done .mdatBuf1 ha hb rfl i hi⟩
  · exact ⟨_, (exec_command (c := .swInterrupt) hi s).trans (runTxn_write_ok ha rfl hb), rfl, rfl, rfl, rfl, rfl⟩

/-! ### A row's first access, refused or failed (R151, R153) -/

/-- What can refuse a row's first access besides the window and the lock (R105, R181, R182). -/
def rowCondition : Instr → State → Option RefusalReason
  | .wrCtrl v => commandCondition v
  | .rdFifoHi | .rdFifo32 => highCondition
  | .rdFifoLo => lowCondition
  | _ => noCondition

/-- The oracle says of a failed transaction that nothing happened (log 5). -/
abbrev Quiet (b : BusOutcome) : Prop := b.took = false ∧ b.popped = false ∧ b.flagged = false

/-- What row `i` answers when its first access, at `off` of window `w`, is refused and when it fails. -/
structure FirstAccess (i : Instr) (w : Window) (off : Nat) : Prop where
  refused : ∀ {s r}, refusal w off (rowCondition i) s = some r → exec i s = .next (s.markRefused r)
  failed  : ∀ {s}, refusal w off (rowCondition i) s = none → (s.env.bus.at 0).ok = false →
    ∃ u, exec i s = .next ((u.logTxn { key := txnKey i, value := txnWrites i, ok := false }).giveReturn
        (.error .busAccessFailure)) ∧
      HwTrace s.nextBus u ∧ (Quiet (s.env.bus.at 0) → u = s.nextBus)

/-- What a failed read leaves: nothing but hardware, and where nothing happened nothing at all. -/
def IsFailureTrace (trace : BusOutcome → State → State) : Prop :=
  ∀ b s, HwTrace s (trace b s) ∧ (Quiet b → trace b s = s)

theorem noTrace_isFailureTrace : IsFailureTrace noTrace := fun _ s => ⟨(HwStep.refl s).toHwTrace, fun _ => rfl⟩

theorem statusTrace_isFailureTrace : IsFailureTrace statusTrace := fun b s =>
  ⟨(statusTrace_step b s).toHwTrace, fun ⟨ht, _, _⟩ => by simp [statusTrace, ht]⟩

theorem highTrace_isFailureTrace : IsFailureTrace highTrace := fun b s =>
  ⟨highTrace_keeps b s, fun ⟨ht, hp, hf⟩ => by simp [highTrace, lossyFifo, State.mapHw, ht, hp, hf]⟩

theorem lowTrace_isFailureTrace : IsFailureTrace lowTrace := fun b s =>
  ⟨lowTrace_keeps b s, fun ⟨ht, hp, _⟩ => by simp [lowTrace, lossyFifo, State.mapHw, ht, hp]⟩

section FirstAccess

variable {i : Instr} {w : Window} {off : Nat}

/-- An instruction that begins with a bus read. -/
theorem FirstAccess.ofReadThen {eff : State → Half × State} {trace : BusOutcome → State → State} {k : Half → Op Result}
    (hx : ∀ s, exec i s = runTxn (opThen (busRead (txnKey i) w off (rowCondition i) eff trace) k) s)
    (hn : txnWrites i = none) (ht : IsFailureTrace trace) : FirstAccess i w off where
  refused hr := by
    rw [hx, runTxn, opThen_error (busRead_refused hr)]
    rfl
  failed {s} hr hb := by
    obtain ⟨htr, hq⟩ := ht (s.env.bus.at 0) s.nextBus
    refine ⟨_, ?_, htr, hq⟩
    rw [hx, runTxn, opThen_error (busRead_failed hr hb), hn]
    rfl

/-- An instruction that is a bus read. -/
theorem FirstAccess.ofRead {eff : State → Half × State} {trace : BusOutcome → State → State}
    (hx : ∀ s, exec i s = runTxn (asWord (busRead (txnKey i) w off (rowCondition i) eff trace)) s)
    (hn : txnWrites i = none) (ht : IsFailureTrace trace) : FirstAccess i w off := .ofReadThen hx hn ht

/-- An instruction that is a read of a register without side effect. -/
theorem FirstAccess.ofReg {get : Hw → Half} (hx : ∀ s, exec i s = runTxn (asWord (readReg (txnKey i) w off get)) s)
    (hc : rowCondition i = noCondition) (hn : txnWrites i = none) : FirstAccess i w off :=
  .ofRead (fun s => (hx s).trans (by rw [hc]; rfl)) hn noTrace_isFailureTrace

/-- An instruction that is a bus write. -/
theorem FirstAccess.ofWrite {v : Half} {eff : State → State}
    (hx : ∀ s, exec i s = runTxn (asDone (busWrite (txnKey i) w off (rowCondition i) v eff)) s)
    (hv : txnWrites i = some v) (he : ∀ s, HwStep s (eff s)) : FirstAccess i w off where
  refused hr := by
    rw [hx, runTxn, asDone, opThen_error (busWrite_refused hr)]
    rfl
  failed {s} hr hb := by
    refine ⟨if (s.env.bus.at 0).took then eff s.nextBus else s.nextBus, ?_, ?_, fun ⟨ht, _, _⟩ => by simp [ht]⟩
    · rw [hx, runTxn, asDone, opThen_error (busWrite_failed hr hb), hv]
      rfl
    · split
      · exact (he _).toHwTrace
      · exact (HwStep.refl _).toHwTrace

end FirstAccess

/-- The paired read begins with its high half read (R183). -/
theorem exec_rdFifo32 (s : State) :
    exec .rdFifo32 s = runTxn (opThen txnRdFifoHi fun hi =>
      opThen (opThen (opGap txnRdFifoLo) fun lo => opPure (joinHalves hi lo)) fun raw => opPure (.word raw)) s := by
  show runTxn (opThen pairedRead _) s = _
  simp only [runTxn, pairedRead, opThen]
  rcases txnRdFifoHi s with ⟨_ | _, _⟩ <;> rfl

/-- Every transaction and command row is one bus access, or the paired read that begins with one (R102, R104). -/
theorem firstAccess_of_place {i : Instr} {w : Window} {off : Nat} (h : txnPlace i = some (w, off)) :
    FirstAccess i w off := by
  cases i with
  | rdCtrl | rdMdatItype | rdMdatBufsw | rdTsrstLo | rdTsrstHi | rdWrtrig | rdClrtrig | rdThresh | rdIdHi | rdIdLo =>
    cases h
    exact .ofReg (fun _ => rfl) rfl rfl
  | rdW44 | rdW4a => cases h; exact .ofRead (fun _ => rfl) rfl noTrace_isFailureTrace
  | rdTt c => cases h; exact .ofRead (exec_rdTt c) rfl noTrace_isFailureTrace
  | rdStatus => cases h; exact .ofRead (fun _ => rfl) rfl statusTrace_isFailureTrace
  | rdFifoHi => cases h; exact .ofRead (fun _ => rfl) rfl highTrace_isFailureTrace
  | rdFifoLo => cases h; exact .ofRead (fun _ => rfl) rfl lowTrace_isFailureTrace
  | rdFifo32 => cases h; exact .ofReadThen exec_rdFifo32 rfl highTrace_isFailureTrace
  | wrCtrl | noOp | enableTclk | disableTclk | enableMdat | disableMdat | mdatBuf0 | mdatBuf1 | enableMdatBufAuto
  | disableMdatBufAuto | swInterrupt | swReset => cases h; exact .ofWrite (fun _ => rfl) rfl (controlEffect_step _)
  | wrMdatItype | wrMdatBufsw | wrW44 =>
    cases h
    exact .ofWrite (fun _ => rfl) rfl fun _ => redrawMdat_step _ _ ⟨rfl, rfl, rfl, rfl⟩
  | wrTsrstLo | wrTsrstHi =>
    cases h
    exact .ofWrite (fun _ => rfl) rfl fun _ => redrawCounter_step _ _ ⟨rfl, rfl, rfl, rfl⟩
  | wrStatus | wrWrtrig | wrClrtrig | wrW4a =>
    cases h
    exact .ofWrite (fun _ => rfl) rfl fun _ => mapHw_step _ _ ⟨rfl, rfl, rfl, rfl⟩
  | wrThresh v => cases h; exact .ofWrite (fun _ => rfl) rfl (writeThreshold_step v)
  | wrTt c v => cases h; exact .ofWrite (exec_wrTt c v) rfl fun _ => mapHw_step _ _ ⟨rfl, rfl, rfl, rfl⟩
  | _ => cases h

/-- R105, R185: a word of no command is refused by its own condition. -/
theorem commandCondition_reserved {v : Half} (h : ¬ (v ≤ 0x0009 ∨ v = 0x00FF)) (s : State) :
    commandCondition v s = some .reservedCommand := by
  have row (k : Half) (hk : IsCommandWord k) : (v = k) = False := eq_false fun e => h (e ▸ hk)
  simp (disch := decide) only [commandCondition, commandOf, row, if_false]

/-- Settles O35: the first access of each row is refused by the window, the lock, or its own condition. -/
theorem unadmittedTransactionsAreRefused : Obligations.UnadmittedTransactionsAreRefused := by
  refine ⟨fun i w off s hp hw hl => ?_, fun i w off s hp hw => ?_, fun v s ha hv => ?_⟩
  · exact (firstAccess_of_place hp).refused (refusal_noLock hw hl)
  · exact (firstAccess_of_place hp).refused (refusal_outside hw)
  · have first : FirstAccess (.wrCtrl v) .cs 0x40 := firstAccess_of_place rfl
    exact first.refused ((refusal_condition ha).trans (commandCondition_reserved hv s))

/-- The words of R104 are those of the commands. -/
theorem exists_command {v : Half} (h : v ≤ 0x0009 ∨ v = 0x00FF) : ∃ c : Command, v = c.word := by
  rcases commandWord_cases h with h | h | h | h | h | h | h | h | h | h | h
  · exact ⟨.noOp, h⟩
  · exact ⟨.enableTclk, h⟩
  · exact ⟨.disableTclk, h⟩
  · exact ⟨.enableMdat, h⟩
  · exact ⟨.disableMdat, h⟩
  · exact ⟨.mdatBuf0, h⟩
  · exact ⟨.mdatBuf1, h⟩
  · exact ⟨.enableMdatBufAuto, h⟩
  · exact ⟨.disableMdatBufAuto, h⟩
  · exact ⟨.swInterrupt, h⟩
  · exact ⟨.swReset, h⟩

/-- A row's own condition is met by a word of a command and by half reads in order (R105, R181, R182). -/
theorem rowCondition_none {i : Instr} {s : State} (hv : ∀ v, i = .wrCtrl v → v ≤ 0x0009 ∨ v = 0x00FF)
    (hhi : i = .rdFifoHi ∨ i = .rdFifo32 → s.hw.fifoPhase = .idle) (hlo : i = .rdFifoLo → s.hw.fifoPhase ≠ .idle) :
    rowCondition i s = none := by
  cases i with
  | wrCtrl v =>
    obtain ⟨c, rfl⟩ := exists_command (hv v rfl)
    exact commandCondition_word c s
  | rdFifoHi => exact if_pos (hhi (.inl rfl))
  | rdFifo32 => exact if_pos (hhi (.inr rfl))
  | rdFifoLo => exact if_neg (hlo rfl)
  | _ => rfl

/-- Settles O36: a row stops at its first access when that fails, and what it left is the trace of that access. -/
theorem failedTransactionReturnsBusAccessFailure : Obligations.FailedTransactionReturnsBusAccessFailure := by
  intro i w off s hp ha hb hv hhi hlo
  obtain ⟨u, hx, hu, hq⟩ := (firstAccess_of_place hp).failed (refusal_none ha (rowCondition_none hv hhi hlo)) hb
  have hhost : u.host = s.host := hu.host
  refine ⟨_, hx, ?_, giveReturn_returned (by rw [State.logTxn_host_current, hhost]), hu.refused, ?_, ?_,
    fun ht hpop hf => ?_⟩
  · rw [State.giveReturn_host_log, State.logTxn_host_log, hhost]
  · rw [State.giveReturn_host_lock, State.logTxn_host_lock, hhost]
  · rw [State.giveReturn_host_drv, State.logTxn_host_drv, hhost]
  · cases hq ⟨ht, hpop, hf⟩
    exact ⟨rfl, rfl⟩

/-! ### The FIFO's half reads and paired read (R110, R181 to R184, R311) -/

/-- Settles O39: the first access of each row is refused by its own condition on the phase. -/
theorem halfReadsOutOfOrderAreRefused : Obligations.HalfReadsOutOfOrderAreRefused := by
  have high : FirstAccess .rdFifoHi .ev 0x1200 := firstAccess_of_place rfl
  have pair : FirstAccess .rdFifo32 .ev 0x1200 := firstAccess_of_place rfl
  have low : FirstAccess .rdFifoLo .ev 0x1202 := firstAccess_of_place rfl
  refine fun s => ⟨fun ha hp => ⟨high.refused ?_, pair.refused ?_⟩, fun ha hp => low.refused ?_⟩
  · exact (refusal_condition ha).trans (if_neg hp)
  · exact (refusal_condition ha).trans (if_neg hp)
  · exact (refusal_condition ha).trans (if_pos hp)

theorem highHalf_setWidth (r : Word) : (highHalf r).setWidth 32 = r >>> 16 := by
  apply BitVec.eq_of_toNat_eq
  simp only [highHalf, BitVec.toNat_setWidth, BitVec.toNat_ushiftRight, Nat.shiftRight_eq_div_pow]
  have := r.isLt
  omega

theorem lowHalf_setWidth (r : Word) : (lowHalf r).setWidth 32 = r &&& 0xFFFF := by
  apply BitVec.eq_of_toNat_eq
  have mask : (r &&& 0xFFFF).toNat = r.toNat % 2 ^ 16 := Nat.and_two_pow_sub_one_eq_mod r.toNat 16
  rw [mask, lowHalf, BitVec.toNat_setWidth, BitVec.toNat_setWidth]
  omega

/-- A high half read in order. -/
theorem rdFifoHi_done {s u : State} {v : Half} (ha : Admitted .ev 0x1200 s) (hb : (s.env.bus.at 0).ok = true)
    (hp : s.hw.fifoPhase = .idle) (he : readHigh s.nextBus = (v, u)) :
    ∃ t, exec .rdFifoHi s = .next t ∧ ReadEnds 0x90001200 v u.hw s t :=
  read_done rfl ha (if_pos hp) hb he (by simpa [he] using (readHigh_step s.nextBus).host)

/-- A low half read in order. -/
theorem rdFifoLo_done {s u : State} {v : Half} (ha : Admitted .ev 0x1202 s) (hb : (s.env.bus.at 0).ok = true)
    (hp : s.hw.fifoPhase ≠ .idle) (he : readLow s.nextBus = (v, u)) :
    ∃ t, exec .rdFifoLo s = .next t ∧ ReadEnds 0x90001202 v u.hw s t :=
  read_done rfl ha (if_neg hp) hb he (by simpa [he] using (readLow_step s.nextBus).host)

/-- R182, log 16: the low half due from a FIFO that lost its record is a draw. -/
theorem readLow_lost {s : State} (hp : s.hw.fifoPhase = .highRead) (hf : s.hw.fifo = []) :
    readLow s = (BitVec.ofNat 16 (s.env.draws.at 0),
      (s.mapHw fun hw => { hw with fifoPhase := .idle }).skipDraws 1) := by
  unfold readLow
  rw [hp, hf]

/-- Settles O38: one case per state of the FIFO and its phase, with the half that the read's effect delivers there. -/
theorem halfReadsDeliverTheHeadRecord : Obligations.HalfReadsDeliverTheHeadRecord := by
  refine ⟨fun s ha hb hp => ⟨fun r rest hf => ?_, fun hf => ?_⟩,
    fun s ha hb => ⟨fun r rest hp hf => ?_, fun hp hf => ?_, fun hp => ?_⟩⟩
  · obtain ⟨t, hx, hw, hret, hlog⟩ := rdFifoHi_done ha hb hp (readHigh_head (s := s.nextBus) hf)
    exact ⟨t, hx, hw, highHalf_setWidth r ▸ hret, hlog⟩
  · obtain ⟨t, hx, hw, hret, _⟩ := rdFifoHi_done ha hb hp (readHigh_empty (s := s.nextBus) hf)
    exact ⟨t, hx, hw, highHalf_setWidth _ ▸ hret⟩
  · obtain ⟨t, hx, hw, hret, hlog⟩ := rdFifoLo_done ha hb (by simp [hp]) (readLow_head (s := s.nextBus) hp hf)
    exact ⟨t, hx, hw, lowHalf_setWidth r ▸ hret, hlog⟩
  · obtain ⟨t, hx, hw, hret, hlog⟩ := rdFifoLo_done ha hb (by simp [hp]) (readLow_lost (s := s.nextBus) hp hf)
    exact ⟨t, _, hx, hw, hret, hlog⟩
  · obtain ⟨t, hx, hw, hret, _⟩ := rdFifoLo_done ha hb (by simp [hp]) (readLow_empty (s := s.nextBus) hp)
    exact ⟨t, hx, hw, lowHalf_setWidth _ ▸ hret⟩

/-- The paired read as an instruction, where both halves succeed. -/
theorem exec_rdFifo32_ok {s t : State} {raw : Word} (h : pairedRead s = (.ok raw, t)) :
    exec .rdFifo32 s = .next (t.giveReturn (.word raw)) := by
  show runTxn (opThen pairedRead _) s = _
  rw [runTxn, opThen_ok h]
  rfl

/-- R110: the halves stand side by side in the record. -/
theorem joinHalves_highHalf (r : Word) (lo : Half) : joinHalves (highHalf r) lo = r.extractLsb' 16 16 ++ lo := by
  rw [highHalf, BitVec.setWidth_ushiftRight_eq_extractLsb, BitVec.append_def, BitVec.shiftLeftZeroExtend_eq]
  rfl

/-- Settles O40: the paired read's three cases, as an instruction of the lock's holder. -/
theorem pairedReadReturnsTheHeadRecord : Obligations.PairedReadReturnsTheHeadRecord := by
  intro s hv hl hb hp
  refine ⟨fun r rest hf hfl => ?_, fun r rest hf _ => ?_, fun hf => ?_⟩
  · obtain ⟨t, newer, hx, hq, hph, hreg, hran⟩ := pairedRead_run hv hl hb hp hf hfl
    exact ⟨_, newer, exec_rdFifo32_ok hx, hq, hph, giveReturn_returned hran.current, hreg, hran.log,
      (hran.held hl).trans hl.symm, hran.drv⟩
  · obtain ⟨t, hi, lo, hx, hph, hreg, hhalves, hran⟩ := pairedRead_any hv hl hb hp
    obtain ⟨rfl, hlo⟩ := hhalves r rest hf
    rw [joinHalves_highHalf] at hx
    exact ⟨_, lo, exec_rdFifo32_ok hx, hlo, hph, giveReturn_returned hran.current, hreg, hran.log,
      (hran.held hl).trans hl.symm, hran.drv⟩
  · obtain ⟨t, hx, hph, hun, hreg, hran⟩ := pairedRead_empty hv hl hb hp hf
    exact ⟨_, exec_rdFifo32_ok hx, hph, giveReturn_returned hran.current, hreg, hun, (hran.held hl).trans hl.symm⟩

end Sys2Proof.Machine

namespace Sys2Proof.Machine

/-! ### Public operations (R241, R336, R352) -/

/-- R265: the only level out of range is 0. -/
theorem levelOk_eq (level : Byte) : levelOk level = decide (1 ≤ level.toNat) := by
  rw [levelOk, Bool.eq_iff_iff, bne_iff_ne, decide_eq_true_iff, Nat.one_le_iff_ne_zero]
  exact not_congr BitVec.toNat_inj.symm

/-- Every operation admitted only in Collecting is one call around a body, with its operands' check before it. -/
theorem exec_collectingCall {i : Instr} (h : isCollectingCall i = true) :
    ∃ body, ∀ s, exec i s = hostCall i onlyCollecting (paramsOk i) body s := by
  cases i with
  | setTrigger code b enabled => exact ⟨setTriggerBody code b enabled, fun _ => rfl⟩
  | getTrigger code b => exact ⟨getTriggerBody code b, fun _ => rfl⟩
  | setResetTimestampTrigger t => exact ⟨setResetTimestampBody t, fun _ => rfl⟩
  | setWriteTrigger t => exact ⟨setWriteTriggerBody t, fun _ => rfl⟩
  | setFifoThreshold level =>
    refine ⟨setFifoThresholdBody level, fun s => ?_⟩
    rw [paramsOk, ← levelOk_eq]
    rfl
  | readStatus => exact ⟨readStatusBody, fun _ => rfl⟩
  | drainOneEvent => exact ⟨drainBody, fun _ => rfl⟩
  | _ => exact nomatch h

/-- Settles O41: the operands' check comes before the lock is looked at. -/
theorem invalidParametersTouchNothing : Obligations.InvalidParametersTouchNothing := by
  intro i n s hi hp hk hd
  obtain ⟨body, hx⟩ := exec_collectingCall hi
  rw [hx, hostCall_invalid hk (if_pos hd) hp]

theorem endCall_error {u t : State} {body : Op Result} {e : HostError} (h : body u = (.error (.error e), t)) :
    endCall (body u) = (t.setLock .free).giveReturn (.error e) := by
  rw [h]
  rfl

/-- A call around a write that succeeds or not as `p` says. -/
theorem endCall_asDone {m : Op Unit} {u t : State} {e : HostError} {p : Prop} [Decidable p]
    (h : m u = (if p then .ok () else .error (.error e), t)) :
    endCall (asDone m u) = (t.setLock .free).giveReturn (if p then .done else .error e) := by
  split at h
  · rw [if_pos ‹p›]
    exact endCall_ok (opThen_ok h)
  · rw [if_neg ‹¬p›]
    exact endCall_error (opThen_error h)

/-! ### One entry of the trigger table (R152, R179, R180, R203) -/

/-- Words with one routing mask have the same bits 7..0. -/
theorem getLsbD_of_routingMask {v w : Half} (h : routingMask v = routingMask w) {j : Nat} (hj : j < 8) :
    v.getLsbD j = w.getLsbD j := by
  rw [← routingMask_getLsbD v hj, h, routingMask_getLsbD w hj]

/-- From `s` to `t` the value `v` was written to entry `c`, and no other register changed (R180). -/
def EntryWritten (c : Byte) (v : Half) (s t : State) : Prop :=
  t.hw.registers =
    { s.hw.registers with tt := ttReplace s.hw.tt c (storedEntry s.cfg.ttHighBitsStored (ttEntry s.hw.tt c) v) }

section EntryWritten

variable {c : Byte} {v : Half} {s t : State} (h : EntryWritten c v s t)

include h

theorem EntryWritten.tt :
    t.hw.tt = ttReplace s.hw.tt c (storedEntry s.cfg.ttHighBitsStored (ttEntry s.hw.tt c) v) :=
  congrArg Registers.tt h

theorem EntryWritten.registers : t.hw.registers = { s.hw.registers with tt := t.hw.tt } := by
  rw [h.tt]
  exact h

theorem EntryWritten.entry_of_stored (hs : s.cfg.ttHighBitsStored = true) : ttEntry t.hw.tt c = v := by
  rw [h.tt, ttReplace_same, hs]
  rfl

theorem EntryWritten.mask : routingMask (ttEntry t.hw.tt c) = routingMask v := by
  rw [h.tt, ttReplace_same, routingMask_storedEntry]

theorem EntryWritten.other (d : Byte) (hd : d ≠ c) : ttEntry t.hw.tt d = ttEntry s.hw.tt d := by
  rw [h.tt, ttReplace_other _ _ _ _ hd]

/-- Steps before the write that change no register and no parameter. -/
theorem EntryWritten.after {r : State} (hr : s.hw.registers = r.hw.registers) (hc : s.cfg = r.cfg) :
    EntryWritten c v r t := by
  have htt : s.hw.tt = r.hw.tt := congrArg Registers.tt hr
  unfold EntryWritten at h ⊢
  rw [h, hr, hc, htt]

/-- Steps after the write that change no register. -/
theorem EntryWritten.before {u : State} (hu : u.hw.registers = t.hw.registers) : EntryWritten c v s u := hu.trans h

end EntryWritten

/-- R180: a table write that succeeds. -/
theorem txnWrTt_run {s : State} (c : Byte) (v : Half) (ha : Admitted .ev (ttOffset c) s) (hb : BusOk 1 s) :
    ∃ t, opGap (txnWrTt c v) s = (.ok (), t) ∧ Ran 1 [okTxn (wrTtKey c) v] s t ∧ EntryWritten c v s t := by
  obtain ⟨g, hg, _, hx, hran⟩ := gapWrite_ran (key := wrTtKey c) (v := v) (cond := noCondition) (eff := ttWrite c v)
    ha hb (fun _ _ => rfl) fun _ => ⟨rfl, rfl, rfl⟩
  have written : EntryWritten c v g ((ttWrite c v g.nextBus).logTxn (okTxn (wrTtKey c) v)) := rfl
  exact ⟨_, hx, hran, written.after hg.hw.registers hg.cfg⟩

/-- A confirmed write of an entry whose two transactions succeed: it answers what the comparison says, and the entry is
written either way. -/
theorem confirmTt_answers {s : State} (c : Byte) (v : Half) (ha : Admitted .ev (ttOffset c) s) (hb : BusOk 2 s) :
    ∃ t rb, confirmTt c v s =
        (if confirmCheck s.cfg .ev (ttOffset c) v rb then .ok () else .error (.error .busAccessFailure), t) ∧
      Ran 2 [okTxn (wrTtKey c) v, okTxn (rdTtKey c) rb] s t ∧ EntryWritten c v s t ∧
      (s.cfg.ttHighBitsStored = true → rb = v) ∧ routingMask rb = routingMask v := by
  obtain ⟨t1, hx1, hran1, hw1⟩ := txnWrTt_run c v ha hb.first'
  obtain ⟨t, rb, hx, hran2, hreg, hfull, hmask⟩ := txnRdTt_run c (hran1.admitted ha) (hran1.busOk (n := 1) hb)
  have hran := hran1.trans hran2
  refine ⟨t, rb, ?_, hran, hw1.before hreg, fun hs => ?_, hmask.trans hw1.mask⟩
  · unfold confirmTt confirmWrite
    rw [opThen_ok hx1, opThen_ok hx, hran.cfg]
    split <;> rfl
  · rw [hfull (hran1.cfg ▸ hs), hw1.entry_of_stored hs]

/-- A confirmed write of an entry whose confirm read fails leaves the write (R353). -/
theorem confirmTt_readFailed {s : State} (c : Byte) (v : Half) (ha : Admitted .ev (ttOffset c) s) (hb : BusOk 1 s)
    (hf : (s.env.bus.at 1).ok = false) :
    ∃ t, confirmTt c v s = (.error (.error .busAccessFailure), t) ∧ EntryWritten c v s t ∧
      t.host.log = s.host.log ++ [okTxn (wrTtKey c) v, { key := rdTtKey c, value := none, ok := false }] ∧
      t.host.current = s.host.current ∧ t.host.drv = s.host.drv := by
  obtain ⟨t1, hx1, hran, hw⟩ := txnWrTt_run c v ha hb
  obtain ⟨t, hx, hlog, hreg, hcur, hdrv⟩ := txnRdTt_failed c (hran.admitted ha) (by rw [hran.bus]; exact hf)
  refine ⟨t, ?_, hw.before hreg, ?_, hcur.trans hran.current, hdrv.trans hran.drv⟩
  · unfold confirmTt confirmWrite
    rw [opThen_ok hx1, opThen_error hx]
  · rw [hlog, hran.log, List.append_assoc]
    rfl

/-- R152: an entry's confirm read passes the default comparison when it reads back the value written. -/
theorem confirmCheck_ev_standard {cfg : Config} (h : cfg.confirmRule = .standard) (off : Nat) (v rb : Half) :
    confirmCheck cfg .ev off v rb = true ↔ rb = v := by
  simp [confirmCheck, h]

theorem confirmCheck_other {cfg : Config} (h : cfg.confirmRule = .other) (w : Window) (off : Nat) (v rb : Half) :
    confirmCheck cfg w off v rb = Config.otherConfirm w off v rb := by
  rw [confirmCheck, h]

/-! ### SET_TRIGGER and GET_TRIGGER (R203, R204, R208) -/

section TriggerCalls

variable {n : Nat} {b : Byte} {s : State} (code : Byte) (enabled : Bool)

theorem exec_setTrigger (hr : ReadyToCall n s) (h7 : b.toNat ≤ 7) :
    exec (.setTrigger code b enabled) s =
      .next (endCall (setTriggerBody code b enabled (s.setLock (.held (.task n))))) :=
  hostCall_runs hr.1 (if_pos hr.2.1) (decide_eq_true h7) hr.2.2

theorem exec_getTrigger (hr : ReadyToCall n s) (h7 : b.toNat ≤ 7) :
    exec (.getTrigger code b) s = .next (endCall (getTriggerBody code b (s.setLock (.held (.task n))))) :=
  hostCall_runs hr.1 (if_pos hr.2.1) (decide_eq_true h7) hr.2.2

/-- The state in which a call's body runs may access every entry (R74, R335). -/
theorem admitted_entry (hr : ReadyToCall n s) (hv : s.cfg.Valid) :
    Admitted .ev (ttOffset code) (s.setLock (.held (.task n))) :=
  ⟨tt_inside hv code, ReadyToCall.inside hr.1⟩

/-- R203: SET_TRIGGER reads the entry, and goes on as a confirmed write of what it read with one bit changed. -/
theorem setTriggerBody_read (ha : Admitted .ev (ttOffset code) s) (hb : BusOk 1 s) :
    ∃ t w, setTriggerBody code b enabled s = asDone (confirmTt code (withTriggerBit w b enabled)) t ∧
      Ran 1 [okTxn (rdTtKey code) w] s t ∧ t.hw.registers = s.hw.registers ∧
      (s.cfg.ttHighBitsStored = true → w = ttEntry s.hw.tt code) ∧
      routingMask w = routingMask (ttEntry s.hw.tt code) := by
  obtain ⟨t, w, hx, h⟩ := txnRdTt_run code ha hb
  exact ⟨t, w, opThen_ok hx, h⟩

/-- A SET_TRIGGER whose three transactions succeed: `w` is what it read and `rb` what it read back, and its body ends
in `t`. -/
structure TriggerSet (n : Nat) (code b : Byte) (enabled : Bool) (w rb : Half) (s t : State) : Prop where
  ends    : exec (.setTrigger code b enabled) s = .next ((t.setLock .free).giveReturn
    (if confirmCheck s.cfg .ev (ttOffset code) (withTriggerBit w b enabled) rb then .done
      else .error .busAccessFailure))
  ran     : Ran 3 [okTxn (rdTtKey code) w, okTxn (wrTtKey code) (withTriggerBit w b enabled), okTxn (rdTtKey code) rb]
    (s.setLock (.held (.task n))) t
  written : EntryWritten code (withTriggerBit w b enabled) s t
  full    : s.cfg.ttHighBitsStored = true → w = ttEntry s.hw.tt code ∧ rb = withTriggerBit w b enabled
  mask    : routingMask w = routingMask (ttEntry s.hw.tt code)
  confirm : routingMask rb = routingMask (withTriggerBit w b enabled)

theorem setTrigger_ends (hr : ReadyToCall n s) (h7 : b.toNat ≤ 7) (hv : s.cfg.Valid) (hb : BusOk 3 s) :
    ∃ t w rb, TriggerSet n code b enabled w rb s t := by
  have ha := admitted_entry code hr hv
  obtain ⟨t1, w, hx1, hran1, hreg1, hfull1, hmask1⟩ := setTriggerBody_read (b := b) code enabled ha hb.first'
  obtain ⟨t, rb, hx, hran2, hw, hfull2, hmask2⟩ := confirmTt_answers code (withTriggerBit w b enabled)
    (hran1.admitted ha) (hran1.busOk (n := 1) hb)
  rw [hran1.cfg] at hx hfull2
  refine ⟨t, w, rb, ?_, hran1.trans hran2, hw.after hreg1 hran1.cfg, fun hs => ⟨hfull1 hs, hfull2 hs⟩, hmask1, hmask2⟩
  rw [exec_setTrigger code enabled hr h7, hx1, endCall_asDone hx]
  rfl

/-- R353: SET_TRIGGER's first read fails. -/
theorem setTrigger_readFailed (hr : ReadyToCall n s) (h7 : b.toNat ≤ 7) (hv : s.cfg.Valid)
    (hf : (s.env.bus.at 0).ok = false) :
    ∃ t : State, exec (.setTrigger code b enabled) s =
        .next ((t.setLock .free).giveReturn (.error .busAccessFailure)) ∧
      t.host.log = s.host.log ++ [{ key := rdTtKey code, value := none, ok := false }] ∧
      t.hw.registers = s.hw.registers ∧ t.host.current = s.host.current ∧ t.host.drv = s.host.drv := by
  obtain ⟨t, hx, h⟩ := txnRdTt_failed code (admitted_entry code hr hv) hf
  have body : setTriggerBody code b enabled (s.setLock (.held (.task n))) = (.error (.error .busAccessFailure), t) :=
    opThen_error hx
  exact ⟨t, by rw [exec_setTrigger code enabled hr h7, endCall_error body], h⟩

/-- R353: SET_TRIGGER's confirm read fails. -/
theorem setTrigger_confirmFailed (hr : ReadyToCall n s) (h7 : b.toNat ≤ 7) (hv : s.cfg.Valid) (hb : BusOk 2 s)
    (hf : (s.env.bus.at 2).ok = false) :
    ∃ t w, exec (.setTrigger code b enabled) s = .next ((t.setLock .free).giveReturn (.error .busAccessFailure)) ∧
      t.host.log = s.host.log ++ [okTxn (rdTtKey code) w, okTxn (wrTtKey code) (withTriggerBit w b enabled),
        { key := rdTtKey code, value := none, ok := false }] ∧
      EntryWritten code (withTriggerBit w b enabled) s t ∧ routingMask w = routingMask (ttEntry s.hw.tt code) ∧
      t.host.current = s.host.current ∧ t.host.drv = s.host.drv := by
  have ha := admitted_entry code hr hv
  obtain ⟨t1, w, hx1, hran, hreg, _, hmask⟩ := setTriggerBody_read (b := b) code enabled ha hb.first'
  obtain ⟨t, hx, hw, hlog, hcur, hdrv⟩ := confirmTt_readFailed code (withTriggerBit w b enabled) (hran.admitted ha)
    (hran.busOk (n := 1) hb) (by rw [hran.bus]; exact hf)
  have body : asDone (confirmTt code (withTriggerBit w b enabled)) t1 = (.error (.error .busAccessFailure), t) :=
    opThen_error hx
  refine ⟨t, w, ?_, ?_, hw.after hreg hran.cfg, hmask, hcur.trans hran.current, hdrv.trans hran.drv⟩
  · rw [exec_setTrigger code enabled hr h7, hx1, endCall_error body]
  · rw [hlog, hran.log, List.append_assoc]
    rfl

end TriggerCalls

/-- With the high bits stored and the default comparison the confirm read passes. -/
theorem TriggerSet.ends_done {n : Nat} {code b : Byte} {enabled : Bool} {w rb : Half} {s t : State}
    (h : TriggerSet n code b enabled w rb s t) (hs : s.cfg.ttHighBitsStored = true) (hstd : s.cfg.confirmRule = .standard) :
    exec (.setTrigger code b enabled) s = .next ((t.setLock .free).giveReturn .done) := by
  rw [h.ends, if_pos ((confirmCheck_ev_standard hstd _ _ _).mpr (h.full hs).2)]

/-- R203: the bits of a word written with one bit changed, where bits 7..0 of the word before it are those of `e`. -/
theorem withTriggerBit_mask_bit {w e : Half} {b : Byte} {enabled : Bool} (h : routingMask w = routingMask e) {j : Nat}
    (hj : j < 8) : (withTriggerBit w b enabled).getLsbD j = if j = b.toNat then enabled else e.getLsbD j := by
  rw [withTriggerBit_bit w b enabled (by omega), getLsbD_of_routingMask h hj]

/-- Settles O45: three transactions that succeed, with what their comparison says; the first read failing; the confirm
read failing. -/
theorem setTriggerChangesOneBit : Obligations.SetTriggerChangesOneBit := by
  intro n code b enabled s hr h7 hv
  have ⟨hk, hd, _⟩ := hr
  have returned {r : Result} {t : State} (h : t.host.current = s.host.current) :
      Returned (.task n) r ((t.setLock .free).giveReturn r) := giveReturn_returned (h.trans hk)
  simp only [← rdTtKey_eq, ← wrTtKey_eq]
  refine ⟨fun hs hstd hb => ?_, fun hb => ?_, fun hf => ?_, fun hb hf => ?_⟩
  · obtain ⟨t, w, rb, h⟩ := setTrigger_ends code enabled hr h7 hv hb
    have hx := h.ends_done hs hstd
    obtain ⟨rfl, rfl⟩ := h.full hs
    exact ⟨_, _, hx, returned h.ran.current, h.written.registers, h.written.entry_of_stored hs, h.written.other,
      fun j hj => withTriggerBit_bit _ _ _ hj, h.ran.log, rfl, h.ran.drv.trans hd⟩
  · obtain ⟨t, w, rb, h⟩ := setTrigger_ends code enabled hr h7 hv hb
    refine ⟨_, w, _, rb, h.ends, h.ran.log, fun hstd => ?_, fun hother => ?_,
      fun j hj => getLsbD_of_routingMask h.mask hj, fun j hj => withTriggerBit_bit _ _ _ hj,
      fun j hj => ⟨getLsbD_of_routingMask h.confirm hj, getLsbD_of_routingMask h.written.mask hj⟩,
      h.written.other, rfl, h.ran.drv.trans hd⟩
    · rw [if_congr (confirmCheck_ev_standard hstd _ _ _) rfl rfl]
      exact returned h.ran.current
    · rw [confirmCheck_other hother]
      exact returned h.ran.current
  · obtain ⟨t, hx, hlog, hreg, hcur, hdrv⟩ := setTrigger_readFailed code enabled hr h7 hv hf
    exact ⟨_, hx, returned hcur, hlog, hreg, rfl, hdrv.trans hd⟩
  · obtain ⟨t, w, hx, hlog, hw, hmask, hcur, hdrv⟩ := setTrigger_confirmFailed code enabled hr h7 hv hb hf
    exact ⟨_, w, _, hx, returned hcur, hlog,
      fun j hj => (getLsbD_of_routingMask hw.mask hj).trans (withTriggerBit_mask_bit hmask hj), hw.other, rfl,
      hdrv.trans hd⟩

/-- Settles O46: the one read delivers bits 7..0 of the entry, and the operation's bit is one of them. -/
theorem getTriggerReturnsTheBit : Obligations.GetTriggerReturnsTheBit := by
  intro n code b s hr h7 hv hb
  have ⟨hk, hd, _⟩ := hr
  obtain ⟨t, w, hx, hran, hreg, _, hmask⟩ := txnRdTt_run code (admitted_entry code hr hv) hb
  have bits (j : Nat) (hj : j < 8) : w.getLsbD j = (ttEntry s.hw.tt code).getLsbD j := getLsbD_of_routingMask hmask hj
  have body : getTriggerBody code b (s.setLock (.held (.task n))) =
      (.ok (.truth ((ttEntry s.hw.tt code).getLsbD b.toNat)), t) := by
    rw [← bits b.toNat (by omega), ← triggerBit_eq]
    exact opThen_ok hx
  rw [exec_getTrigger code hr h7, endCall_ok body, ← rdTtKey_eq]
  exact ⟨_, w, rfl, giveReturn_returned (hran.current.trans hk), hreg, hran.log, bits, rfl, hran.drv.trans hd⟩

/-- Settles O47: after SET_TRIGGER the task may call again, and the entry it left has the bit set as asked. -/
theorem setThenGetRoundTrips : Obligations.SetThenGetRoundTrips := by
  intro n code b enabled s hr h7 hv hs hstd hb
  have ⟨hk, hd, _⟩ := hr
  obtain ⟨t, w, rb, h⟩ := setTrigger_ends code enabled hr h7 hv fun j hj => hb j (by omega)
  have hcur : t.host.current = .task n := h.ran.current.trans hk
  have hready : ReadyToCall n ((t.setLock .free).giveReturn .done) := ⟨hcur, h.ran.drv.trans hd, rfl⟩
  obtain ⟨u, _, hu, hret, _⟩ := getTriggerReturnsTheBit n code b _ hready h7 (h.ran.cfg ▸ hv)
    (h.ran.busOk (n := 3) (m := 1) hb)
  refine ⟨_, u, h.ends_done hs hstd, hu, giveReturn_returned hcur, ?_⟩
  have bit : (ttEntry t.hw.tt code).getLsbD b.toNat = enabled := by
    rw [h.written.entry_of_stored hs, withTriggerBit_bit _ _ _ (by omega), if_pos rfl]
  exact bit ▸ hret

/-! ### Clearing the table (R205, R236; log 12) -/

/-- A sub-step of the configuration whose body succeeds and leaves every entry 0. -/
theorem configuration_ends {i : Instr} {body : Op Unit} {n k : Nat} {l : List Txn} {f : Registers → Registers}
    {s t : State} {tt : Vector Half 256}
    (hx : exec i s = subStep .configuringTriggers .configuringTriggers body s)
    (h : InsideConstruct n .configuringTriggers s) (hrun : body s = (.ok (), t)) (hran : Ran k l s t)
    (hreg : t.hw.registers = { f s.hw.registers with tt := tt }) (hz : ∀ c, ttEntry tt c = 0x0000) :
    ∃ t, exec i s = .next t ∧ Returned (.task n) .done t ∧ (∀ c, ttEntry t.hw.tt c = 0x0000) ∧
      t.hw.registers = { f s.hw.registers with tt := t.hw.tt } ∧ t.host.log = s.host.log ++ l ∧
      t.host.drv = .configuringTriggers ∧ t.host.lock = .held (.task n) := by
  obtain rfl : t.hw.tt = tt := congrArg Registers.tt hreg
  obtain ⟨hk, hd, hl⟩ := h
  rw [hx, subStep_runs ⟨hk, hd, hl⟩, endSubStep_ok hrun]
  exact ⟨_, rfl, giveReturn_returned (hran.current.trans hk), hz, hreg, hran.log, rfl,
    hk ▸ hran.held (hk.symm ▸ hl)⟩

/-- Settles O52: both sub-steps are their bodies' confirmed writes. -/
theorem tableIsClearedEntryByEntry : Obligations.TableIsClearedEntryByEntry := by
  intro n s hv hstd hs h
  have ⟨hk, _, hheld⟩ := h
  have hl : s.host.lock = .held s.host.current := hk.symm ▸ hheld
  refine ⟨fun hb => ?_, fun hb => ?_⟩
  · obtain ⟨t, tt, hrun, hran, hreg, hz⟩ := clearTable_run hv hl hb hs hstd
    exact configuration_ends (f := id) rfl h hrun hran hreg hz
  · obtain ⟨t, tt, hrun, hran, hreg, hz⟩ := configureBody_run hv hl hb hs hstd
    rw [List.append_assoc]
    exact configuration_ends (f := fun r => { r with wrTrigSel := 0x00, clrTrigSel := 0x00 }) rfl h hrun hran hreg hz

end Sys2Proof.Machine

namespace Sys2Proof.Machine

/-! ### The moves of the driver (R230, R239) -/

@[simp] theorem endCall_drv (r : Except Stop Result × State) : (endCall r).host.drv = r.2.host.drv := by
  simp [endCall_eq]

/-- A sub-step makes its transition or fails (R230, R231). -/
theorem endSubStep_drv (next : DriverState) (r : Except Stop Unit × State) :
    (endSubStep next r).host.drv = next ∨ (endSubStep next r).host.drv = .failed := by
  match r with
  | (.ok _, t) => exact .inl rfl
  | (.error (.error e), t) => exact .inr rfl
  | (.error (.refused c), t) => exact .inr rfl

theorem DriverMove.ofEq {d d' : DriverState} (h : d' = d) : DriverMove d d' := h ▸ .stay d

theorem ExecCase.driverMove {i : Instr} {s t : State} (h : ExecCase i s t) : DriverMove s.host.drv t.host.drv := by
  cases h with
  | marked r => exact .stay _
  | returned r => exact .stay _
  | waits n k hk hl => exact .stay _
  | txn op hb hl => exact .ofEq ((endTxn_drv _).trans (hb _ sameDriver_closed s))
  | call n op hb hk hl hd => exact .ofEq ((endCall_drv _).trans (hb _ sameDriver_closed _))
  | construct n hk hl hd =>
    rw [endCall_drv, hd]
    rcases constructBody_ends (s.setLock (.held (.task n))) with ⟨_, hc⟩ | ⟨_, hc⟩ <;> rw [hc]
    · exact .constructed
    · exact .constructFailed
  | sub n d next op hb hi hm hf hn hc =>
    obtain ⟨_, rfl, _⟩ := hi
    rcases endSubStep_drv next (op s) with h | h <;> rw [h]
    · exact hm
    · exact hf
  | agent t hk hh hl hf => exact .ofEq hk.drv
  | again n k hk hl => exact .stay _
  | unlock hl => exact .stay _

theorem exec_driverMove {i : Instr} {s t : State} (h : exec i s = .next t) : DriverMove s.host.drv t.host.drv :=
  (exec_case_of h).driverMove

theorem step_driverMove {s t : State} (h : step s = .next t) : DriverMove s.host.drv t.host.drv := by
  cases step_case h with
  | idle => exact .stay _
  | passes ts => exact .stay _
  | rejected ts k r => exact .stay _
  | host ts k i t hk h => exact (exec_driverMove h :)
  | agent ts i t ha h => exact (exec_driverMove h :)
  | resume ts n op t hw h => exact (exec_driverMove h :)

theorem DriverMove.of_collecting {d : DriverState} (h : DriverMove .collecting d) : d = .collecting := by
  cases h
  rfl

theorem DriverMove.of_failed {d : DriverState} (h : DriverMove .failed d) : d = .failed := by
  cases h
  rfl

/-- Settles O13: the driver's move by the cases of a step; no move leaves Collecting or Failed. -/
theorem driverMovesAreTheListedOnes : Obligations.DriverMovesAreTheListedOnes := by
  intro s t h
  have move := step_driverMove h
  exact ⟨move, fun hd => (hd ▸ move).of_collecting, fun hd => (hd ▸ move).of_failed⟩

/-- With the driver Failed and the lock free, every case that could touch the hardware or the log asks for the lock or
for another driver state. -/
theorem ExecCase.failed_terminal {i : Instr} {s t : State} (h : ExecCase i s t) (ha : isAgentStep i = false)
    (hd : s.host.drv = .failed) (hl : s.host.lock = .free) :
    t.hw = s.hw ∧ t.host.log = s.host.log ∧ t.host.lock = .free := by
  cases h with
  | marked r => exact ⟨rfl, rfl, hl⟩
  | returned r => exact ⟨rfl, rfl, hl⟩
  | waits n k hk hheld => exact ⟨rfl, rfl, hl⟩
  | txn op hb hheld => exact nomatch hl.symm.trans hheld
  | call n op hb hk hfree hc => exact nomatch hd.symm.trans hc
  | construct n hk hfree hu => exact nomatch hd.symm.trans hu
  | sub n d next op hb hi hm hf hn hc => exact nomatch hl.symm.trans hi.2.2
  | agent t hk hh hheld hf => exact ⟨(hf ha).1, hk.log, (hk.failed hd).trans hl⟩
  | again n k hk hheld => exact ⟨rfl, rfl, hl⟩
  | unlock hheld => exact nomatch hl.symm.trans hheld

/-- Settles O17: by the cases of an instruction; that Failed stays is the driver's move. -/
theorem failedDriverIsTerminal : Obligations.FailedDriverIsTerminal := by
  intro i s t ha hd hl h
  obtain ⟨hhw, hlog, hlock⟩ := (exec_case_of h).failed_terminal ha hd hl
  exact ⟨hhw, hlog, (hd ▸ exec_driverMove h).of_failed, hlock⟩

/-! ### Calls outside their driver state (R231, R241, R360) -/

/-- Every construction sub-step is one body admitted in its driver state (log 12). -/
theorem exec_subStep {i : Instr} {d : DriverState} (h : subStepState i = some d) :
    ∃ next body, ∀ s, exec i s = subStep d next body s := by
  cases i with
  | probe | resetModule | clearTriggerTable | configureTriggers | startCollecting =>
    cases h
    exact ⟨_, _, fun _ => rfl⟩
  | _ => exact nomatch h

/-- Settles O42: each call looks at the context, then the driver state, then the lock. -/
theorem callsOutsideTheirDriverStateAreRefused : Obligations.CallsOutsideTheirDriverStateAreRefused := by
  refine ⟨fun i n s hi hk hd => ?_, fun n s hk hd => hostCall_refused hk (if_neg hd), fun i d n s hi hk hd => ?_,
    fun i d n s hi hk hd hl => ?_, fun i s hi hk => ?_⟩
  · obtain ⟨body, hx⟩ := exec_collectingCall hi
    rw [hx, hostCall_refused hk (if_neg hd)]
  · obtain ⟨next, body, hx⟩ := exec_subStep hi
    rw [hx, subStep_wrongState hk hd]
  · obtain ⟨next, body, hx⟩ := exec_subStep hi
    rw [hx, subStep_noLock hk hd hl]
  · rcases hi with hi | rfl | hi
    · obtain ⟨body, hx⟩ := exec_collectingCall hi
      rw [hx, hostCall_isr hk]
    · exact hostCall_isr hk
    · obtain ⟨d, hd⟩ := Option.isSome_iff_exists.mp hi
      obtain ⟨next, body, hx⟩ := exec_subStep hd
      rw [hx, subStep_isr hk]

/-! ### What a call returns (R350, R353, R356) -/

/-- The result with which a call's caller is told how its body ended (R356, R368). -/
def callResult : Except Stop Result → Result
  | .ok v => v
  | .error (.error e) => .error e
  | .error (.refused c) => .refused c

theorem endCall_returned (r : Except Stop Result × State) :
    Returned r.2.host.current (callResult r.1) (endCall r) := by
  match r with
  | (.ok v, t) => exact giveReturn_returned rfl
  | (.error (.error e), t) => exact giveReturn_returned rfl
  | (.error (.refused c), t) => exact giveReturn_returned rfl

@[simp] theorem endCall_log (r : Except Stop Result × State) : (endCall r).host.log = r.2.host.log := by
  match r with
  | (.ok v, t) => rfl
  | (.error (.error e), t) => rfl
  | (.error (.refused c), t) => rfl

/-- No transaction and no gap changes the context whose step it is (R331; log 10). -/
theorem sameContext_closed : Closed fun s t => t.host.current = s.host.current where
  refl _ := rfl
  trans _ _ _ x y := y.trans x
  gap s := (runGap_keeps s).current
  bus _ := rfl
  log _ _ := rfl
  effect _ _ h := by rw [h.host]
  lost _ _ _ h _ := by simp [h.host]

/-- An operation that ends well ends with no error as its value. -/
def EndsPlainly (m : Op Result) : Prop := ∀ s e, (m s).1 ≠ .ok (.error e)

theorem EndsPlainly.pure {v : Result} (h : ∀ e, v ≠ .error e) : EndsPlainly (opPure v) :=
  fun _ e hx => h e (Except.ok.inj hx)

theorem EndsPlainly.andThen {α : Type} {m : Op α} {k : α → Op Result} (hk : ∀ a, EndsPlainly (k a)) :
    EndsPlainly (opThen m k) := by
  intro s e hx
  obtain ⟨a, u, _, hu⟩ := opThen_ok_inv (t := (opThen m k s).2) (Prod.ext hx rfl)
  exact hk a u e (congrArg Prod.fst hu)

theorem EndsPlainly.asDone (m : Op Unit) : EndsPlainly (asDone m) := .andThen fun _ => .pure fun _ => nofun

/-- DECODE's result is no error (R130). -/
theorem recordResult_plain (raw : Word) (e : HostError) : recordResult raw ≠ .error e := by
  unfold recordResult
  split <;> exact nofun

theorem drainBody_plain : EndsPlainly drainBody := by
  refine .andThen fun w => ?_
  split
  · exact .pure fun _ => nofun
  · exact .andThen fun raw => .pure (recordResult_plain raw)

/-- What the body of a public operation in Collecting does: single transactions, of which the first failing one ends it
with the one error it knows. -/
structure CallBody (op : Op Result) : Prop where
  body  : Body op
  stops : StopsAtFailure (Eq .busAccessFailure) op
  plain : EndsPlainly op

theorem exec_collectingCall_runs {i : Instr} {n : Nat} {s : State} (hi : isCollectingCall i = true)
    (hp : paramsOk i = true) (hr : ReadyToCall n s) :
    ∃ op, CallBody op ∧ exec i s = .next (endCall (op (s.setLock (.held (.task n))))) := by
  obtain ⟨hk, hd, hl⟩ := hr
  have runs {self : Instr} {ok : Bool} {op : Op Result} (hok : ok = true) :
      hostCall self onlyCollecting ok op s = .next (endCall (op (s.setLock (.held (.task n))))) :=
    hostCall_runs hk (if_pos hd) hok hl
  cases i with
  | setTrigger code b enabled =>
    exact ⟨_, ⟨fun _ cl => cl.setTriggerBody code b enabled, setTriggerBody_stops rfl code b enabled,
      .andThen fun _ => .andThen fun _ => .pure fun _ => nofun⟩, runs hp⟩
  | getTrigger code b =>
    exact ⟨_, ⟨fun _ cl => cl.getTriggerBody code b, getTriggerBody_stops rfl code b,
      .andThen fun _ => .pure fun _ => nofun⟩, runs hp⟩
  | setResetTimestampTrigger t =>
    exact ⟨_, ⟨fun _ cl => cl.setResetTimestampBody t, setResetTimestampBody_stops rfl t,
      fun s => EndsPlainly.asDone _ s⟩, runs hp⟩
  | setWriteTrigger t =>
    exact ⟨_, ⟨fun _ cl => cl.setWriteTriggerBody t, setWriteTriggerBody_stops rfl t,
      fun s => EndsPlainly.asDone _ s⟩, runs hp⟩
  | setFifoThreshold level =>
    exact ⟨_, ⟨fun _ cl => cl.setFifoThresholdBody level, setFifoThresholdBody_stops rfl level, .asDone _⟩,
      runs ((levelOk_eq level).trans hp)⟩
  | readStatus =>
    exact ⟨_, ⟨fun _ cl => cl.readStatusBody, readStatusBody_stops rfl,
      .andThen fun _ => .andThen fun _ => .pure fun _ => nofun⟩, runs hp⟩
  | drainOneEvent =>
    exact ⟨_, ⟨fun _ cl => cl.drainBody, drainBody_stops rfl, drainBody_plain⟩, runs hp⟩
  | _ => exact nomatch hi

/-- A body that ends plainly makes its call return an error only where it stopped with that error. -/
theorem callResult_error {r : Except Stop Result} {e : HostError} (hp : ∀ e, r ≠ .ok (.error e))
    (h : callResult r = .error e) : r = .error (.error e) := by
  match r with
  | .ok v => exact absurd (congrArg Except.ok h) (hp e)
  | .error (.error e') =>
    cases h
    rfl
  | .error (.refused c) => exact nomatch h

/-- Settles O44: every operation's body stops at its first failing transaction, and the end of a call releases the
lock on each of its paths. -/
theorem callsReleaseTheLock : Obligations.CallsReleaseTheLock := by
  intro i n s hi hp hr
  obtain ⟨op, hop, hx⟩ := exec_collectingCall_runs hi hp hr
  have ⟨hk, hd, _⟩ := hr
  have hcur : (op (s.setLock (.held (.task n)))).2.host.current = .task n :=
    (hop.body _ sameContext_closed _).trans hk
  have hret := endCall_returned (op (s.setLock (.held (.task n))))
  rw [hcur] at hret
  obtain ⟨issued, hlog, hall, hfail, herr⟩ := hop.stops (s.setLock (.held (.task n)))
  refine ⟨_, _, issued, hx, endCall_lock _, (hd ▸ exec_driverMove hx).of_collecting, hret, ?_, hall,
    fun hf => congrArg callResult (hfail hf), fun e he => (herr e (callResult_error (hop.plain _) he)).symm⟩
  rw [endCall_log, hlog]
  rfl

/-! ### The construction's sub-steps by themselves (R230, R232 to R235, R238; log 12) -/

theorem InsideConstruct.holds {n : Nat} {d : DriverState} {s : State} (h : InsideConstruct n d s) :
    s.host.lock = .held s.host.current := h.1.symm ▸ h.2.2

/-- A sub-step whose body succeeds makes its transition, keeps the lock and returns. -/
theorem subStep_done {d next : DriverState} {body : Op Unit} {n k : Nat} {l : List Txn} {s t : State}
    (h : InsideConstruct n d s) (hrun : body s = (.ok (), t)) (hran : Ran k l s t) :
    ∃ u, subStep d next body s = .next u ∧ u.host.drv = next ∧ Returned (.task n) .done u ∧ u.hw = t.hw ∧
      u.host.lock = .held (.task n) ∧ u.host.log = s.host.log ++ l := by
  rw [subStep_runs h, endSubStep_ok hrun]
  refine ⟨_, rfl, rfl, giveReturn_returned (hran.current.trans h.1), rfl, ?_, hran.log⟩
  exact h.1 ▸ hran.held h.holds

/-- A sub-step whose body stops with an error fails the construction and frees the lock (R231, R240). -/
theorem subStep_error {d next : DriverState} {body : Op Unit} {n k : Nat} {l : List Txn} {e : HostError} {s t : State}
    (h : InsideConstruct n d s) (hrun : body s = (.error (.error e), t)) (hran : Ran k l s t) :
    ∃ u, subStep d next body s = .next u ∧ u.host.drv = .failed ∧ Returned (.task n) (.error e) u ∧ u.hw = t.hw ∧
      u.host.lock = .free ∧ u.host.log = s.host.log ++ l := by
  rw [subStep_runs h, hrun]
  exact ⟨_, rfl, rfl, giveReturn_returned (hran.current.trans h.1), rfl, rfl, hran.log⟩

/-- Settles O51: each sub-step is its body's two transactions; the probe's comparison decides how it ends. -/
theorem constructionSubStepsComplete : Obligations.ConstructionSubStepsComplete := by
  intro n s hv hstd hb
  refine ⟨fun h hhi hlo => ?_, fun h hid => ?_, fun h => ?_, fun h => ?_⟩
  · obtain ⟨t, hrun, hran, hreg⟩ := probeBody_run hv h.holds hb
    rw [if_pos ⟨hhi, hlo⟩] at hrun
    rw [hhi, hlo] at hran
    obtain ⟨u, hx, hd, hret, hhw, hlock, hlog⟩ := subStep_done (next := .resetting) h hrun hran
    exact ⟨u, hx, hd, hret, hhw ▸ hreg, hlock, hlog⟩
  · obtain ⟨t, hrun, hran, hreg⟩ := probeBody_run hv h.holds hb
    rw [if_neg hid] at hrun
    obtain ⟨u, hx, hd, hret, hhw, hlock, hlog⟩ := subStep_error (next := .resetting) h hrun hran
    exact ⟨u, hx, hd, hret, hhw ▸ hreg, hlock, hlog⟩
  · obtain ⟨t, hrun, hran, hctrl, hphase, _, _⟩ := resetBody_run hv h.holds hb hstd
    obtain ⟨u, hx, hd, hret, hhw, hlock, hlog⟩ := subStep_done (next := .configuringTriggers) h hrun hran
    exact ⟨u, hx, hd, hret, hhw ▸ hctrl, hhw ▸ hphase, hlock, hlog⟩
  · obtain ⟨t, hrun, hran, hreg⟩ := startBody_run hv h.holds hb hstd
    obtain ⟨u, hx, hd, hret, hhw, hlock, hlog⟩ := subStep_done (next := .collecting) h hrun hran
    exact ⟨u, hx, hd, hret, hhw ▸ hreg, hlock, hlog⟩

/-! ### The whole construction (R231, R234, R237) -/

/-- CONSTRUCT from Uninitialized with the lock free runs its body. -/
theorem exec_construct_runs {n : Nat} {s : State} (hk : s.host.current = .task n) (hd : s.host.drv = .uninitialized)
    (hl : s.host.lock = .free) :
    exec .construct s = .next (endCall (constructBody (s.setLock (.held (.task n))))) :=
  hostCall_runs hk (if_pos hd) rfl hl

theorem constructBody_ok {s t : State} {v : Result} (h : constructSteps s = (.ok v, t)) :
    constructBody s = (.ok v, t) := by
  rw [constructBody, h]

theorem constructBody_error {s t : State} {e : Stop} (h : constructSteps s = (.error e, t)) :
    constructBody s = (.error e, t.setDrv .failed) := by
  rw [constructBody, h]

/-- R234: on another module the steps stop after the probe's two reads. -/
theorem constructSteps_wrongModule {s : State} (hv : s.cfg.Valid) (hl : s.host.lock = .held s.host.current)
    (hb : BusOk 2 s) (hid : ¬ (s.hw.idHi = 0xBB ∧ s.hw.idLo = 0x15)) :
    ∃ t, constructSteps s = (.error (.error .deviceNotFound), t) ∧
      Ran 2 [okTxn 0x00000089 (byteValue s.hw.idHi), okTxn 0x0000008B (byteValue s.hw.idLo)] (s.setDrv .probing) t ∧
      t.hw.registers = s.hw.registers := by
  obtain ⟨t, hrun, hran, hreg⟩ := probeBody_run (s := s.setDrv .probing) hv hl hb
  exact ⟨t, (opThen_ok (enterState_eq .probing s)).trans (opThen_error (hrun.trans (if_neg hid))), hran, hreg⟩

/-- Settles O54: the probe is the first step of a construction, and it stops there. -/
theorem wrongModuleIsLeftUntouched : Obligations.WrongModuleIsLeftUntouched := by
  intro n s hk hd hl hv hid hb
  obtain ⟨t, hrun, hran, hreg⟩ :=
    constructSteps_wrongModule (s := s.setLock (.held (.task n))) hv (ReadyToCall.inside hk) hb hid
  rw [exec_construct_runs hk hd hl, endCall_error (constructBody_error hrun)]
  exact ⟨_, rfl, giveReturn_returned (hran.current.trans hk), rfl, rfl, hreg, hran.log⟩

/-- A state in which the lock's holder can run `n` more transactions of a construction whose confirm comparisons pass. -/
structure ConstructReady (n : Nat) (s : State) : Prop where
  valid    : s.cfg.Valid
  standard : s.cfg.confirmRule = .standard
  stored   : s.cfg.ttHighBitsStored = true
  holds    : s.host.lock = .held s.host.current
  bus      : BusOk n s

theorem ConstructReady.entered {n : Nat} {s : State} (h : ConstructReady n s) (d : DriverState) :
    ConstructReady n (s.setDrv d) :=
  ⟨h.valid, h.standard, h.stored, h.holds, h.bus⟩

theorem ConstructReady.after {n m : Nat} {l : List Txn} {s t : State} (h : ConstructReady (n + m) s)
    (hr : Ran n l s t) : ConstructReady m t where
  valid := hr.cfg ▸ h.valid
  standard := hr.cfg ▸ h.standard
  stored := hr.cfg ▸ h.stored
  holds := hr.current ▸ hr.held h.holds
  bus := hr.busOk h.bus

theorem ConstructReady.first {n m : Nat} {s : State} (h : ConstructReady (n + m) s) : BusOk n s :=
  fun j hj => h.bus j (Nat.lt_add_right m hj)

/-- R237: on a genuine module the steps run to their end. -/
theorem constructSteps_run {s : State} (h : ConstructReady 522 s) (hid : s.hw.idHi = 0xBB ∧ s.hw.idLo = 0x15) :
    ∃ (t : State) (r : Registers), constructSteps s = (.ok .done, t) ∧ t.host.current = s.host.current ∧
      t.host.log = s.host.log ++ constructionLog 0xBB 0x15 ∧
      t.hw.registers = { r with wrTrigSel := 0x00, clrTrigSel := 0x00, ctrl := 0x0001, tclkEnabled := true } ∧
      r.idHi = 0xBB ∧ r.idLo = 0x15 ∧ ∀ c, ttEntry r.tt c = 0x0000 := by
  have h0 : ConstructReady (2 + 520) (s.setDrv .probing) := h.entered _
  obtain ⟨t1, e1, r1, g1⟩ := probeBody_run h0.valid h0.holds h0.first
  replace e1 := e1.trans (if_pos hid)
  have h1 : ConstructReady (2 + 518) (t1.setDrv .resetting) := (h0.after r1).entered _
  obtain ⟨t2, e2, r2, _, _, hhi, hlo⟩ := resetBody_run h1.valid h1.holds h1.first h1.standard
  have h2 : ConstructReady (516 + 2) (t2.setDrv .configuringTriggers) := (h1.after r2).entered _
  obtain ⟨t3, tt, e3, r3, g3, hz⟩ := configureBody_run h2.valid h2.holds h2.first h2.stored h2.standard
  have h3 : ConstructReady 2 t3 := h2.after r3
  obtain ⟨t4, e4, r4, g4⟩ := startBody_run h3.valid h3.holds h3.bus h3.standard
  refine ⟨t4.setDrv .collecting, { t2.hw.registers with tt := tt }, ?_, ?_, ?_, ?_, ?_, ?_, hz⟩
  · unfold constructSteps
    rw [opThen_ok (enterState_eq ..), opThen_ok e1, opThen_ok (enterState_eq ..), opThen_ok e2,
      opThen_ok (enterState_eq ..), opThen_ok e3, opThen_ok e4, opThen_ok (enterState_eq ..), opPure_eq]
  · exact r4.current.trans (r3.current.trans (r2.current.trans r1.current))
  · have l1 : t1.host.log = s.host.log ++ _ := r1.log
    have l2 : t2.host.log = t1.host.log ++ _ := r2.log
    have l3 : t3.host.log = t2.host.log ++ _ := r3.log
    show t4.host.log = _
    rw [r4.log, l3, l2, l1]
    simp only [constructionLog, List.append_assoc, State.setDrv_hw, hid.1, hid.2]
    rfl
  · show t4.hw.registers = _
    rw [g4, g3]
    rfl
  · exact hhi.trans ((congrArg Registers.idHi g1).trans hid.1)
  · exact hlo.trans ((congrArg Registers.idLo g1).trans hid.2)

/-- Settles O53: the steps run to their end, and the end of the call frees the lock. -/
theorem constructionSucceeds : Obligations.ConstructionSucceeds := by
  intro n s hk hd hl hv hstd hs hhi hlo hb
  obtain ⟨t, r, hrun, hcur, hlog, hreg, rhi, rlo, hz⟩ :=
    constructSteps_run (s := s.setLock (.held (.task n))) ⟨hv, hstd, hs, ReadyToCall.inside hk, hb⟩ ⟨hhi, hlo⟩
  have hdrv := (constructSteps_ok hrun).2
  have htt : t.hw.tt = r.tt := congrArg Registers.tt hreg
  rw [← htt] at hz
  rw [exec_construct_runs hk hd hl, endCall_ok (constructBody_ok hrun)]
  exact ⟨_, rfl, giveReturn_returned (hcur.trans hk), hdrv, rfl, hlog, congrArg Registers.ctrl hreg,
    congrArg Registers.tclkEnabled hreg, congrArg Registers.wrTrigSel hreg, congrArg Registers.clrTrigSel hreg, hz,
    (congrArg Registers.idHi hreg).trans rhi, (congrArg Registers.idLo hreg).trans rlo⟩

/-! ### A construction on any bus (R231, R239, R240, R353) -/

/-- The lock's holder runs, in a configuration within R8's bounds. -/
def Holding (s : State) : Prop := s.cfg.Valid ∧ s.host.lock = .held s.host.current

/-- Run by the lock's holder, `m` is not refused, and the holder keeps the lock (R151, R335). -/
def NotRefused {α : Type} (m : Op α) : Prop :=
  ∀ s, Holding s → Holding (m s).2 ∧ ∀ c, (m s).1 ≠ .error (.refused c)

theorem Holding.ofAgent {s t : State} (h : Holding s) (ha : AgentKeeps s t) : Holding t :=
  ⟨ha.cfg ▸ h.1, ha.current ▸ ha.held _ h.2⟩

theorem Holding.ofEffect {s t : State} (h : Holding s) (he : HwOnly s t) : Holding t :=
  ⟨he.cfg ▸ h.1, he.host ▸ h.2⟩

section NotRefused

variable {α β : Type}

theorem NotRefused.pure (a : α) : NotRefused (opPure a) := fun _ h => ⟨h, fun _ => nofun⟩

theorem NotRefused.error (e : HostError) : NotRefused (opError e : Op α) := fun _ h => ⟨h, fun _ => nofun⟩

theorem NotRefused.enter (d : DriverState) : NotRefused (enterState d) := fun _ h => ⟨h, fun _ => nofun⟩

theorem NotRefused.andThen {m : Op α} {k : α → Op β} (hm : NotRefused m) (hk : ∀ a, NotRefused (k a)) :
    NotRefused (opThen m k) := by
  intro s h
  obtain ⟨ht, hc⟩ := hm s h
  rcases hx : m s with ⟨e | a, t⟩ <;> rw [hx] at ht hc
  · rw [opThen_error hx]
    exact ⟨ht, fun c he => hc c (congrArg _ (Except.error.inj he))⟩
  · rw [opThen_ok hx]
    exact hk a t ht

theorem NotRefused.afterGap {m : Op α} (hm : NotRefused m) : NotRefused (opGap m) :=
  fun s h => hm _ (h.ofAgent (runGap_keeps s))

variable {key : Word} {w : Window} {off : Nat} {cond : State → Option RefusalReason}

theorem NotRefused.read {eff : State → Half × State} (hi : ∀ s : State, s.cfg.Valid → off < s.cfg.windowSize w)
    (he : ∀ u, HwOnly u (eff u).2) : NotRefused (busRead key w off noCondition eff noTrace) := by
  intro s h
  have hr := refusal_none (cond := noCondition) ⟨hi s h.1, h.2⟩ rfl
  have read : Holding (eff s.nextBus).2 := Holding.ofEffect (s := s.nextBus) h (he _)
  cases hb : (s.env.bus.at 0).ok with
  | true =>
    rw [busRead_ok hr hb]
    exact ⟨read, fun _ => nofun⟩
  | false =>
    rw [busRead_failed hr hb]
    exact ⟨h, fun _ => nofun⟩

theorem NotRefused.write {v : Half} {eff : State → State}
    (hi : ∀ s : State, s.cfg.Valid → off < s.cfg.windowSize w) (hc : ∀ s, cond s = none) (he : ∀ u, HwOnly u (eff u)) :
    NotRefused (busWrite key w off cond v eff) := by
  intro s h
  have hr := refusal_none (cond := cond) ⟨hi s h.1, h.2⟩ (hc s)
  have taken : Holding (eff s.nextBus) := Holding.ofEffect (s := s.nextBus) h (he _)
  cases hb : (s.env.bus.at 0).ok with
  | true =>
    rw [busWrite_ok hr hb]
    exact ⟨taken, fun _ => nofun⟩
  | false =>
    rw [busWrite_failed hr hb]
    refine ⟨?_, fun _ => nofun⟩
    split
    · exact taken
    · exact h

theorem NotRefused.confirm {v : Half} {wr : Op Unit} {rd : Op Half} (hw : NotRefused wr) (hr : NotRefused rd) :
    NotRefused (confirmWrite w off v wr rd) := by
  refine .andThen (.afterGap hw) fun _ => .andThen (.afterGap hr) fun rb s h => ?_
  split <;> exact ⟨h, fun _ => nofun⟩

/-- A byte or word register of the control window below the identification bytes' end (R74). -/
theorem NotRefused.readReg {get : Hw → Half} (ho : off < 0x8C) : NotRefused (readReg key .cs off get) :=
  .read (fun _ hv => cs_inside hv ho) HwOnly.refl

theorem NotRefused.confirmTt (c : Byte) (v : Half) : NotRefused (confirmTt c v) :=
  .confirm (.write (fun _ hv => tt_inside hv c) (fun _ => rfl) fun _ => ⟨rfl, rfl, rfl⟩)
    (.read (fun _ hv => tt_inside hv c) (readTt_hwOnly c))

theorem NotRefused.clearEntries (cs : List Byte) : NotRefused (clearEntries cs) := by
  induction cs with
  | nil => exact .pure _
  | cons c cs ih => exact .andThen (.confirmTt c _) fun _ => ih

theorem NotRefused.confirmCtrl {v : Half} (hc : ∀ s, commandCondition v s = none) : NotRefused (confirmCtrl v) :=
  .confirm (.write (fun _ hv => cs_inside hv (by decide)) hc fun u => (controlEffect_step v u).hwOnly)
    (.readReg (by decide))

theorem NotRefused.confirmWrtrig (v : Byte) : NotRefused (confirmWrtrig v) :=
  .confirm (.write (fun _ hv => cs_inside hv (by decide)) (fun _ => rfl) fun _ => ⟨rfl, rfl, rfl⟩)
    (.readReg (by decide))

theorem NotRefused.confirmClrtrig (v : Byte) : NotRefused (confirmClrtrig v) :=
  .confirm (.write (fun _ hv => cs_inside hv (by decide)) (fun _ => rfl) fun _ => ⟨rfl, rfl, rfl⟩)
    (.readReg (by decide))

end NotRefused

theorem probeBody_notRefused : NotRefused probeBody := by
  refine .andThen (.afterGap (.readReg (by decide))) fun _ => .andThen (.afterGap (.readReg (by decide))) fun _ => ?_
  split
  · exact .pure _
  · exact .error _

theorem configureBody_notRefused : NotRefused configureBody :=
  .andThen (.confirmWrtrig _) fun _ => .andThen (.confirmClrtrig _) fun _ => .clearEntries _

theorem startBody_notRefused : NotRefused startBody := by
  intro s h
  have hx := NotRefused.confirmCtrl (v := 0x0001) (fun _ => rfl) s h
  unfold startBody
  split <;> rename_i t ht <;> rw [ht] at hx
  · exact hx
  · exact ⟨hx.1.ofEffect (redrawTclk_step t).hwOnly, fun _ => nofun⟩
  · exact hx

theorem constructSteps_notRefused : NotRefused constructSteps :=
  .andThen (.enter _) fun _ => .andThen probeBody_notRefused fun _ =>
  .andThen (.enter _) fun _ => .andThen (.confirmCtrl fun _ => rfl) fun _ =>
  .andThen (.enter _) fun _ => .andThen configureBody_notRefused fun _ =>
  .andThen startBody_notRefused fun _ => .andThen (.enter _) fun _ => .pure _

theorem constructBody_notRefused : NotRefused constructBody := by
  intro s h
  obtain ⟨ht, hc⟩ := constructSteps_notRefused s h
  rcases hx : constructSteps s with ⟨e | v, t⟩ <;> rw [hx] at ht hc
  · rw [constructBody_error hx]
    exact ⟨ht, fun c he => hc c (congrArg _ (Except.error.inj he))⟩
  · rw [constructBody_ok hx]
    exact ⟨ht, fun _ => nofun⟩

/-- Run by the lock's holder, CONSTRUCT's body ends well in Collecting, or stopped in Failed by a failing transaction or
by the probe's comparison. -/
theorem constructBody_outcome {s : State} (h : Holding s) :
    ∃ issued, (constructBody s).2.host.log = s.host.log ++ issued ∧ (∀ e ∈ issued.dropLast, e.ok = true) ∧
      (((constructBody s).2.host.drv = .collecting ∧ (constructBody s).1 = .ok .done ∧ ∀ e ∈ issued, e.ok = true) ∨
       ((constructBody s).2.host.drv = .failed ∧ ((constructBody s).1 = .error (.error .busAccessFailure) ∨
          (constructBody s).1 = .error (.error .deviceNotFound) ∧ ∀ e ∈ issued, e.ok = true))) := by
  obtain ⟨issued, hlog, hall, hfail, herr⟩ :=
    constructBody_stops (E := fun e => e = .busAccessFailure ∨ e = .deviceNotFound) (.inl rfl) (.inr rfl) s
  have ok (hn : (constructBody s).1 ≠ .error (.error .busAccessFailure)) : ∀ e ∈ issued, e.ok = true := fun e he => by
    by_contra hf
    exact hn (hfail ⟨e, he, Bool.eq_false_iff.mpr hf⟩)
  refine ⟨issued, hlog, hall, ?_⟩
  rcases constructBody_ends s with ⟨hr, hd⟩ | ⟨⟨e, hr⟩, hd⟩
  · exact .inl ⟨hd, hr, ok (hr ▸ nofun)⟩
  · refine .inr ⟨hd, ?_⟩
    match e with
    | .refused c => exact absurd hr ((constructBody_notRefused s h).2 c)
    | .error e =>
      rcases herr e hr with rfl | rfl
      · exact .inl hr
      · exact .inr ⟨hr, ok (hr ▸ nofun)⟩

/-- Settles O55: what the body answers is what the end of the call returns. -/
theorem constructionEndsOneWayOrTheOther : Obligations.ConstructionEndsOneWayOrTheOther := by
  intro n s hk hd hl hv
  have hcur : (constructBody (s.setLock (.held (.task n)))).2.host.current = .task n :=
    (sameContext_closed.constructBody (fun _ _ => rfl) _).trans hk
  have hret := endCall_returned (constructBody (s.setLock (.held (.task n))))
  have held : Holding (s.setLock (.held (.task n))) := ⟨hv, ReadyToCall.inside hk⟩
  obtain ⟨issued, hlog, hall, hend⟩ := constructBody_outcome held
  rw [hcur] at hret
  refine ⟨_, issued, exec_construct_runs hk hd hl, endCall_lock _, (endCall_log _).trans hlog, hall, ?_⟩
  rw [endCall_drv]
  rcases hend with ⟨hc, hr, hok⟩ | ⟨hf, hr | ⟨hr, hok⟩⟩ <;> rw [hr] at hret
  · exact .inl ⟨hc, hret, hok⟩
  · exact .inr ⟨hf, .inl hret⟩
  · exact .inr ⟨hf, .inr ⟨hret, hok⟩⟩

end Sys2Proof.Machine

namespace Sys2Proof.Machine

/-! ### What the status word tells (R260, R262) -/

/-- Settles O23: the operation is pure and returns the decoder's flags, which are the named bits. -/
theorem decodeStatusReadsEachBit : Obligations.DecodeStatusReadsEachBit := by
  intro s w
  rw [← statusFlags_eq_bits]
  rfl

/-- R262: an empty FIFO of depth 1 or more is not full. -/
theorem statusWord_not_empty_and_full {depth : Nat} (h : 1 ≤ depth) (hw : Hw) (bit15 : Bool) :
    ¬ ((statusFlags (statusWord depth hw bit15)).fifoEmpty = true ∧
      (statusFlags (statusWord depth hw bit15)).fifoFull = true) := by
  rw [(statusWordDecodesToItsFlags depth hw bit15).1]
  rintro ⟨he, hf⟩
  have hlen : hw.fifo.length = depth := of_decide_eq_true hf
  rw [of_decide_eq_true he, List.length_nil] at hlen
  omega

/-- Settles O24: RD_STATUS returns a composed word of the module's depth. -/
theorem statusNeverEmptyAndFull : Obligations.StatusNeverEmptyAndFull := by
  refine ⟨fun _ hw bit15 h => statusWord_not_empty_and_full h hw bit15, fun s hv ha hb => ?_⟩
  obtain ⟨_, _, _, hdepth⟩ := hv
  obtain ⟨t, bit15, hx, hret, -⟩ := statusReadReturnsTheWord s ha hb
  refine ⟨t, _, hx, hret, ?_⟩
  rw [BitVec.setWidth_setWidth_of_le _ (by decide), BitVec.setWidth_eq]
  exact statusWord_not_empty_and_full hdepth s.hw bit15

/-! ### Status transactions within an operation (R155, R156; log 6) -/

/-- Every edge flag is clear (R42), the rest as it was. -/
def Hw.edgesCleared (hw : Hw) : Hw :=
  { hw with mdatParityErr := false, fifoUnderflow := false, fifoOverflow := false, fifoThreshold := false,
            tclkParityErr := false }

/-- R156: what a status read leaves, `clears` saying whether it clears the edge flags. -/
def Hw.afterStatusRead (clears : Bool) (hw : Hw) : Hw := if clears then hw.edgesCleared else hw

@[simp] theorem Hw.afterStatusRead_fifo (clears : Bool) (hw : Hw) : (hw.afterStatusRead clears).fifo = hw.fifo := by
  cases clears <;> rfl

@[simp] theorem Hw.afterStatusRead_fifoPhase (clears : Bool) (hw : Hw) :
    (hw.afterStatusRead clears).fifoPhase = hw.fifoPhase := by
  cases clears <;> rfl

theorem Hw.afterStatusRead_edgesCleared (clears : Bool) (hw : Hw) :
    hw.edgesCleared.afterStatusRead clears = hw.edgesCleared := by
  cases clears <;> rfl

/-- R266: the write-back of the word clears every edge flag, whether or not the read that gave it did. -/
theorem clearEdgeFlags_afterStatusRead (clears : Bool) (depth : Nat) (hw : Hw) (bit15 : Bool) :
    clearEdgeFlags (statusWord depth hw bit15) (hw.afterStatusRead clears) = hw.edgesCleared := by
  cases clears with
  | false => exact clearEdgeFlags_statusWord depth hw bit15
  | true => simp [Hw.afterStatusRead, Hw.edgesCleared, clearEdgeFlags]

/-- R400: the write-back of a status word keeps an edge flag that the word does not show. -/
theorem clearEdgeFlags_keeps_unshown (depth : Nat) (snap hw : Hw) (bit15 : Bool) :
    ∀ f ∈ edgeFlags, f snap = false → f hw = true → f (clearEdgeFlags (statusWord depth snap bit15) hw) = true := by
  simp only [edgeFlags, List.forall_mem_cons, clearEdgeFlags, statusWord_getLsbD, Nat.reduceLT]
  simp +contextual

theorem runGap_gapless {s : State} (h : s.env.gaps = []) : (runGap s).env.gaps = [] := by
  rw [runGap_none h, h]

/-- A transaction that succeeds after the gap before it. -/
theorem Ran.afterGap {key : Word} {v : Half} {s t : State} (h : HwOnly (runGap s).nextBus t) :
    Ran 1 [okTxn key v] s (t.logTxn (okTxn key v)) :=
  (Ran.ofGap (runGap_keeps s)).trans (Ran.ofTxn h)

section StatusTransactions

variable {s : State} (ha : Admitted .cs 0x42 s) (hb : BusOk 1 s)

include ha hb

/-- R156: a status read shows the hardware as the agents leave it in the gap before it. -/
theorem txnRdStatus_run :
    ∃ bit15 t, txnRdStatus (runGap s) = (.ok (statusWord s.cfg.fifoDepth (runGap s).hw bit15), t) ∧
      Ran 1 [okTxn 0x10000042 (statusWord s.cfg.fifoDepth (runGap s).hw bit15)] s t ∧
      t.hw = (runGap s).hw.afterStatusRead s.cfg.statusClearOnRead ∧ t.env.gaps = (runGap s).env.gaps := by
  have hg := runGap_keeps s
  have hx : txnRdStatus (runGap s) = _ :=
    busRead_ok (refusal_none ((Ran.ofGap hg).admitted ha) rfl) (by rw [hg.bus]; exact hb.first)
  have step := statusRead_step (runGap s).nextBus
  rw [← hg.cfg]
  exact ⟨_, _, hx, .afterGap step.hwOnly, statusRead_hw (runGap s).nextBus, step.gaps⟩

/-- R155: a status write clears the flags of its word in what the agents leave in the gap before it. -/
theorem txnWrStatus_run (v : Half) :
    ∃ t, txnWrStatus v (runGap s) = (.ok (), t) ∧ Ran 1 [okTxn 0x50000042 v] s t ∧
      t.hw = clearEdgeFlags v (runGap s).hw ∧ t.env.gaps = (runGap s).env.gaps := by
  have hg := runGap_keeps s
  have hx : txnWrStatus v (runGap s) = _ :=
    busWrite_ok (refusal_none ((Ran.ofGap hg).admitted ha) rfl) (by rw [hg.bus]; exact hb.first)
  exact ⟨_, hx, .afterGap ⟨rfl, rfl, rfl⟩, rfl, rfl⟩

end StatusTransactions

/-! ### READ_STATUS (R266, R268, R400) -/

/-- A public operation without parameters whose body ends well. -/
theorem collectingCall_ok {self : Instr} {body : Op Result} {n : Nat} {s t : State} {v : Result}
    (hr : ReadyToCall n s) (h : body (s.setLock (.held (.task n))) = (.ok v, t)) :
    hostCall self onlyCollecting true body s = .next ((t.setLock .free).giveReturn v) := by
  obtain ⟨hk, hd, hl⟩ := hr
  rw [← endCall_ok h]
  exact hostCall_runs hk (if_pos hd) rfl hl

/-- The confirm read of a status write is not compared (R152, R266). -/
theorem confirmCheck_status {cfg : Config} (h : cfg.confirmRule = .standard) (v rb : Half) :
    confirmCheck cfg .cs 0x42 v rb = true := by
  simp [confirmCheck, h]

/-- R266: the write-back of `w` with its confirm read, which is issued in `c`. -/
theorem confirmStatus_run {s : State} (ha : Admitted .cs 0x42 s) (hb : BusOk 2 s)
    (hstd : s.cfg.confirmRule = .standard) (w : Half) :
    ∃ (w2 : Half) (c t : State), confirmWrite .cs 0x42 w (txnWrStatus w) txnRdStatus s = (.ok (), t) ∧
      Ran 2 [okTxn 0x50000042 w, okTxn 0x10000042 w2] s t ∧
      (∀ f ∈ edgeFlags, f (clearEdgeFlags w (runGap s).hw) = true → f c.hw = true) ∧
      (s.env.gaps = [] → c.hw = clearEdgeFlags w s.hw) ∧ t.hw = c.hw.afterStatusRead s.cfg.statusClearOnRead := by
  obtain ⟨u, hwr, hran1, hu, hgaps⟩ := txnWrStatus_run ha hb.first' w
  obtain ⟨_, t, hrd, hran2, ht, -⟩ := txnRdStatus_run (hran1.admitted ha) (hran1.busOk (m := 1) hb)
  have hran := hran1.trans hran2
  refine ⟨_, runGap u, t, ?_, hran, ?_, fun hg => ?_, hran1.cfg ▸ ht⟩
  · unfold confirmWrite
    rw [opThen_ok ((opGap_eq _ _).trans hwr), opThen_ok ((opGap_eq _ _).trans hrd), hran.cfg]
    exact if_pos (confirmCheck_status hstd _ _)
  · rw [← hu]
    exact (runGap_keeps u).hw.flags
  · rw [runGap_none (hgaps.trans (runGap_gapless hg)), hu, runGap_none hg]

/-- The state in which a call's body runs may access the status register (R74, R335). -/
theorem admitted_status {n : Nat} {s : State} (hr : ReadyToCall n s) (hv : s.cfg.Valid) :
    Admitted .cs 0x42 (s.setLock (.held (.task n))) :=
  ⟨cs_inside hv (by decide), ReadyToCall.inside hr.1⟩

theorem writeBackState_eq {n : Nat} {s t : State} {r : Except Stop Half}
    (h : txnRdStatus (snapshotState n s) = (r, t)) : writeBackState n s = runGap t := by
  rw [writeBackState, h]

theorem snapshotState_gapless {n : Nat} {s : State} (h : s.env.gaps = []) : (snapshotState n s).hw = s.hw := by
  rw [snapshotState, runGap_none (s := s.setLock (.held (.task n))) h, State.setLock_hw]

/-- A READ_STATUS whose three transactions succeed: `w` is the snapshot, `w2` what the confirm read gave, `c` the state
in which that read is issued, and the body ends in `t`. -/
structure StatusTaken (n : Nat) (w w2 : Half) (s c t : State) : Prop where
  ends    : exec .readStatus s = .next ((t.setLock .free).giveReturn (.flags (statusFlags w)))
  ran     : Ran 3 [okTxn 0x10000042 w, okTxn 0x50000042 w, okTxn 0x10000042 w2] (s.setLock (.held (.task n))) t
  flags   : ∀ f ∈ edgeFlags, f (clearEdgeFlags w (writeBackState n s).hw) = true → f c.hw = true
  gapless : s.env.gaps = [] → c.hw = s.hw.edgesCleared
  confirm : t.hw = c.hw.afterStatusRead s.cfg.statusClearOnRead

theorem readStatus_ends {n : Nat} {s : State} (hr : ReadyToCall n s) (hv : s.cfg.Valid)
    (hstd : s.cfg.confirmRule = .standard) (hb : BusOk 3 s) :
    ∃ bit15 w2 c t, StatusTaken n (statusWord s.cfg.fifoDepth (snapshotState n s).hw bit15) w2 s c t := by
  have ha := admitted_status hr hv
  obtain ⟨bit15, u, hx1, hran1, hu, hgaps⟩ := txnRdStatus_run ha hb.first'
  obtain ⟨w2, c, t, hx2, hran2, hflags, hgapless, ht⟩ := confirmStatus_run (hran1.admitted ha)
    (hran1.busOk (m := 2) hb) (hran1.cfg ▸ hstd) (statusWord s.cfg.fifoDepth (snapshotState n s).hw bit15)
  refine ⟨bit15, w2, c, t, ?_, hran1.trans hran2, writeBackState_eq hx1 ▸ hflags, fun hg => ?_, hran1.cfg ▸ ht⟩
  · exact collectingCall_ok hr ((opThen_ok hx1).trans (opThen_ok hx2))
  · rw [hgapless (hgaps.trans (runGap_gapless hg)), hu]
    exact (clearEdgeFlags_afterStatusRead ..).trans (congrArg Hw.edgesCleared (snapshotState_gapless hg))

theorem inputStep_hw (tp mp tpe mpe : Bool) (s : State) :
    (inputStep tp mp tpe mpe s).hw = changeInputs tp mp tpe mpe (s.env.draws.bool 0) s.hw := by
  unfold inputStep
  split <;> rfl

/-- R400: a parity error on TCLK that arrives just before the write-back stands when it is issued. -/
theorem writeBackState_parityError {n : Nat} {s : State} {tp mp mpe : Bool} {rest : List (List GapStep)}
    (hr : ReadyToCall n s) (hv : s.cfg.Valid) (hb : BusOk 1 s)
    (hg : s.env.gaps = [] :: [.input tp mp true mpe] :: rest) :
    (snapshotState n s).hw = s.hw ∧ (writeBackState n s).hw.tclkParityErr = true := by
  have snap : snapshotState n s = (s.setLock (.held (.task n))).setGaps ([.input tp mp true mpe] :: rest) := by
    simp [snapshotState, runGap, hg, runGapSteps]
  obtain ⟨_, t, hx, -, -, hgaps⟩ := txnRdStatus_run (admitted_status hr hv) hb
  have back : writeBackState n s = runGap t := writeBackState_eq hx
  have gaps : t.env.gaps = [.input tp mp true mpe] :: rest := hgaps.trans (congrArg (·.env.gaps) snap)
  refine ⟨by rw [snap]; rfl, ?_⟩
  have input : runGap t = inputStep tp mp true mpe (t.setGaps rest) := by
    rw [runGap, gaps]
    rfl
  rw [back, input, inputStep_hw, changeInputs, Bool.or_true]

/-- Settles O49: what READ_STATUS's three transactions leave, first without agents between them; the write-back clears
only flags that the snapshot shows, and no agent clears one. -/
theorem readStatusReturnsAndClears : Obligations.ReadStatusReturnsAndClears := by
  intro n s hr hv hstd hb
  obtain ⟨bit15, w2, c, t, h⟩ := readStatus_ends hr hv hstd hb
  have ⟨hk, hd, _⟩ := hr
  have hret := giveReturn_returned (r := .flags (statusFlags (statusWord s.cfg.fifoDepth (snapshotState n s).hw bit15)))
    (t := t.setLock .free) (h.ran.current.trans hk)
  have survives (hclr : s.cfg.statusClearOnRead = false) : ∀ f ∈ edgeFlags, f (snapshotState n s).hw = false →
      f (writeBackState n s).hw = true → f t.hw = true := fun f hf h0 h1 => by
    rw [h.confirm, hclr]
    exact h.flags f hf (clearEdgeFlags_keeps_unshown _ _ _ _ f hf h0 h1)
  refine ⟨fun hg => ?_, _, _, w2, bit15, h.ends, hret, rfl, h.ran.log,
    instructionsChangeOnlyWhatTheirRuleNames _ _ _ h.ends, rfl, h.ran.drv.trans hd, survives,
    fun tp mp mpe rest hg hclr h0 => ?_⟩
  · rw [snapshotState_gapless hg] at h hret
    refine ⟨_, bit15, w2, h.ends, hret, ?_, rfl, h.ran.log⟩
    exact h.confirm.trans (by rw [h.gapless hg, Hw.afterStatusRead_edgesCleared]; rfl)
  · obtain ⟨snap, back⟩ := writeBackState_parityError hr hv hb.first' hg
    exact survives hclr Hw.tclkParityErr (by simp [edgeFlags]) (snap ▸ h0) back

/-! ### DRAIN_ONE_EVENT (R267, R269, R311, R395, R397) -/

/-- R110: a record's halves stand side by side. -/
theorem joinHalves_eq_append (hi lo : Half) : joinHalves hi lo = hi ++ lo := by
  rw [BitVec.append_def, BitVec.shiftLeftZeroExtend_eq]
  rfl

/-- No flush between transactions: the clear line does not flush (R311), or no agent steps (log 6). -/
def FlushFree (s : State) : Prop := s.cfg.clearAlsoFlushes = false ∨ s.env.gaps = []

theorem FlushFree.congr {s t : State} (h : FlushFree s) (hc : t.cfg = s.cfg) (hg : s.env.gaps = [] → t.env.gaps = []) :
    FlushFree t := h.imp (hc ▸ ·) hg

theorem FlushFree.gap {s : State} (h : FlushFree s) : FlushFree (runGap s) :=
  h.congr (runGap_keeps s).cfg runGap_gapless

/-- A gap without a flush leaves the phase, and the records at the head of the FIFO. -/
theorem FlushFree.appends {s : State} (h : FlushFree s) :
    (runGap s).hw.fifoPhase = s.hw.fifoPhase ∧ s.hw.fifo <+: (runGap s).hw.fifo := by
  rcases h with hf | hg
  · exact (runGap_keeps s).hw.grows hf
  · rw [runGap_none hg]
    exact ⟨rfl, List.prefix_rfl⟩

section Drain

variable {s : State} (ha : Admitted .cs 0x42 s)

include ha

/-- R267: DRAIN_ONE_EVENT's status read ends in `t` with `w`, whose empty bit says which way the body goes on. -/
theorem drainBody_status (hb : BusOk 1 s) :
    ∃ w t, Ran 1 [okTxn 0x10000042 w] s t ∧ w.getLsbD 8 = fifoIsEmpty (runGap s).hw ∧
      t.hw = (runGap s).hw.afterStatusRead s.cfg.statusClearOnRead ∧ t.env.gaps = (runGap s).env.gaps ∧
      drainBody s = if w.getLsbD 8 then (.ok .empty, t)
        else opThen (opGap pairedRead) (fun raw => opPure (recordResult raw)) t := by
  obtain ⟨bit15, t, hx, hran, hw, hgaps⟩ := txnRdStatus_run ha hb
  have bit8 := statusWord_getLsbD s.cfg.fifoDepth (runGap s).hw bit15 (k := 8) (by decide)
  refine ⟨_, t, hran, bit8, hw, hgaps, (opThen_ok hx).trans ?_⟩
  rw [statusSaysEmpty_statusWord, bit8]
  exact ite_apply ..

/-- R267, R269: the oldest record is returned and removed when nothing flushes the FIFO. -/
theorem drainBody_head {r : Word} {rest : List Word} (hv : s.cfg.Valid) (hb : BusOk 3 s) (hfl : FlushFree s)
    (hp : s.hw.fifoPhase = .idle) (hf : s.hw.fifo = r :: rest) :
    ∃ w t newer, drainBody s = (.ok (recordResult r), t) ∧ t.hw.fifo = rest ++ newer ∧ t.hw.fifoPhase = .idle ∧
      Ran 3 [okTxn 0x10000042 w, okTxn 0x90001200 (highHalf r), okTxn 0x90001202 (lowHalf r)] s t := by
  obtain ⟨w, u, hran1, hw, hu, hgaps, hx⟩ := drainBody_status ha hb.first'
  have hran := hran1.trans (.ofGap (runGap_keeps u))
  obtain ⟨hp1, nw1, hf1⟩ := hfl.appends
  have flushFree : FlushFree u := hfl.congr hran1.cfg fun hg => hgaps.trans (runGap_gapless hg)
  obtain ⟨hp2, nw2, hf2⟩ := flushFree.appends
  have hphase : (runGap u).hw.fifoPhase = .idle := by rw [hp2, hu, Hw.afterStatusRead_fifoPhase, hp1, hp]
  have hfifo : (runGap u).hw.fifo = r :: (rest ++ (nw1 ++ nw2)) := by
    rw [← hf2, hu, Hw.afterStatusRead_fifo, ← hf1, hf, List.append_assoc, List.cons_append]
  have hne : w.getLsbD 8 = false := by
    rw [hw, fifoIsEmpty, ← hf1, hf]
    rfl
  obtain ⟨t, nw3, hpair, hq, hph, -, hran2⟩ := pairedRead_run (hran.cfg ▸ hv) (hran.admitted ha).2
    (hran.busOk (m := 2) hb) hphase hfifo flushFree.gap
  refine ⟨w, t, nw1 ++ nw2 ++ nw3, ?_, by rw [hq, List.append_assoc], hph, hran.trans hran2⟩
  rw [hx, hne]
  exact opThen_ok hpair

/-- R267, R311: whatever the agents do, the record returned is what the two halves read make up. -/
theorem drainBody_any (hv : s.cfg.Valid) (hb : BusOk 3 s) (hp : s.hw.fifoPhase = .idle) :
    ∃ w t, t.hw.fifoPhase = .idle ∧
      ((drainBody s = (.ok .empty, t) ∧ w.getLsbD 8 = true ∧ Ran 1 [okTxn 0x10000042 w] s t) ∨
       (∃ hi lo, drainBody s = (.ok (recordResult (hi ++ lo)), t) ∧ w.getLsbD 8 = false ∧
         Ran 3 [okTxn 0x10000042 w, okTxn 0x90001200 hi, okTxn 0x90001202 lo] s t)) := by
  obtain ⟨w, u, hran1, -, hu, -, hx⟩ := drainBody_status ha hb.first'
  have hphase : u.hw.fifoPhase = .idle := by
    rw [hu, Hw.afterStatusRead_fifoPhase]
    exact (runGap_keeps s).hw.idle hp
  cases hw : w.getLsbD 8 with
  | true => exact ⟨w, u, hphase, .inl ⟨by rw [hx, hw]; rfl, hw, hran1⟩⟩
  | false =>
    have hran := hran1.trans (.ofGap (runGap_keeps u))
    obtain ⟨t, hi, lo, hpair, hph, -, -, hran2⟩ := pairedRead_any (hran.cfg ▸ hv) (hran.admitted ha).2
      (hran.busOk (m := 2) hb) ((runGap_keeps u).hw.idle hphase)
    rw [joinHalves_eq_append] at hpair
    refine ⟨w, t, hph, .inr ⟨hi, lo, ?_, hw, hran.trans hran2⟩⟩
    rw [hx, hw]
    exact opThen_ok hpair

/-- R267: of an empty FIFO the status register is read, and nothing else. -/
theorem drainBody_empty (hb : BusOk 1 s) (hg : s.env.gaps = []) (hf : s.hw.fifo = []) :
    ∃ w t, drainBody s = (.ok .empty, t) ∧ t.hw = s.hw.afterStatusRead s.cfg.statusClearOnRead ∧
      Ran 1 [okTxn 0x10000042 w] s t := by
  obtain ⟨w, t, hran, hw, ht, -, hx⟩ := drainBody_status ha hb
  rw [runGap_none hg] at hw ht
  have hempty : w.getLsbD 8 = true := by
    rw [hw, fifoIsEmpty, hf]
    rfl
  refine ⟨w, t, ?_, ht, hran⟩
  rw [hx, hempty]
  rfl

end Drain

/-- Settles O50: the body's three cases, as a call that returns what the body answers. -/
theorem drainReturnsTheOldestRecord : Obligations.DrainReturnsTheOldestRecord := by
  intro n s hr hv
  have ha := admitted_status hr hv
  have ⟨hk, hd, _⟩ := hr
  have returned {v : Result} {t : State} {k : Nat} {l : List Txn} (h : Ran k l (s.setLock (.held (.task n))) t) :
      Returned (.task n) v ((t.setLock .free).giveReturn v) := giveReturn_returned (h.current.trans hk)
  have runs {v : Result} {t : State} (h : drainBody (s.setLock (.held (.task n))) = (.ok v, t)) :
      exec .drainOneEvent s = .next ((t.setLock .free).giveReturn v) := collectingCall_ok hr h
  have registers {t : State} (h : exec .drainOneEvent s = .next t) : t.hw.registers = s.hw.registers :=
    instructionsChangeOnlyWhatTheirRuleNames _ _ _ h
  refine ⟨fun r rest hfl hb hp hf => ?_, fun hb hp => ?_, fun hb hg hf => ?_⟩
  · obtain ⟨w, t, newer, hbody, hq, hph, hran⟩ := drainBody_head ha hv hb hfl hp hf
    exact ⟨_, newer, w, runs hbody, hq, hph, recordResult_eq r ▸ returned hran, registers (runs hbody), rfl,
      hran.drv.trans hd, hran.log⟩
  · obtain ⟨w, t, hph, ⟨hbody, hw, hran⟩ | ⟨hi, lo, hbody, hw, hran⟩⟩ := drainBody_any ha hv hb hp
    · exact ⟨_, w, runs hbody, hph, registers (runs hbody), rfl, hran.drv.trans hd, .inl ⟨returned hran, hw, hran.log⟩⟩
    · exact ⟨_, w, runs hbody, hph, registers (runs hbody), rfl, hran.drv.trans hd,
        .inr ⟨hi, lo, returned hran, hw, hran.log⟩⟩
  · obtain ⟨w, t, hbody, ht, hran⟩ := drainBody_empty ha hb hg hf
    refine ⟨_, w, runs hbody, returned hran, hran.log, rfl, hran.drv.trans hd,
      fun hclr => ht.trans (congrArg (Hw.afterStatusRead · s.hw) hclr), ?_, ?_⟩
    · exact (congrArg Hw.fifo ht).trans ((Hw.afterStatusRead_fifo ..).trans hf)
    · exact (congrArg Hw.fifoPhase ht).trans (Hw.afterStatusRead_fifoPhase ..)

end Sys2Proof.Machine

/-! ### The steps of the hardware on the whole state (R300, R308, R310, R313) -/

namespace Sys2Proof.Machine

/-- What a step of the hardware may change of the whole state (R300; the draws: log 4). -/
def AgentFrame (s t : State) : Prop :=
  ∃ hw history draws, t = { s with hw := hw, history := history, env := { s.env with draws := draws } }

theorem tclkStep_agentFrame (code : Byte) (s : State) : AgentFrame s (tclkStep code s) := by
  unfold tclkStep
  split <;> exact ⟨_, _, _, rfl⟩

theorem inputStep_agentFrame (tp mp tpe mpe : Bool) (s : State) : AgentFrame s (inputStep tp mp tpe mpe s) := by
  unfold inputStep
  extract_lets t
  split <;> exact ⟨_, _, _, rfl⟩

theorem exec_agentFrame {i : Instr} {s t : State} (hi : isAgentStep i = true) (h : exec i s = .next t) :
    AgentFrame s t ∧ HwAgent s.cfg s.hw t.hw := by
  cases i with
  | evtTclk code => cases h; exact ⟨tclkStep_agentFrame code s, (tclkStep_keeps code s).hw⟩
  | evtTick => cases h; exact ⟨⟨_, _, _, rfl⟩, (tickStep_keeps s).hw⟩
  | evtInput tp mp tpe mpe =>
    cases h; exact ⟨inputStep_agentFrame tp mp tpe mpe s, (inputStep_keeps tp mp tpe mpe s).hw⟩
  | _ => exact nomatch hi

/-- Settles O16: an agent's step is inside its frame on the whole state, and keeps the registers of the hardware. -/
theorem agentsLeaveTheHostAlone : Obligations.AgentsLeaveTheHostAlone := by
  intro i s t hi h
  obtain ⟨⟨hw, history, draws, rfl⟩, agent⟩ := exec_agentFrame hi h
  exact ⟨rfl, agent.registers, rfl, rfl, rfl, rfl, rfl⟩

/-- R313. -/
theorem tclkStep_disabled {s : State} (code : Byte) (h : s.hw.tclkEnabled = false) : tclkStep code s = s :=
  if_neg (by simp [h])

/-- Settles O57: the TCLK event's guard fails; the other two steps change fields of their own. -/
theorem disabledTclkEventChangesNothing : Obligations.DisabledTclkEventChangesNothing := by
  intro s code tp mp tpe mpe h
  refine ⟨congrArg Host.Outcome.next (tclkStep_disabled code h), ⟨tickStep s, rfl, rfl, rfl, h⟩,
    inputStep tp mp tpe mpe s, rfl, ?_⟩
  rw [inputStep_hw]
  exact ⟨rfl, rfl, rfl, h⟩

/-- R308. -/
theorem stamp_add_one (n : Stamp) : n + 1 = BitVec.ofNat 24 ((n.toNat + 1) % 2 ^ 24) := by
  apply BitVec.eq_of_toNat_eq
  simp

/-- R359: an input change requests at most one interrupt. -/
theorem inputStep_history (tp mp tpe mpe : Bool) (s : State) :
    (inputStep tp mp tpe mpe s).history = s.history ∨
    (inputStep tp mp tpe mpe s).history = s.history ++ [.irqMdat] := by
  unfold inputStep
  extract_lets t
  split
  · exact .inr rfl
  · exact .inl rfl

/-- Settles O60: the counter's increment as arithmetic, and the fields an input change sets. -/
theorem timebaseAndInputSteps : Obligations.TimebaseAndInputSteps := by
  intro s tp mp tpe mpe
  refine ⟨?_, inputStep tp mp tpe mpe s, _, rfl, inputStep_hw .., fun manual => ?_, inputStep_history .., ?_⟩
  · rw [← stamp_add_one]
    rfl
  · simp [manual]
  · obtain ⟨hw, history, draws, e⟩ := inputStep_agentFrame tp mp tpe mpe s
    rw [e]

end Sys2Proof.Machine

/-! ### An enabled TCLK event (R301 to R307, R311) -/

namespace Sys2Proof.Machine

/-- Whether an event of code `code` hits the clear-selected line (R301, R304). -/
def clearHits (cfg : Config) (code : Byte) (d : EventDraws) (h : Hw) : Bool :=
  hits (selLine cfg.selOffset h.clrTrigSel) (routingMask (ttEntry h.tt code)) d.clearHit

/-- Whether an event of code `code` is captured (R305). -/
def isCaptured (cfg : Config) (code : Byte) (d : EventDraws) (h : Hw) : Bool :=
  captures cfg h.wrTrigSel (routingMask (ttEntry h.tt code)) d.capture

/-- The capture half of an event: the record of its code and the counter, where it is captured (R305). -/
def recordEvent (cfg : Config) (code : Byte) (d : EventDraws) (h : Hw) : Hw :=
  if isCaptured cfg code d h then enqueue cfg (encodeRecord code h.tsCounter) d.threshold h else h

theorem clearHits_onLine {cfg : Config} {code : Byte} {h : Hw} (on : OnLine cfg h.clrTrigSel (ttEntry h.tt code))
    (d : EventDraws) : clearHits cfg code d h = true := hits_onLine on _

theorem clearHits_offLine {cfg : Config} {code : Byte} {h : Hw} (off : OffLine cfg h.clrTrigSel (ttEntry h.tt code))
    (d : EventDraws) : clearHits cfg code d h = false := hits_offLine off _

theorem isCaptured_surely {s : State} {code : Byte} (h : SurelyCaptured code s) (d : EventDraws) :
    isCaptured s.cfg code d s.hw = true := captures_surely h _

theorem isCaptured_passed {s : State} {code : Byte} (h : SurelyPassed code s) (d : EventDraws) :
    isCaptured s.cfg code d s.hw = false := captures_passed h _

section

variable {cfg : Config} {code : Byte} {d : EventDraws} {h : Hw}

theorem resetCounter_flushing (hf : cfg.clearAlsoFlushes = true) :
    resetCounter cfg h = flushFifo { h with tsCounter := 0 } := if_pos hf

theorem resetCounter_plain (hf : cfg.clearAlsoFlushes = false) :
    resetCounter cfg h = { h with tsCounter := 0 } := if_neg (by simp [hf])

/-- A reset keeps what the capture is decided by. -/
theorem isCaptured_resetCounter : isCaptured cfg code d (resetCounter cfg h) = isCaptured cfg code d h := by
  obtain ⟨_, _, _, _, _, e⟩ := resetCounter_frame cfg h
  rw [e]
  rfl

/-- R301, R304, R305: a captured event is recorded; on the clear-selected line the counter is reset before or after. -/
theorem captureEvent_eq : captureEvent cfg code d h =
    if clearHits cfg code d h then
      if d.resetFirst then recordEvent cfg code d (resetCounter cfg h) else resetCounter cfg (recordEvent cfg code d h)
    else recordEvent cfg code d h := by
  rw [captureEvent, recordEvent, isCaptured_resetCounter]
  cases hr : clearHits cfg code d h with
  | false =>
    rw [clearHits] at hr
    rw [hr]
    rfl
  | true =>
    rw [clearHits] at hr
    rw [hr]
    cases d.resetFirst with
    | false => rfl
    | true => rfl

theorem captureEvent_missed (hr : clearHits cfg code d h = false) :
    captureEvent cfg code d h = recordEvent cfg code d h := by
  simp [captureEvent_eq, hr]

theorem recordEvent_passed (hc : isCaptured cfg code d h = false) : recordEvent cfg code d h = h :=
  if_neg (by simp [hc])

theorem recordEvent_room (hc : isCaptured cfg code d h = true) (room : h.fifo.length ≠ cfg.fifoDepth) :
    recordEvent cfg code d h = { h with
      fifo := h.fifo ++ [encodeRecord code h.tsCounter]
      fifoThreshold := h.fifoThreshold ||
        thresholdRaised cfg.threshRule cfg.fifoDepth h.threshold.toNat h.fifo.length d.threshold } :=
  (if_pos hc).trans (enqueue_room room ..)

/-- R306: of a full FIFO only the overflow flag may change. -/
theorem recordEvent_full (full : h.fifo.length = cfg.fifoDepth) :
    recordEvent cfg code d h = { h with fifoOverflow := h.fifoOverflow || isCaptured cfg code d h } := by
  cases hc : isCaptured cfg code d h with
  | false => rw [recordEvent_passed hc, Bool.or_false]
  | true => exact (if_pos hc).trans ((enqueue_full full ..).trans (by rw [Bool.or_true]))

theorem recordEvent_fifo : (recordEvent cfg code d h).fifo =
    if isCaptured cfg code d h = true ∧ h.fifo.length ≠ cfg.fifoDepth then h.fifo ++ [encodeRecord code h.tsCounter]
    else h.fifo := by
  split
  · rename_i hc
    rw [recordEvent_room hc.1 hc.2]
  · rename_i hc
    rcases not_and_or.mp hc with hc | full
    · rw [recordEvent_passed (by simpa using hc)]
    · rw [recordEvent_full (not_not.mp full)]

@[simp] theorem recordEvent_phase : (recordEvent cfg code d h).fifoPhase = h.fifoPhase := by
  unfold recordEvent
  split
  · exact enqueue_phase ..
  · rfl

@[simp] theorem recordEvent_counter : (recordEvent cfg code d h).tsCounter = h.tsCounter := by
  unfold recordEvent
  split
  · exact enqueue_counter ..
  · rfl

/-- R304: whichever of reset and capture comes first. -/
theorem captureEvent_counter : (captureEvent cfg code d h).tsCounter =
    if clearHits cfg code d h then 0 else h.tsCounter := by
  rw [captureEvent_eq]
  split
  · split
    · rw [recordEvent_counter, resetCounter_counter]
    · exact resetCounter_counter ..
  · exact recordEvent_counter

theorem captureEvent_passed (hc : isCaptured cfg code d h = false) :
    captureEvent cfg code d h = if clearHits cfg code d h then resetCounter cfg h else h := by
  rw [captureEvent_eq, recordEvent_passed hc, recordEvent_passed (isCaptured_resetCounter.trans hc), ite_self]

/-- A reset touches neither flag of the FIFO. -/
theorem captureEvent_passed_flags (hc : isCaptured cfg code d h = false) :
    (captureEvent cfg code d h).fifoOverflow = h.fifoOverflow ∧
    (captureEvent cfg code d h).fifoThreshold = h.fifoThreshold := by
  rw [captureEvent_passed hc]
  unfold resetCounter
  split
  · split <;> exact ⟨rfl, rfl⟩
  · exact ⟨rfl, rfl⟩

/-- An event that does not flush records as it would with the counter at `stamp`, and sets the counter. -/
theorem captureEvent_unflushed_eq (hf : cfg.clearAlsoFlushes = false ∨ clearHits cfg code d h = false) :
    ∃ stamp n, (stamp = h.tsCounter ∨ stamp = 0) ∧ captureEvent cfg code d h =
      { recordEvent cfg code d { h with tsCounter := stamp } with tsCounter := n } := by
  cases hr : clearHits cfg code d h with
  | false => exact ⟨_, _, .inl rfl, captureEvent_missed hr⟩
  | true =>
    have plain : cfg.clearAlsoFlushes = false := hf.resolve_right (by simp [hr])
    rw [captureEvent_eq, if_pos hr, resetCounter_plain plain, resetCounter_plain plain]
    split
    · exact ⟨0, _, .inr rfl, rfl⟩
    · exact ⟨_, 0, .inl rfl, rfl⟩

/-- R305, R306: an event that does not flush appends its record where it is captured with room. -/
theorem captureEvent_unflushed (hf : cfg.clearAlsoFlushes = false ∨ clearHits cfg code d h = false) :
    (captureEvent cfg code d h).fifoPhase = h.fifoPhase ∧
    (∃ stamp, (stamp = h.tsCounter ∨ stamp = 0) ∧ (captureEvent cfg code d h).fifo =
      if isCaptured cfg code d h = true ∧ h.fifo.length ≠ cfg.fifoDepth then h.fifo ++ [encodeRecord code stamp]
      else h.fifo) ∧
    (h.fifo.length = cfg.fifoDepth → (captureEvent cfg code d h).fifoThreshold = h.fifoThreshold ∧
      (captureEvent cfg code d h).fifoOverflow = (h.fifoOverflow || isCaptured cfg code d h)) := by
  obtain ⟨stamp, n, hstamp, e⟩ := captureEvent_unflushed_eq hf
  rw [e]
  refine ⟨recordEvent_phase, ⟨stamp, hstamp, recordEvent_fifo⟩, fun full => ?_⟩
  rw [recordEvent_full (h := { h with tsCounter := stamp }) full]
  exact ⟨rfl, rfl⟩

/-- R311: the old records are gone; a new one stands alone where the reset came first. -/
theorem captureEvent_flushed (hf : cfg.clearAlsoFlushes = true) (hr : clearHits cfg code d h = true) :
    ((captureEvent cfg code d h).fifo = [] ∨ (captureEvent cfg code d h).fifo = [encodeRecord code 0]) ∧
    (captureEvent cfg code d h).fifoPhase = if h.fifoPhase = .highRead then .highReadEmpty else h.fifoPhase := by
  rw [captureEvent_eq, if_pos hr, resetCounter_flushing hf, resetCounter_flushing hf]
  split
  · rw [recordEvent_fifo, recordEvent_phase, flushFifo_phase_eq]
    refine ⟨?_, rfl⟩
    split
    · exact .inr rfl
    · exact .inl rfl
  · rw [flushFifo_phase_eq]
    exact ⟨.inl rfl, by rw [recordEvent_phase]⟩

end

section

variable {rule : ThreshRule} {depth threshold n0 : Nat} {drawn : Bool} (low : 1 ≤ threshold) (high : threshold ≤ depth)

include low high

theorem thresholdRaised_crossing (h : rule = .crossing) : thresholdRaised rule depth threshold n0 drawn =
    decide (n0 < threshold ∧ threshold ≤ n0 + 1) := by
  rw [h, thresholdRaised, if_neg (by omega)]

theorem thresholdRaised_atOrAbove (h : rule = .atOrAbove) : thresholdRaised rule depth threshold n0 drawn =
    decide (threshold ≤ n0 + 1) := by
  rw [h, thresholdRaised, if_neg (by omega)]

end

/-- R301, R303: what an enabled TCLK event answers. -/
theorem exec_evtTclk_enabled {s : State} (code : Byte) (h : s.hw.tclkEnabled = true) :
    ∃ t, exec (.evtTclk code) s = .next t ∧ t.hw = captureEvent s.cfg code (eventDraws s.env.draws) s.hw ∧
      t.host = s.host ∧ t.history = s.history ++ [.trig code ((ttEntry s.hw.tt code).setWidth 8)] :=
  ⟨_, congrArg Host.Outcome.next (tclkStep_enabled code h), rfl, rfl, rfl⟩

/-- Settles O58: with the clear selector neutral the event only records; with room that is the append, and off the
write line nothing. -/
theorem capturedEventIsAppended : Obligations.CapturedEventIsAppended := by
  intro s code enabled neutral
  obtain ⟨t, run, hw, host, history⟩ := exec_evtTclk_enabled code enabled
  rw [captureEvent_missed (clearHits_offLine (.inl neutral) _)] at hw
  refine ⟨fun captured room => ?_, fun passed => ?_⟩
  · rw [recordEvent_room (isCaptured_surely captured _) room, encodeRecord_eq_ofNat] at hw
    exact ⟨t, _, run, history, hw, fun _ set => by rw [set, Bool.true_or],
      fun low high rule => by rw [thresholdRaised_crossing low high rule],
      fun low high rule => by rw [thresholdRaised_atOrAbove low high rule], host⟩
  · exact ⟨t, run, hw.trans (recordEvent_passed (isCaptured_passed passed _)), host, history⟩

/-- Settles O59: the counter by the clear line, the FIFO by whether the event flushes, the flags by what every agent
keeps. -/
theorem eventsOnlyAppend : Obligations.EventsOnlyAppend := by
  intro s code enabled
  obtain ⟨t, run, hw, host, history⟩ := exec_evtTclk_enabled code enabled
  have agent := captureEvent_agent s.cfg code (eventDraws s.env.draws) s.hw
  have counter := captureEvent_counter (cfg := s.cfg) (code := code) (d := eventDraws s.env.draws) (h := s.hw)
  refine ⟨t, run, host, history, ?_⟩
  rw [hw]
  refine ⟨?_, fun off => ?_, fun on => ?_, fun noFlush => ?_, fun flushing on => ?_,
    fun passed => captureEvent_passed_flags (isCaptured_passed passed _), agent.overflow, agent.threshold⟩
  · rw [counter]
    split
    · exact .inr rfl
    · exact .inl rfl
  · rw [counter, clearHits_offLine off]
    rfl
  · rw [counter, clearHits_onLine on]
    rfl
  · obtain ⟨phase, ⟨stamp, hstamp, fifo⟩, full⟩ :=
      captureEvent_unflushed (noFlush.imp_right (clearHits_offLine · (eventDraws s.env.draws)))
    refine ⟨phase, ?_, fun captured room => ?_, fun passed => ?_, fun isFull =>
      ⟨?_, (full isFull).1, fun captured => ?_⟩⟩
    · rw [fifo]
      split
      · exact .inr ⟨stamp, hstamp, rfl⟩
      · exact .inl rfl
    · rw [fifo, if_pos ⟨isCaptured_surely captured _, room⟩]
      simp
    · rw [fifo, isCaptured_passed passed]
      simp
    · rw [fifo, if_neg fun h => h.2 isFull]
    · rw [(full isFull).2, isCaptured_surely captured, Bool.or_true]
  · have hr := clearHits_onLine on (eventDraws s.env.draws)
    obtain ⟨fifo, phase⟩ := captureEvent_flushed flushing hr
    refine ⟨fifo, fun passed => ?_, phase⟩
    rw [captureEvent_passed (isCaptured_passed passed _), if_pos hr, resetCounter_flushing flushing]
    rfl

end Sys2Proof.Machine

namespace Sys2Proof.Machine

/-! ### The lock operations in every case (R331 to R334, R239) -/

theorem returnTo_eq_giveReturn {k : HostContext} {s : State} (r : Result) (hk : s.host.current = k) :
    s.returnTo k r = s.giveReturn r := hk ▸ rfl

theorem refuseTo_eq_markRefused {k : HostContext} {s : State} (r : RefusalReason) (hk : s.host.current = k) :
    s.refuseTo k r = s.markRefused r := hk ▸ rfl

theorem exec_lockTask_task {s : State} {n : Nat} (hk : s.host.current = .task n) :
    exec .lockTask s = .next (lockTaskStep n s) := by
  simp [exec, execLockTask, hk]

theorem exec_lockTask_isr {s : State} (hk : s.host.current = .isr) :
    exec .lockTask s = .next (s.markRefused .interruptContext) := by
  simp [exec, execLockTask, hk]

theorem lockTaskStep_free {s : State} (n : Nat) (hd : s.host.drv ≠ .failed) (hl : s.host.lock = .free) :
    lockTaskStep n s = (s.setLock (.held (.task n))).returnTo (.task n) .done := by
  simp [lockTaskStep, hd, hl]

theorem lockTaskStep_held {s : State} {k : HostContext} (n : Nat) (hd : s.host.drv ≠ .failed)
    (hl : s.host.lock = .held k) : lockTaskStep n s = s.block n .lockTask := by
  simp [lockTaskStep, hd, hl]

theorem lockTaskStep_failed {s : State} (n : Nat) (hd : s.host.drv = .failed) :
    lockTaskStep n s = s.refuseTo (.task n) .wrongDriverState := if_pos hd

theorem lockIsrStep_free {s : State} (hd : s.host.drv ≠ .failed) (hl : s.host.lock = .free) :
    lockIsrStep s = (s.setLock (.held .isr)).returnTo .isr .acquired := by
  simp [lockIsrStep, hd, hl]

theorem lockIsrStep_held {s : State} {k : HostContext} (hd : s.host.drv ≠ .failed) (hl : s.host.lock = .held k) :
    lockIsrStep s = s.returnTo .isr .busy := by
  simp [lockIsrStep, hd, hl]

theorem lockIsrStep_failed {s : State} (hd : s.host.drv = .failed) :
    lockIsrStep s = s.refuseTo .isr .wrongDriverState := if_pos hd

theorem unlockStep_holder {s : State} {k : HostContext} (hl : s.host.lock = .held k) :
    unlockStep k s = (s.setLock .free).returnTo k .done := if_pos hl

theorem unlockStep_notHolder {s : State} {k : HostContext} (hl : s.host.lock ≠ .held k) :
    unlockStep k s = s.refuseTo k .notLockHolder := if_neg hl

/-- LOCK_TASK on a held lock, the task's own included (R331, R334). -/
theorem exec_lockTask_waits {s : State} {n : Nat} {k : HostContext} (hk : s.host.current = .task n)
    (hd : s.host.drv ≠ .failed) (hl : s.host.lock = .held k) : exec .lockTask s = .next (s.block n .lockTask) := by
  rw [exec_lockTask_task hk, lockTaskStep_held n hd hl]

/-- Settles O56: each operation's step by the driver state and the lock. -/
theorem lockOperations : Obligations.LockOperations := by
  intro s n k
  refine ⟨fun hk hd hl => ?_, exec_lockTask_waits, exec_lockTask_isr, fun hk hd => ?_,
    fun hd hl => congrArg Host.Outcome.next (lockIsrStep_free hd hl),
    fun hd hl => congrArg Host.Outcome.next (lockIsrStep_held hd hl),
    fun hd => congrArg Host.Outcome.next (lockIsrStep_failed hd),
    fun hl => congrArg Host.Outcome.next (unlockStep_holder hl),
    fun hl => congrArg Host.Outcome.next (unlockStep_notHolder hl)⟩
  · rw [exec_lockTask_task hk, lockTaskStep_free n hd hl,
      returnTo_eq_giveReturn (s := s.setLock (.held (.task n))) .done hk]
  · rw [exec_lockTask_task hk, lockTaskStep_failed n hd, refuseTo_eq_markRefused _ hk]

/-! ### Waiting for the lock (R331, R334, R336, R340; log 8) -/

/-- Settles O43: the driver state admits the call and its operands pass, so the call comes to the held lock. -/
theorem callsWaitForTheLock : Obligations.CallsWaitForTheLock := by
  intro i n k s hk hl hi
  rcases hi with ⟨hi, hp, hd⟩ | ⟨rfl, hd⟩
  · obtain ⟨body, hx⟩ := exec_collectingCall hi
    rw [hx, hostCall_waits hk (if_pos hd) hp hl]
  · exact hostCall_waits hk (if_pos hd) rfl hl

theorem step_waitingTurn {s : State} {n : Nat} {f : Format} {x : CodeWord} {ts : List Turn}
    (hs : s.env.schedule = .issue (.task n) f x :: ts) (hf : f ≠ .agent) (hw : s.waits n = true) :
    step s = .next (withSchedule ts s) := by
  have hn : hasNoStep (.task n) (withSchedule ts s) = true := hw
  rw [step_head hs]
  simp [runTurn, isHostFormat_of_ne hf, hn]

theorem step_resumeTurn {s : State} {n : Nat} {op : Instr} {ts : List Turn} (hs : s.env.schedule = .resume n :: ts)
    (hw : waitingOp n s = some op) : step s = exec op (((withSchedule ts s).unblock n).setCurrent (.task n)) := by
  have hw' : waitingOp n (withSchedule ts s) = some op := hw
  rw [step_head hs]
  simp [runTurn, hw']

theorem step_noTurn {s : State} (hs : s.env.schedule = []) : step s = .next s := by
  simp [step, stepTurn, hs]

/-- Settles O6: one lemma per kind of turn. -/
theorem waitingTaskHasNoStepOfItsOwn : Obligations.WaitingTaskHasNoStepOfItsOwn :=
  fun _ _ _ => ⟨fun _ _ hf hs hw => step_waitingTurn hs hf hw, fun _ hs hw => step_resumeTurn hs hw, step_noTurn⟩

/-! ### Contexts that do not hold the lock (R335, R337) -/

/-- What an instruction leaves alone while another context than the issuing one holds the lock. -/
structure LockedOut (i : Instr) (s t : State) : Prop where
  hw      : isAgentStep i = false → t.hw = s.hw
  log     : t.host.log = s.host.log
  lock    : t.host.lock = s.host.lock
  drv     : t.host.drv = s.host.drv
  waiting : ∀ n op, s.host.current ≠ .task n → waitingOp n s = some op → waitingOp n t = some op

/-- A task that comes to wait changes nothing but its own entry of the waiting list. -/
theorem LockedOut.blocks {i : Instr} {s : State} {n : Nat} (op : Instr) (hk : s.host.current = .task n) :
    LockedOut i s (s.block n op) where
  hw _ := rfl
  log := rfl
  lock := rfl
  drv := rfl
  waiting m o hm ho := by rw [waitingOp_block, if_neg fun e : m = n => hm (e ▸ hk), ho]

/-- Every case that could touch the hardware or the log asks for a free lock or for one of the issuing context. -/
theorem ExecCase.lockedOut {i : Instr} {s t : State} {k : HostContext} (h : ExecCase i s t)
    (hl : s.host.lock = .held k) (hk : s.host.current ≠ k) : LockedOut i s t := by
  have notMine : s.host.lock ≠ .held s.host.current := fun h => hk (Lock.held.inj (h.symm.trans hl))
  cases h with
  | marked r => exact ⟨fun _ => rfl, rfl, rfl, rfl, fun _ _ _ ho => ho⟩
  | returned r => exact ⟨fun _ => rfl, rfl, rfl, rfl, fun _ _ _ ho => ho⟩
  | waits n _ hn _ => exact .blocks i hn
  | txn op hb hmine => exact absurd hmine notMine
  | call n op hb hn hfree hd => exact nomatch hl.symm.trans hfree
  | construct n hn hfree hd => exact nomatch hl.symm.trans hfree
  | sub n d next op hb hi hm hf hn hc =>
    obtain ⟨hn, _, hmine⟩ := hi
    exact absurd (hn ▸ hmine) notMine
  | agent t ha hh hheld hf =>
    exact ⟨fun hi => (hf hi).1, ha.log, (hheld k hl).trans hl.symm, ha.drv, fun n op _ => ha.waiting n op⟩
  | again n _ hn _ => exact .blocks .lockTask hn
  | unlock hmine => exact absurd hmine notMine

/-- Settles O15: by the cases of an instruction, none of which lets a context act without the lock. -/
theorem onlyTheHolderActs : Obligations.OnlyTheHolderActs := by
  intro i s t k hi hl hk h
  have out := (exec_case_of h).lockedOut hl hk
  exact ⟨out.hw hi, out.log, out.lock, out.drv⟩

/-! ### A task that waits for its own lock (R334) -/

theorem waitingOp_unblock_ne {i n : Nat} (h : i ≠ n) (s : State) : waitingOp i (s.unblock n) = waitingOp i s := by
  have hp : (fun a : Nat × Instr => decide ((a.1 != n) = true ∧ (a.1 == i) = true)) = fun a => a.1 == i := by
    funext a
    by_cases ha : a.1 = i <;> simp [ha, h]
  simp only [waitingOp, State.unblock, List.find?_filter, hp]

/-- Being stuck is about the lock, the driver state and the task's entry of the waiting list. -/
theorem StuckOn.congr {i : Nat} {op : Instr} {s t : State} (hs : StuckOn i op s) (hw : waitingOp i t = some op)
    (hl : t.host.lock = s.host.lock) (hd : t.host.drv = s.host.drv) : StuckOn i op t where
  waiting := hw
  holder := hl.trans hs.holder
  again := hd ▸ hs.again

/-- Called afresh by its own task, the operation a stuck task waits with makes it wait again. -/
theorem StuckOn.exec_again {i : Nat} {op : Instr} {s u : State} (hs : StuckOn i op s) (hk : u.host.current = .task i)
    (hl : u.host.lock = s.host.lock) (hd : u.host.drv = s.host.drv) : exec op u = .next (u.block i op) := by
  have held : u.host.lock = .held (.task i) := hl.trans hs.holder
  rcases hs.again with ⟨rfl, hn⟩ | ⟨rfl, hu⟩ | ⟨hi, hp, hc⟩
  · exact exec_lockTask_waits hk (hd ▸ hn) held
  · exact callsWaitForTheLock _ i _ u hk held (.inr ⟨rfl, hd.trans hu⟩)
  · exact callsWaitForTheLock _ i _ u hk held (.inl ⟨hi, hp, hd.trans hc⟩)

/-- No instruction of another context frees a stuck task. -/
theorem StuckOn.exec_other {i : Nat} {op j : Instr} {s t : State} (hs : StuckOn i op s)
    (hk : s.host.current ≠ .task i) (h : exec j s = .next t) : StuckOn i op t :=
  have out := (exec_case_of h).lockedOut hs.holder hk
  hs.congr (out.waiting i op hk hs.waiting) out.lock out.drv

/-- A step of the machine leaves a stuck task stuck: the task itself has no turn but the one that calls its operation
afresh, and every other context is locked out. -/
theorem StuckOn.step {i : Nat} {op : Instr} {s t : State} (hs : StuckOn i op s) (h : step s = .next t) :
    StuckOn i op t := by
  cases step_case h with
  | idle => exact hs
  | passes ts => exact hs.congr hs.waiting rfl rfl
  | rejected ts k r => exact hs.congr hs.waiting rfl rfl
  | host ts k j t hk h =>
    have other : k ≠ .task i := fun e =>
      Bool.false_ne_true ((hk i e).symm.trans ((waits_iff i s).mpr ⟨op, hs.waiting⟩))
    exact (hs.congr (t := (withSchedule ts s).setCurrent k) hs.waiting rfl rfl).exec_other other h
  | agent ts j t ha h =>
    obtain ⟨⟨hw, history, draws, rfl⟩, _⟩ := exec_agentFrame ha h
    exact hs.congr hs.waiting rfl rfl
  | resume ts n op' t hw h =>
    by_cases hn : i = n
    · subst hn
      obtain rfl : op = op' := Option.some.inj (hs.waiting.symm.trans hw)
      cases (hs.exec_again (u := ((withSchedule ts s).unblock i).setCurrent (.task i)) rfl rfl rfl).symm.trans h
      exact hs.congr ((waitingOp_block ..).trans (if_pos rfl)) rfl rfl
    · have waiting : waitingOp i (((withSchedule ts s).unblock n).setCurrent (.task n)) = some op :=
        (waitingOp_unblock_ne hn (withSchedule ts s)).trans hs.waiting
      exact (hs.congr waiting rfl rfl).exec_other (fun e => hn (HostContext.task.inj e).symm) h

/-- Settles O14: LOCK_TASK by the holder waits for the held lock, and every step keeps a stuck task stuck. -/
theorem stuckTaskStaysStuck : Obligations.StuckTaskStaysStuck := by
  refine ⟨fun i s hk hl hd => ⟨_, exec_lockTask_waits hk hd hl, ?_⟩, fun i op s t hs h => hs.step h⟩
  exact ⟨(waitingOp_block ..).trans (if_pos rfl), hl, .inl ⟨rfl, hd⟩⟩

end Sys2Proof.Machine
